-- ==== Sys2Proof/Word.lean ====
section
/-! DEFINITION. The two word types of the block (spec 00_scope.md R13, R14): a byte of system memory and a 32-bit
register word. The type is core Lean's BitVec, whose `+` is the spec's `+32` (addition modulo 2^32), whose `^^^` is
bitwise exclusive-or and whose `rotateLeft` is `rotl32`. -/

namespace Sys2Proof

/-- A byte is 8 bits (00_scope.md R13). -/
abbrev Byte := BitVec 8

/-- A register of the window, a latched argument and a word of the cipher state are 32 bits (00_scope.md R11, R12). -/
abbrev Word := BitVec 32

end Sys2Proof
end

