-- ==== Sys2Proof/Machine/Bytes.lean ====
section
/-! DEFINITION. Byte strings: little-endian conversion (00_scope.md R15, 20_memory.md R91) and bytewise exclusive-or. -/

namespace Sys2Proof.Machine

/-- `LE(b)`: the integer `sum b[i] * 256^i` of a byte string (00_scope.md R15). -/
def leNat : List Byte → Nat
  | []      => 0
  | b :: bs => b.toNat + 256 * leNat bs

/-- `le_n(v)`: the n-byte string with `LE(le_n(v)) = v mod 256^n` (00_scope.md R15). -/
def leBytes : (n : Nat) → (v : Nat) → List Byte
  | 0,     _ => []
  | n + 1, v => BitVec.ofNat 8 v :: leBytes n (v / 256)

/-- `le32word(b, i)`: the little-endian word of `b[i..i+3]` (00_scope.md R15). -/
def le32word (b : List Byte) (i : Nat) : Word := BitVec.ofNat 32 (leNat ((b.drop i).take 4))

/-- Bytewise exclusive-or of two byte strings (41_chacha20.md R210). -/
def xorBytes (a b : List Byte) : List Byte := List.zipWith (· ^^^ ·) a b

end Sys2Proof.Machine
end

