-- ==== Sys2Proof/Syntax.lean ====
section
/-! DEFINITION. The commands of the block (30_encoding.md R133), one constructor per row of the opcode table, and the
three fields of a command word (R130). -/

namespace Sys2Proof

/-- The seven commands. The command word's only operand is CLAMP (30_encoding.md R132), which only X25519 has; every
other operand is a latched argument. -/
inductive Instr where
  /-- CHACHA_XOR, 41_chacha20.md R210. -/
  | chachaXor
  /-- POLY_INIT, 42_poly1305.md R245. -/
  | polyInit
  /-- POLY_UPDATE, 42_poly1305.md R250. -/
  | polyUpdate
  /-- POLY_FINISH, 42_poly1305.md R255. -/
  | polyFinish
  /-- AEAD_SEAL, 43_aead.md R294. -/
  | aeadSeal
  /-- AEAD_OPEN, 43_aead.md R297. -/
  | aeadOpen
  /-- X25519 with its CLAMP bit, 44_x25519.md R348. -/
  | x25519 (clamp : Bool)
  deriving DecidableEq, Repr

/-- A command word cut into the fields of 30_encoding.md R130: OPC = w[7:0], CLAMP = w[8], RSV = w[31:9]. -/
structure CommandWord where
  opc   : BitVec 8
  clamp : Bool
  rsv   : BitVec 23
  deriving DecidableEq, Repr

end Sys2Proof
end

