-- ==== Sys2Proof/WellFormed.lean ====
section
/-! DEFINITION. Which command words are legal: the three checks of 30_encoding.md R135, each under a name of its own.
An `Instr` itself cannot be ill-formed (its one operand is a bit), so the checks stand on the fields of the word. -/

namespace Sys2Proof

/-- `OPC in {0x01, 0x10, 0x11, 0x12, 0x20, 0x21, 0x30}` (30_encoding.md R135, first line). -/
def CommandWord.opcLegal (f : CommandWord) : Bool :=
  [0x01#8, 0x10#8, 0x11#8, 0x12#8, 0x20#8, 0x21#8, 0x30#8].contains f.opc

/-- `RSV = 0` (30_encoding.md R135, second line). -/
def CommandWord.rsvLegal (f : CommandWord) : Bool := f.rsv == 0#23

/-- `CLAMP = 0 or OPC = 0x30` (30_encoding.md R135, third line). -/
def CommandWord.clampLegal (f : CommandWord) : Bool := !f.clamp || f.opc == 0x30#8

/-- A command word is legal iff all three checks hold (30_encoding.md R135). -/
def CommandWord.legal (f : CommandWord) : Bool := f.opcLegal && f.rsvLegal && f.clampLegal

end Sys2Proof
end

