-- ==== Sys2Proof/Decode.lean ====
section
/-! DEFINITION. The decoder: total on 32-bit words, one of the eight legal forms or none, which is ILLEGAL
(30_encoding.md R136). After it the encoder, written from the opcode map of R133. -/

namespace Sys2Proof

/-- The fields of a word: `OPC = w[7:0]`, `CLAMP = w[8]`, `RSV = w[31:9]` (30_encoding.md R130). -/
def fieldsOf (w : Word) : CommandWord where
  opc   := w.extractLsb' 0 8
  clamp := w.getLsbD 8
  rsv   := w.extractLsb' 9 23

/-- The opcode map of 30_encoding.md R133. -/
def instrOfOpcode (opc : BitVec 8) (clamp : Bool) : Option Instr :=
  match opc.toNat with
  | 0x01 => some .chachaXor
  | 0x10 => some .polyInit
  | 0x11 => some .polyUpdate
  | 0x12 => some .polyFinish
  | 0x20 => some .aeadSeal
  | 0x21 => some .aeadOpen
  | 0x30 => some (.x25519 clamp)
  | _    => none

/-- Decoding. A word that is not legal by R135 has no instruction: it is ILLEGAL (30_encoding.md R136). -/
def decode (w : Word) : Option Instr :=
  if (fieldsOf w).legal then instrOfOpcode (fieldsOf w).opc (fieldsOf w).clamp else none

/-- What the host asks: the instruction of a table row's word. A command word is one 32-bit write (30_encoding.md
R131), so the table's bit numbering is the word's own. -/
def decodeTableWord (nbits w : Nat) : Option Instr := decode (BitVec.ofNat 32 (w % 2 ^ nbits))

/-- The opcode of each command (30_encoding.md R133). -/
def Instr.opcode : Instr → BitVec 8
  | .chachaXor  => 0x01#8
  | .polyInit   => 0x10#8
  | .polyUpdate => 0x11#8
  | .polyFinish => 0x12#8
  | .aeadSeal   => 0x20#8
  | .aeadOpen   => 0x21#8
  | .x25519 _   => 0x30#8

/-- CLAMP is X25519's operand and 0 for every other command (30_encoding.md R130, R132). -/
def Instr.clampBit : Instr → Bool
  | .x25519 c   => c
  | .chachaXor  => false
  | .polyInit   => false
  | .polyUpdate => false
  | .polyFinish => false
  | .aeadSeal   => false
  | .aeadOpen   => false

/-- The fields of a command's word (30_encoding.md R130). -/
def Instr.fields (i : Instr) : CommandWord := { opc := i.opcode, clamp := i.clampBit, rsv := 0#23 }

/-- The word of three fields: RSV in bits 31:9, CLAMP in bit 8, OPC in bits 7:0 (30_encoding.md R130). -/
def CommandWord.toWord (f : CommandWord) : Word := f.rsv ++ BitVec.ofBool f.clamp ++ f.opc

/-- Encoding: the command word of an instruction. -/
def encode (i : Instr) : Word := i.fields.toWord

end Sys2Proof
end

