-- ==== Sys2Proof/Config.lean ====
section
/-! DEFINITION. What the platform fixes (the parameters of 00_scope.md R12, as plain data) and the free values the
spec leaves open (an uninterpreted constant: nothing can evaluate it). -/

namespace Sys2Proof

/-- The byte addresses start, ..., start+len-1: the spec's `[start, start+len)`, empty when len = 0 (00_scope.md R18). -/
structure Range where
  start : Nat
  len   : Nat
  deriving DecidableEq, Repr

/-- The implementation parameters of 00_scope.md R12, as plain data that no step changes (DESIGN CHOICE, log entry 2).
Every predicate on the finite address space and every total function on the finitely many (clamp, result) pairs is
some list, so no parameter value the spec allows is shut out. -/
structure Params where
  /-- `BASE`: bus address of the 256-byte register window (10_state.md R32). -/
  base : Nat
  /-- `ADDR_W`: width in bits of a system-memory byte address, 1 to 32. -/
  addrW : Nat
  /-- `BLOCK_ID`: the value of the ID register (10_state.md R33). -/
  blockId : Word
  /-- The platform maps the register window into system memory; an engine access there is then a BUS error (20_memory.md
  R90). It lies at the address equal to BASE (log entry 24). -/
  windowMapped : Bool
  /-- The bytes `a` with `memAdmits(a)` false (20_memory.md R98), the mapped window apart. They concern the engine's
  accesses only (log entry 23). -/
  rejecting : List Range
  /-- The bytes whose memory is not idempotent: the platform breaks 20_memory.md R103 there (log entries 11, 23 and 25). -/
  sideEffecting : List Range
  /-- The pairs (clamp, 32-byte result) for which `x25519Diag` is 1 (44_x25519.md R350, log entry 19). -/
  diagOn : List (Bool × List Byte)
  deriving DecidableEq, Repr

/-- The defaults of 00_scope.md R12 and 44_x25519.md R350. The two the spec leaves OPEN, `BASE` and `memAdmits`, and
the two platform facts of 20_memory.md R90 and R103 have a value of the model's own here (DESIGN CHOICE, log entry 2). -/
def Params.default : Params where
  base          := 0
  addrW         := 32
  blockId       := 0x84397748#32
  windowMapped  := false
  rejecting     := []
  sideEffecting := []
  diagOn        := [(true, List.replicate 32 0#8)]

/-- What a free byte stands for; each use is a draw of its own (log entry 5). -/
inductive FreeUse where
  /-- The engine's read of a raced or side-effecting byte of its operand number `k` (20_memory.md R113 (a), R103). -/
  | operand (k : Nat)
  /-- The final value of an output byte that is raced, that BUS or side effects leave open, or that is a tag byte of a
  context whose tags are any value (R98 (b), R113, R103). -/
  | output
  /-- An output byte of a command that a reset aborts (70_reset_and_hazards.md R453). -/
  | aborted
  /-- The accumulator that a POLY_UPDATE with a raced input leaves (20_memory.md R113). -/
  | accumulator
  /-- A host read of an output byte while the command is in flight (20_memory.md R112). -/
  | hostRead
  deriving DecidableEq, Repr

/-- The spec's "any value": the byte drawn at the `draw`-th drawing event, for one use, at one address. It has no
body, so no proof can know it, and a claim holds whatever it is (log entry 5). -/
opaque Config.freeByte : (draw : Nat) → (use : FreeUse) → (addr : Nat) → Byte

end Sys2Proof
end

