-- ==== Sys2Proof/Machine/State.lean ====
section
/-! DEFINITION. Everything the spec gives the machine, as plain data (10_state.md), the host's side of the interface
(which agent moves next, what the last access was answered), the two reasons a step can stop, and reset (R70). -/

namespace Sys2Proof.Machine

/-- The engine phase: the block's only sequencing state, visible as STATUS.BUSY (10_state.md R31, R55). -/
inductive Phase where
  | idle
  | busy
  deriving DecidableEq, Repr

/-- `pstate`, the MAC state machine, visible as STATUS.POLY_STATE (10_state.md R41, 42_poly1305.md R240). -/
inductive PolyState where
  | uninit
  | accum
  | final
  deriving DecidableEq, Repr

/-- STATUS.ERR: the seven values of 60_exceptions.md R400; the codes 0x07 to 0xFF never occur. -/
inductive ErrCode where
  | ok
  | illegal
  | state
  | length
  | range
  | overlap
  | bus
  deriving DecidableEq, Repr

/-- The eight argument registers by their aliases, ARG0 to ARG7 in order (10_state.md R32, R44). The same shape holds
the latched arguments `x[0]` to `x[7]` (R55). -/
structure Args where
  dst    : Word
  src    : Word
  len    : Word
  key    : Word
  nonce  : Word
  ctr    : Word
  aad    : Word
  aadLen : Word
  deriving DecidableEq, Repr

/-- Which argument register: ARG0 (`dst`) to ARG7 (`aadLen`). -/
inductive ArgName where
  | dst
  | src
  | len
  | key
  | nonce
  | ctr
  | aad
  | aadLen
  deriving DecidableEq, Repr

/-- A MAC context: the persistent one of 10_state.md R57, and AEAD_SEAL's own (R58), which has the same components. -/
structure MacContext where
  pstate : PolyState
  /-- The accumulator, an integer in [0, 2^130 - 5). -/
  acc : Nat
  /-- The clamped multiplier. -/
  r : BitVec 128
  /-- The additive pad. -/
  pad : BitVec 128
  /-- The leftover partial block, 0 to 15 bytes. -/
  buf : List Byte
  /-- The finalized flag: 1 once the last partial block has been processed. -/
  final : Bool
  /-- The accumulator is unspecified, so every tag of this context is any value: a POLY_UPDATE since the last POLY_INIT had
  a raced input (20_memory.md R113). The model's own field, no component of R57 (log entry 27). -/
  anyTag : Bool
  deriving DecidableEq, Repr

/-- The cipher state of 10_state.md R56: the sixteen words (constants, key, counter, nonce), the working copy the
rounds permute, and the current 64-byte keystream block. -/
structure CipherState where
  words     : Vector Word 16
  working   : Vector Word 16
  keystream : List Byte
  deriving DecidableEq, Repr

/-- The ladder state of 10_state.md R59: five field elements, the decoded coordinate `x1`, the scalar and the swap flag. -/
structure LadderState where
  x1      : Nat
  scalar  : Nat
  x2      : Nat
  z2      : Nat
  x3      : Nat
  z3      : Nat
  scratch : Nat
  swap    : Bool
  deriving DecidableEq, Repr

/-- The transient state of 10_state.md R56, R58 and R59: present only while a command is in flight, cleared when it
completes or is aborted (R61). -/
structure Transient where
  cipher  : Option CipherState
  aeadMac : Option MacContext
  ladder  : Option LadderState
  deriving DecidableEq, Repr

/-- One access of a host, one byte access of a host or any other agent to system memory, one byte that a command of
another instance has in flight, or a level change of the platform's reset input (00_scope.md R10, 10_state.md R30,
20_memory.md R112, R113, R119, 70_reset_and_hazards.md R450, log entry 21). -/
inductive HostAction where
  /-- A bus read of `bytes` bytes at bus address `addr` (10_state.md R47). -/
  | regRead (addr bytes : Nat)
  /-- A bus write; `value` is what a 32-bit write carries (10_state.md R47). -/
  | regWrite (addr bytes : Nat) (value : Word)
  /-- A read of one system-memory byte by an agent other than the engine. -/
  | memRead (addr : Nat)
  /-- A write of one system-memory byte by an agent other than the engine. -/
  | memWrite (addr : Nat) (value : Byte)
  /-- Another instance of the block has a command in flight with this byte among its output bytes (`output`), or else among
  its input bytes: a race in both instances where the byte is an output byte of one of the two commands (20_memory.md
  R119). What that instance then reads or writes is a `memRead` or a `memWrite`. -/
  | peerByte (addr : Nat) (output : Bool)
  /-- The platform asserts the hardware reset input. -/
  | resetAssert
  /-- The platform releases it. -/
  | resetRelease
  deriving DecidableEq, Repr

/-- Who moves in a step; fairness to the engine is no part of it (70_reset_and_hazards.md R471, log entry 3). -/
inductive Turn where
  /-- The engine takes its completion step, if a command is in flight (40_command.md R174). -/
  | engine
  /-- The platform memory has not answered: the command stays in flight (40_command.md R171, log entry 10). -/
  | memoryWait
  /-- A host access takes effect, alone in its step (10_state.md R30). -/
  | access (a : HostAction)
  /-- A host access and the completion in the same step: the access is ordered first (60_exceptions.md R405). -/
  | accessThenEngine (a : HostAction)
  deriving DecidableEq, Repr

/-- What the last access was answered: the host's side of the interface, the model's own field (log entry 13). -/
inductive Response where
  /-- Nothing answered: no access yet, an address outside the window, or reset is asserted (70_reset_and_hazards.md R450). -/
  | silent
  /-- A register read's value. -/
  | word (v : Word)
  /-- A memory read's value. -/
  | byte (v : Byte)
  /-- A write was accepted on the bus. -/
  | written
  /-- The bus-error response of 10_state.md R47. -/
  | busError
  deriving DecidableEq, Repr

/-- System memory (20_memory.md R90): (address, byte) pairs; the canonical form is `Memory.wf` of Memory.lean. -/
abbrev Memory := List Host.Cell

/-- Everything the spec gives the machine. `params` is the platform; `turns`, `response`, `raced` and `draw`, and
the context's `anyTag`, are the model's own (log entries 3, 5, 6, 13, 27); all the rest is the spec's. -/
structure State where
  /-- The parameters of 00_scope.md R12; no step changes them (log entry 2). -/
  params : Params
  /-- CTRL.IE (10_state.md R34). -/
  ie : Bool
  /-- The engine phase, STATUS.BUSY (10_state.md R37, R55). -/
  phase : Phase
  /-- STATUS.DONE, the interrupt's pending bit (10_state.md R38). -/
  done : Bool
  /-- STATUS.CMD_OVR (10_state.md R39). -/
  cmdOvr : Bool
  /-- STATUS.DIAG (10_state.md R40). -/
  diag : Bool
  /-- STATUS.ERR (10_state.md R42). -/
  err : ErrCode
  /-- `cmdword`, the last issued command word, read through CMD (10_state.md R43, R55). -/
  cmdword : Word
  /-- ARG0 to ARG7 (10_state.md R44). -/
  args : Args
  /-- The latched arguments `x[0..7]` (10_state.md R55). -/
  x : Args
  /-- RESULT (10_state.md R45). -/
  result : Word
  /-- The persistent MAC context (10_state.md R57); its `pstate` is STATUS.POLY_STATE (R41). -/
  mac : MacContext
  /-- Cipher state, AEAD MAC context and ladder state (10_state.md R56, R58, R59). -/
  transient : Transient
  /-- System memory (20_memory.md R90), in the canonical form of `Memory.wf`. -/
  mem : Memory
  /-- The level of the platform's reset input (70_reset_and_hazards.md R450, log entry 15). -/
  resetLine : Bool
  /-- Who moves in the next steps, first one first; nobody once it is empty (log entry 3). -/
  turns : List Turn
  /-- What the last host access was answered (log entry 13). -/
  response : Response
  /-- Raced bytes: input and output bytes of the command in flight that another agent wrote (20_memory.md R113, log entry
  6), or that a command of another instance has in flight too (R119, log entry 21). -/
  raced : List Nat
  /-- Counts drawing events, so that each draws fresh free bytes (log entry 5). -/
  draw : Nat
  deriving DecidableEq, Repr

/-- Why the machine stops. -/
inductive Fault where
  /-- Raised by `State.act` for an agent's access to a byte at or above `2^ADDR_W`, which does not exist (20_memory.md
  R90). Safe: the model stops where a platform would answer in some way the spec does not give (log entry 17). -/
  | outsideSystemMemory (addr : Nat)
  deriving DecidableEq, Repr

/-- Why a command has no meaning. -/
inductive Refusal where
  /-- Raised by an arm of `exec` whose command has no meaning yet; no arm raises it. Safe. -/
  | notModelled (mnemonic : String)
  deriving DecidableEq, Repr

/-- All eight argument registers 0 (10_state.md R70). -/
def Args.zero : Args := ⟨0#32, 0#32, 0#32, 0#32, 0#32, 0#32, 0#32, 0#32⟩

/-- The MAC context after reset: UNINIT, acc, r and pad 0, buf empty, final 0 (10_state.md R70); no race has touched it. -/
def MacContext.reset : MacContext := ⟨.uninit, 0, 0#128, 0#128, [], false, false⟩

/-- No command in flight: cipher state, AEAD MAC context and ladder state are absent (10_state.md R70). -/
def Transient.absent : Transient := ⟨none, none, none⟩

/-- The machine right after reset: the table of 10_state.md R70, the reset input released. System memory is not part
of the block: nothing is listed (log entry 1). The model's own fields start empty (log entry 3). -/
def State.reset : State where
  params    := Params.default
  ie        := false
  phase     := .idle
  done      := false
  cmdOvr    := false
  diag      := false
  err       := .ok
  cmdword   := 0#32
  args      := Args.zero
  x         := Args.zero
  result    := 0#32
  mac       := MacContext.reset
  transient := Transient.absent
  mem       := []
  resetLine := false
  turns     := []
  response  := .silent
  raced     := []
  draw      := 0

end Sys2Proof.Machine
end

