-- ==== Sys2Proof/Machine/Memory.lean ====
section
/-! DEFINITION. System memory as a list of (address, byte) pairs in one canonical form: addresses strictly rising, no
entry equal to what an unlisted address reads as. All accesses are made of single bytes, the only atomic unit
(20_memory.md R99); wider values are little-endian byte strings (R91). -/

namespace Sys2Proof.Machine

/-- What an unlisted address reads as: 0 (DESIGN CHOICE, log entry 1). -/
def Memory.unlisted : Byte := 0#8

/-- One byte (20_memory.md R99). -/
def Memory.read : Memory → Nat → Byte
  | [],          _ => Memory.unlisted
  | (b, w) :: m, a => if a = b then w else Memory.read m a

/-- `MemRead(addr, n)`: the bytes at addr, addr+1, ..., addr+n-1 (00_scope.md R17). -/
def Memory.bytes (m : Memory) (a n : Nat) : List Byte := (List.range n).map fun j => m.read (a + j)

/-- Write one byte, keeping the canonical form: writing what an unlisted address reads as removes the entry. -/
def Memory.write : Memory → Nat → Byte → Memory
  | [], a, v => if v = Memory.unlisted then [] else [(a, v)]
  | (b, w) :: m, a, v =>
    if a < b then
      if v = Memory.unlisted then (b, w) :: m else (a, v) :: (b, w) :: m
    else if a = b then
      if v = Memory.unlisted then m else (a, v) :: m
    else (b, w) :: Memory.write m a v

/-- `MemWrite(addr, |v|, v)`: byte i of the string to `addr + i` (00_scope.md R17). -/
def Memory.writeBytes : Memory → Nat → List Byte → Memory
  | m, _, []      => m
  | m, a, v :: vs => Memory.writeBytes (m.write a v) (a + 1) vs

/-- The canonical form. -/
abbrev Memory.wf (m : Memory) : Prop :=
  m.Pairwise (fun c d => c.1 < d.1) ∧ ∀ c ∈ m, c.2 ≠ Memory.unlisted

end Sys2Proof.Machine
end

