-- ==== Sys2Proof/Machine/Operands.lean ====
section
/-! DEFINITION. The operands of the commands: the range predicates of 20_memory.md R100 and R101, each command's input
and output ranges (30_encoding.md R134), the pre-execution checks 2 to 5 (40_command.md R163 to R166), and the engine's
reads and writes of its operands, with the bytes the spec leaves open drawn freely (R98, R103, R113). -/

namespace Sys2Proof.Machine

/-! ### Range predicates -/

/-- `a` lies in the range (00_scope.md R18). -/
def inside (r : Range) (a : Nat) : Bool := decide (r.start ≤ a) && decide (a < r.start + r.len)

/-- `Intersect` of 20_memory.md R100, over unbounded integers. -/
def intersect (r t : Range) : Bool :=
  decide (0 < r.len) && decide (0 < t.len) && decide (r.start < t.start + t.len) && decide (t.start < r.start + r.len)

/-- `Overlap` of 20_memory.md R100: ranges that start at the same address do not overlap. -/
def overlap (r t : Range) : Bool := intersect r t && decide (r.start ≠ t.start)

/-- `InRange` of 20_memory.md R101, without wrap-around. -/
def inRange (p : Params) (r : Range) : Bool := decide (r.len = 0) || decide (r.start + r.len ≤ 2 ^ p.addrW)

/-! ### The ranges of 30_encoding.md R134 -/

/-- `[x[i], x[i] + n)`: a pointer is the unsigned value of its 32 bits (20_memory.md R92). -/
def rangeAt (pointer : Word) (n : Nat) : Range := ⟨pointer.toNat, n⟩

/-- The "in" column of 30_encoding.md R134, which the range check and the races are about. -/
def inputRanges (i : Instr) (x : Args) : List Range :=
  match i with
  | .chachaXor  => [rangeAt x.src x.len.toNat, rangeAt x.key 32, rangeAt x.nonce 12]
  | .polyInit   => [rangeAt x.key 32]
  | .polyUpdate => [rangeAt x.src x.len.toNat]
  | .polyFinish => []
  | .aeadSeal   => [rangeAt x.src x.len.toNat, rangeAt x.key 32, rangeAt x.nonce 12, rangeAt x.aad x.aadLen.toNat]
  | .aeadOpen   => [rangeAt x.src x.len.toNat, rangeAt x.key 32, rangeAt x.nonce 12]
  | .x25519 _   => [rangeAt x.src 32, rangeAt x.key 32]

/-- The ranges a command reads: its input ranges, but for AEAD_OPEN's 16 tag bytes, which are never read
(43_aead.md R297). -/
def readRanges (i : Instr) (x : Args) : List Range :=
  match i with
  | .chachaXor  => [rangeAt x.src x.len.toNat, rangeAt x.key 32, rangeAt x.nonce 12]
  | .polyInit   => [rangeAt x.key 32]
  | .polyUpdate => [rangeAt x.src x.len.toNat]
  | .polyFinish => []
  | .aeadSeal   => [rangeAt x.src x.len.toNat, rangeAt x.key 32, rangeAt x.nonce 12, rangeAt x.aad x.aadLen.toNat]
  | .aeadOpen   => [rangeAt x.src (x.len.toNat - 16), rangeAt x.key 32, rangeAt x.nonce 12]
  | .x25519 _   => [rangeAt x.src 32, rangeAt x.key 32]

/-- The "out" column of 30_encoding.md R134; the empty range stands for "none". -/
def outputRange (i : Instr) (x : Args) : Range :=
  match i with
  | .chachaXor  => rangeAt x.dst x.len.toNat
  | .polyInit   => ⟨0, 0⟩
  | .polyUpdate => ⟨0, 0⟩
  | .polyFinish => rangeAt x.dst 16
  | .aeadSeal   => rangeAt x.dst (x.len.toNat + 16)
  | .aeadOpen   => rangeAt x.dst (x.len.toNat - 16)
  | .x25519 _   => rangeAt x.dst 32

/-- The buffers handed to a command: its output and input ranges, read or not (20_memory.md R103). -/
def handedRanges (i : Instr) (x : Args) : List Range := outputRange i x :: inputRanges i x

/-! ### The pre-execution checks after decoding -/

/-- Check 2, MAC sequence: only POLY_UPDATE and POLY_FINISH read pstate, and they need ACCUM (40_command.md R163). -/
def sequenceOk (i : Instr) (m : MacContext) : Bool :=
  match i with
  | .chachaXor  => true
  | .polyInit   => true
  | .polyUpdate => m.pstate == .accum
  | .polyFinish => m.pstate == .accum
  | .aeadSeal   => true
  | .aeadOpen   => true
  | .x25519 _   => true

/-- Check 3, lengths (40_command.md R164). -/
def lengthOk (i : Instr) (x : Args) : Bool :=
  match i with
  | .chachaXor  => decide (x.len.toNat ≤ 0xFFFFFFFE)
  | .polyInit   => true
  | .polyUpdate => true
  | .polyFinish => true
  | .aeadSeal   => decide (x.len.toNat ≤ 0xFFFFFFEE)
  | .aeadOpen   => decide (16 ≤ x.len.toNat)
  | .x25519 _   => true

/-- Check 4, ranges: every input and output range, AEAD_OPEN's tag included (40_command.md R165). -/
def rangesOk (i : Instr) (x : Args) (p : Params) : Bool :=
  (outputRange i x :: inputRanges i x).all (inRange p)

/-- Check 5, overlap (40_command.md R166): associated data has no same-start exemption (note b), fixed-size operands
are never checked (note c), AEAD_OPEN compares its whole input, tag included (note d). -/
def overlapOk (i : Instr) (x : Args) : Bool :=
  match i with
  | .chachaXor  => !overlap (rangeAt x.src x.len.toNat) (outputRange .chachaXor x)
  | .polyInit   => true
  | .polyUpdate => true
  | .polyFinish => true
  | .aeadSeal   => !overlap (rangeAt x.src x.len.toNat) (outputRange .aeadSeal x) &&
                   !intersect (rangeAt x.aad x.aadLen.toNat) (outputRange .aeadSeal x)
  | .aeadOpen   => !overlap (rangeAt x.src x.len.toNat) (outputRange .aeadOpen x)
  | .x25519 _   => true

/-- Checks 2 to 5 in the order of 40_command.md R167: the error of the first that fails, none if all pass. (Check 1,
legality, is decoding.) -/
def State.preCheck (i : Instr) (s : State) : Option ErrCode :=
  if !sequenceOk i s.mac then some .state
  else if !lengthOk i s.x then some .length
  else if !rangesOk i s.x s.params then some .range
  else if !overlapOk i s.x then some .overlap
  else none

/-! ### What the platform memory does -/

/-- The bytes with `memAdmits` false: the platform's list, and the register window where the platform maps it into
system memory (20_memory.md R90, R98): at the address equal to BASE (log entry 24). -/
def rejectedRanges (p : Params) : List Range :=
  if p.windowMapped then ⟨p.base, 256⟩ :: p.rejecting else p.rejecting

/-- `memAdmits(a)` (00_scope.md R12). -/
def memAdmits (p : Params) (a : Nat) : Bool := !(rejectedRanges p).any (inside · a)

/-- The byte's memory is idempotent, as 20_memory.md R103 asks of the platform. -/
def idempotent (p : Params) (a : Nat) : Bool := !p.sideEffecting.any (inside · a)

/-- The bytes a command accesses once its checks have passed: all it reads and all it writes (20_memory.md R93,
40_command.md R173). -/
def accessedRanges (i : Instr) (x : Args) : List Range := outputRange i x :: readRanges i x

/-- Some byte the command accesses is inadmissible, so it ends with BUS (20_memory.md R98, log entry 9). -/
def State.busHit (i : Instr) (s : State) : Bool :=
  (accessedRanges i s.x).any fun r => (rejectedRanges s.params).any (intersect r)

/-- Some byte of a buffer handed to the command is not idempotent, so its output ranges hold any value (20_memory.md R103),
be it a byte the command does not read: AEAD_OPEN's 16 tag bytes are part of its buffer (log entry 25). -/
def State.touchesSideEffects (i : Instr) (s : State) : Bool :=
  (handedRanges i s.x).any fun r => s.params.sideEffecting.any (intersect r)

/-! ### Operand reads and output writes -/

/-- The byte at `a` as the engine reads it in its operand number `k`: memory at issue (20_memory.md R96), or any value
where another agent raced it (R113 (a)) or the memory is not idempotent (R103). -/
def State.engineByte (s : State) (k a : Nat) : Byte :=
  if s.raced.contains a || !idempotent s.params a then Config.freeByte s.draw (.operand k) a else s.mem.read a

/-- Some byte of the range is raced (20_memory.md R113). -/
def State.racedIn (r : Range) (s : State) : Bool := s.raced.any (inside r)

/-- `MemRead` of operand number `k` (00_scope.md R17): byte i of the string is the byte at `start + i`. -/
def State.readOperand (s : State) (k : Nat) (r : Range) : List Byte :=
  (List.range r.len).map fun j => s.engineByte k (r.start + j)

/-- `n` free bytes for the addresses from `a` on. -/
def freeBytes (draw : Nat) (use : FreeUse) (a n : Nat) : List Byte :=
  (List.range n).map fun j => Config.freeByte draw use (a + j)

/-- The final value of the output byte at `a` where the command rule gives `v`: any value if the byte is raced
(20_memory.md R113 (b)) or the command touched side-effecting memory (`anyValue`, R103). -/
def State.settledByte (s : State) (anyValue : Bool) (a : Nat) (v : Byte) : Byte :=
  if anyValue || s.raced.contains a then Config.freeByte s.draw .output a else v

/-- `settledByte` along the output bytes from address `a` on. -/
def State.settledBytes (s : State) (anyValue : Bool) (a : Nat) (out : List Byte) : List Byte :=
  out.mapIdx fun j v => s.settledByte anyValue (a + j) v

/-- Write a command's output bytes to its output range (20_memory.md R93). -/
def State.writeOutput (s : State) (i : Instr) (out : List Byte) : Memory :=
  s.mem.writeBytes (outputRange i s.x).start
    (s.settledBytes (s.touchesSideEffects i) (outputRange i s.x).start out)

/-- Memory after a bus error: every byte of the command's output range is any value (20_memory.md R98 (b)). -/
def State.freeOutput (s : State) (i : Instr) : Memory :=
  s.mem.writeBytes (outputRange i s.x).start
    (freeBytes s.draw .output (outputRange i s.x).start (outputRange i s.x).len)

/-- Memory when a command ends without writing its output: each raced byte of its output range is any value (20_memory.md
R113 (b)), every other byte is as before. Only bytes that exist are raced (R90): the checks need not have passed (log
entry 6). -/
def State.racedOutput (s : State) (i : Instr) : Memory :=
  s.raced.foldl (fun m a =>
    if inside (outputRange i s.x) a && decide (a < 2 ^ s.params.addrW) then m.write a (Config.freeByte s.draw .output a)
    else m) s.mem

/-- How many bytes of a range exist in system memory (20_memory.md R90): the checks of a command that a reset aborts
need not have passed. -/
def existingLen (p : Params) (r : Range) : Nat := min r.len (2 ^ p.addrW - r.start)

/-- Memory after a reset that aborts the command: every byte of its output range is any value
(70_reset_and_hazards.md R453, log entry 7). -/
def State.abortedOutput (s : State) (i : Instr) : Memory :=
  s.mem.writeBytes (outputRange i s.x).start
    (freeBytes s.draw .aborted (outputRange i s.x).start (existingLen s.params (outputRange i s.x)))

/-- `a` is an input or output byte of the command (20_memory.md R113). -/
def touches (i : Instr) (x : Args) (a : Nat) : Bool := (handedRanges i x).any (inside · a)

end Sys2Proof.Machine
end

