-- ==== Sys2Proof/Machine/Flags.lean ====
section
/-! DEFINITION. The flags and register views: the STATUS and CTRL words (10_state.md R34, R36), the error codes
(60_exceptions.md R400), the sentinel and the success results (40_command.md R172, 30_encoding.md R134), the interrupt
output (10_state.md R50) and the X25519 diagnostic flag (44_x25519.md R350). -/

namespace Sys2Proof.Machine

/-- STATUS.ERR's numbers (60_exceptions.md R400). -/
def ErrCode.code : ErrCode → BitVec 8
  | .ok      => 0x00#8
  | .illegal => 0x01#8
  | .state   => 0x02#8
  | .length  => 0x03#8
  | .range   => 0x04#8
  | .overlap => 0x05#8
  | .bus     => 0x06#8

/-- STATUS.POLY_STATE's numbers: 0 = UNINIT, 1 = ACCUM, 2 = FINAL; 3 never occurs (10_state.md R41). -/
def PolyState.code : PolyState → BitVec 2
  | .uninit => 0#2
  | .accum  => 1#2
  | .final  => 2#2

/-- STATUS.BUSY (10_state.md R37). -/
def State.busy (s : State) : Bool := s.phase == .busy

/-- The STATUS word, most significant field first: 31:16 reserved, 15:8 ERR, 7:6 reserved, 5:4 POLY_STATE, 3 DIAG,
2 CMD_OVR, 1 DONE, 0 BUSY (10_state.md R36). -/
def State.statusWord (s : State) : Word :=
  0#16 ++ s.err.code ++ 0#2 ++ s.mac.pstate.code ++ BitVec.ofBool s.diag ++ BitVec.ofBool s.cmdOvr ++
    BitVec.ofBool s.done ++ BitVec.ofBool s.busy

/-- The CTRL word: 31:2 reserved, SRST reads 0, IE (10_state.md R34). -/
def State.ctrlWord (s : State) : Word := 0#31 ++ BitVec.ofBool s.ie

/-- The interrupt output, level-sensitive: `IRQ = STATUS.DONE & CTRL.IE` (10_state.md R50). -/
def State.irq (s : State) : Bool := s.done && s.ie

/-- A write to STATUS: bit 1 clears DONE, bit 2 clears CMD_OVR, nothing else changes (10_state.md R36). -/
def State.writeStatus (v : Word) (s : State) : State :=
  { s with done := s.done && !v.getLsbD 1, cmdOvr := s.cmdOvr && !v.getLsbD 2 }

/-- The sentinel of 40_command.md R172. -/
def sentinel : Word := 0xFFFFFFFF#32

/-- The RESULT column of 30_encoding.md R134. -/
def successResult (i : Instr) (x : Args) : Word :=
  match i with
  | .chachaXor  => x.len
  | .polyInit   => 0#32
  | .polyUpdate => 0#32
  | .polyFinish => 16#32
  | .aeadSeal   => x.len + 16#32
  | .aeadOpen   => x.len - 16#32
  | .x25519 _   => 32#32

/-- `x25519Diag(clamp, result)`, the parameter of 00_scope.md R12: 1 for the pairs the platform lists. -/
def x25519Diag (p : Params) (clamp : Bool) (result : List Byte) : Bool := p.diagOn.contains (clamp, result)

end Sys2Proof.Machine
end

