-- ==== Sys2Proof/Machine/Ops.lean ====
section
/-! DEFINITION. The shared operations: issue (40_command.md R161), completion, which is the block's only counterpart
of taking an exception (R170, 60_exceptions.md R406), the BUS error (20_memory.md R98), running a command (R167), reset
(70_reset_and_hazards.md R450 to R453) and the register window (10_state.md R32). -/

namespace Sys2Proof.Machine

/-! ### Issue and completion -/

/-- Issue of word `w`, the block being idle: latch the arguments, go BUSY, clear DONE, ERR, DIAG and RESULT, all in one
step (40_command.md R161). -/
def State.issue (w : Word) (s : State) : State :=
  { s with cmdword := w, x := s.args, phase := .busy, done := false, err := .ok, diag := false, result := 0#32 }

/-- `Complete(code)` of 40_command.md R170, one step: idle, the code in ERR, RESULT and DIAG by the code, the MAC
context as the command's rule says, the transient state cleared (10_state.md R61), DONE set. `success` and `flag` are
SuccessResult and x25519Diag. The next drawing event draws afresh. -/
def State.complete (code : ErrCode) (success : Word) (flag : Bool) (mac : MacContext) (s : State) : State :=
  { s with
    phase     := .idle
    err       := code
    result    := if code = .ok then success else sentinel
    diag      := decide (code = .ok) && flag
    mac       := mac
    transient := Transient.absent
    done      := true
    raced     := []
    draw      := s.draw + 1 }

/-- `raise code` before execution: completion with the error and nothing else changed (40_command.md R168). -/
def State.raise (code : ErrCode) (s : State) : State := s.complete code sentinel false s.mac

/-- A command fails a check: the engine accesses no memory (40_command.md R168); an output byte that another agent raced
is any value (20_memory.md R113 (b)). -/
def State.reject (i : Instr) (code : ErrCode) (s : State) : State := State.raise code { s with mem := s.racedOutput i }

/-- The context's values are discarded (42_poly1305.md R258): pstate UNINIT and the values of R70, but for `final`,
which only POLY_INIT and reset clear (R259); none can be observed (log entry 8). -/
def MacContext.discard (m : MacContext) : MacContext := { MacContext.reset with final := m.final }

/-- The MAC context after a BUS error: discarded by the MAC commands, unchanged by all others (42_poly1305.md R258,
43_aead.md R293). -/
def macAfterBus (i : Instr) (m : MacContext) : MacContext :=
  match i with
  | .chachaXor  => m
  | .polyInit   => m.discard
  | .polyUpdate => m.discard
  | .polyFinish => m.discard
  | .aeadSeal   => m
  | .aeadOpen   => m
  | .x25519 _   => m

/-- `raise BUS`: the output range holds any value, bytes outside it are unchanged (20_memory.md R98). -/
def State.busError (i : Instr) (s : State) : State :=
  State.complete .bus sentinel false (macAfterBus i s.mac) { s with mem := s.freeOutput i }

/-! ### Running a command -/

/-- What a command's body computes: the bytes of its output range, the persistent MAC context, the transient state it
worked in, and its DIAG flag. -/
structure Effect where
  out       : List Byte
  mac       : MacContext
  transient : Transient
  diag      : Bool
  deriving DecidableEq, Repr

/-- The end of a body that met no bus error: write the output, then `Complete(OK)` (40_command.md R167). -/
def State.finish (i : Instr) (e : Effect) (s : State) : State :=
  State.complete .ok (successResult i s.x) e.diag e.mac
    { s with mem := s.writeOutput i e.out, transient := e.transient }

/-- `Execute` of 40_command.md R167 after decoding, as one engine step (R174): the checks, the body, the completion. -/
def State.runCommand (i : Instr) (body : State → Effect) (s : State) : State :=
  match s.preCheck i with
  | some e => s.reject i e
  | none   => if s.busHit i then s.busError i else s.finish i (body s)

/-! ### Reset -/

/-- System memory after a reset: the command in flight is aborted, and every byte of its output range is any value
(70_reset_and_hazards.md R453, log entry 7); an illegal word has no ranges; with no command in flight memory is
unchanged. -/
def State.memoryAfterReset (s : State) : Memory :=
  match s.phase, decode s.cmdword with
  | .idle, _      => s.mem
  | .busy, none   => s.mem
  | .busy, some i => s.abortedOutput i

/-- Reset, hardware or soft: every register, field and internal state takes its value of 10_state.md R70
(70_reset_and_hazards.md R450, R452, R453). The platform, the reset input's level and the host's side stay. -/
def State.resetBlock (s : State) : State :=
  { State.reset with
    params    := s.params
    mem       := s.memoryAfterReset
    resetLine := s.resetLine
    turns     := s.turns
    response  := s.response
    draw      := s.draw + 1 }

/-! ### The register window -/

/-- The registers of the window (10_state.md R32). -/
inductive Reg where
  | id
  | ctrl
  | status
  | cmd
  | arg (n : ArgName)
  | result
  | reserved
  deriving DecidableEq, Repr

/-- The register at an offset; offsets not listed are reserved (10_state.md R32, R46). -/
def regAt (offset : Nat) : Reg :=
  match offset with
  | 0x00 => .id
  | 0x04 => .ctrl
  | 0x08 => .status
  | 0x0C => .cmd
  | 0x10 => .arg .dst
  | 0x14 => .arg .src
  | 0x18 => .arg .len
  | 0x1C => .arg .key
  | 0x20 => .arg .nonce
  | 0x24 => .arg .ctr
  | 0x28 => .arg .aad
  | 0x2C => .arg .aadLen
  | 0x30 => .result
  | _    => .reserved

/-- Read an argument register. -/
def Args.get (x : Args) : ArgName → Word
  | .dst    => x.dst
  | .src    => x.src
  | .len    => x.len
  | .key    => x.key
  | .nonce  => x.nonce
  | .ctr    => x.ctr
  | .aad    => x.aad
  | .aadLen => x.aadLen

/-- Write an argument register: all 32 bits, the others unchanged (10_state.md R44). -/
def Args.set (x : Args) (n : ArgName) (v : Word) : Args :=
  match n with
  | .dst    => { x with dst := v }
  | .src    => { x with src := v }
  | .len    => { x with len := v }
  | .key    => { x with key := v }
  | .nonce  => { x with nonce := v }
  | .ctr    => { x with ctr := v }
  | .aad    => { x with aad := v }
  | .aadLen => { x with aadLen := v }

/-- The value a register read returns; a read has no side effect (10_state.md R33 to R48). -/
def State.readReg (s : State) : Reg → Word
  | .id       => s.params.blockId
  | .ctrl     => s.ctrlWord
  | .status   => s.statusWord
  | .cmd      => s.cmdword
  | .arg n    => s.args.get n
  | .result   => s.result
  | .reserved => 0#32

/-- A write to CMD: issue when idle; while BUSY it is dropped and sets CMD_OVR (40_command.md R161, 10_state.md R39). -/
def State.writeCmd (w : Word) (s : State) : State :=
  match s.phase with
  | .idle => s.issue w
  | .busy => { s with cmdOvr := true }

/-- A write to CTRL: SRST = 1 is a soft reset and discards the other bits, else IE is updated (10_state.md R34,
70_reset_and_hazards.md R452). -/
def State.writeCtrl (v : Word) (s : State) : State :=
  if v.getLsbD 1 then s.resetBlock else { s with ie := v.getLsbD 0 }

/-- A 32-bit register write; writes to ID, RESULT and reserved offsets are ignored (10_state.md R33, R45, R46, R49). -/
def State.writeReg (r : Reg) (v : Word) (s : State) : State :=
  match r with
  | .id       => s
  | .ctrl     => s.writeCtrl v
  | .status   => s.writeStatus v
  | .cmd      => s.writeCmd v
  | .arg n    => { s with args := s.args.set n v }
  | .result   => s
  | .reserved => s

end Sys2Proof.Machine
end

