-- ==== Sys2Proof/Machine/ChaCha20.lean ====
section
/-! DEFINITION. The Stream Cipher Core and CHACHA_XOR (41_chacha20.md). -/

namespace Sys2Proof.Machine

/-- The four constant words, "expand 32-byte k" (41_chacha20.md R200). -/
def chachaConstant : Fin 4 → Word
  | 0 => 0x61707865#32
  | 1 => 0x3320646e#32
  | 2 => 0x79622d32#32
  | 3 => 0x6b206574#32

/-- The initial state `S(K, c, N)`: constants, key words, counter, nonce words (41_chacha20.md R201). -/
def chachaInit (key : List Byte) (counter : Word) (nonce : List Byte) : Vector Word 16 :=
  #v[chachaConstant 0, chachaConstant 1, chachaConstant 2, chachaConstant 3,
     le32word key 0,  le32word key 4,  le32word key 8,  le32word key 12,
     le32word key 16, le32word key 20, le32word key 24, le32word key 28,
     counter, le32word nonce 0, le32word nonce 4, le32word nonce 8]

/-- `QR(a, b, c, d)` on four word indices (41_chacha20.md R202). -/
def quarterRound (a b c d : Fin 16) (W : Vector Word 16) : Vector Word 16 :=
  let W := W.set a (W[a] + W[b])
  let W := W.set d ((W[d] ^^^ W[a]).rotateLeft 16)
  let W := W.set c (W[c] + W[d])
  let W := W.set b ((W[b] ^^^ W[c]).rotateLeft 12)
  let W := W.set a (W[a] + W[b])
  let W := W.set d ((W[d] ^^^ W[a]).rotateLeft 8)
  let W := W.set c (W[c] + W[d])
  W.set b ((W[b] ^^^ W[c]).rotateLeft 7)

/-- One iteration: the four column rounds, then the four diagonal rounds (41_chacha20.md R203). -/
def doubleRound (W : Vector Word 16) : Vector Word 16 :=
  let W := quarterRound 0 4  8 12 W
  let W := quarterRound 1 5  9 13 W
  let W := quarterRound 2 6 10 14 W
  let W := quarterRound 3 7 11 15 W
  let W := quarterRound 0 5 10 15 W
  let W := quarterRound 1 6 11 12 W
  let W := quarterRound 2 7  8 13 W
  quarterRound 3 4 9 14 W

/-- `n` iterations of `doubleRound`. -/
def doubleRounds : Nat → Vector Word 16 → Vector Word 16
  | 0,     W => W
  | n + 1, W => doubleRounds n (doubleRound W)

/-- The cipher state while one block is made: the initial words, the working copy after 10 iterations, and the block:
the word-wise sum of the two, each word little-endian (41_chacha20.md R204, 10_state.md R56). -/
def runCipher (key : List Byte) (counter : Word) (nonce : List Byte) : CipherState :=
  let S := chachaInit key counter nonce
  let W := doubleRounds 10 S
  { words := S, working := W, keystream := (Vector.zipWith (· + ·) W S).toList.flatMap fun w => leBytes 4 w.toNat }

/-- `Block(K, c, N)`, 64 bytes (41_chacha20.md R204). -/
def chachaBlock (key : List Byte) (counter : Word) (nonce : List Byte) : List Byte :=
  (runCipher key counter nonce).keystream

/-- The first `n` keystream blocks from a counter on; the counter wraps modulo 2^32 (41_chacha20.md R205, R206). -/
def keystreamBlocks (key nonce : List Byte) : (n : Nat) → (counter : Word) → List Byte
  | 0,     _       => []
  | n + 1, counter => chachaBlock key counter nonce ++ keystreamBlocks key nonce n (counter + 1#32)

/-- `KS(K, N, c, n)`: the first `n` bytes of the blocks (41_chacha20.md R205). -/
def keystream (key nonce : List Byte) (counter : Word) (n : Nat) : List Byte :=
  (keystreamBlocks key nonce ((n + 63) / 64) counter).take n

/-- The cipher state after the last block of an `n`-byte keystream: what the engine holds until completion clears it
(10_state.md R56, log entry 18). -/
def lastCipher (key nonce : List Byte) (counter : Word) (n : Nat) : CipherState :=
  runCipher key (counter + BitVec.ofNat 32 ((n - 1) / 64)) nonce

/-- CHACHA_XOR's body: `out = in ^ KS(K, N, x[5], n)` (41_chacha20.md R210). Operand 0 is the key, 1 the nonce, 2 the
input. -/
def chachaXorBody (s : State) : Effect :=
  let key   := s.readOperand 0 (rangeAt s.x.key 32)
  let nonce := s.readOperand 1 (rangeAt s.x.nonce 12)
  let n     := s.x.len.toNat
  let input := s.readOperand 2 (rangeAt s.x.src n)
  { out       := xorBytes input (keystream key nonce s.x.ctr n)
    mac       := s.mac
    transient := { Transient.absent with cipher := some (lastCipher key nonce s.x.ctr n) }
    diag      := false }

/-- CHACHA_XOR (41_chacha20.md R210). -/
def execChachaXor (s : State) : Host.Outcome State Fault Refusal := .next (s.runCommand .chachaXor chachaXorBody)

end Sys2Proof.Machine
end

