-- ==== Sys2Proof/Machine/Poly1305.lean ====
section
/-! DEFINITION. The Polynomial MAC: POLY_INIT, POLY_UPDATE and POLY_FINISH (42_poly1305.md). Values are integers; the
limb representation of R262 is not architectural (00_scope.md R20). -/

namespace Sys2Proof.Machine

/-- `p130 = 2^130 - 5` (00_scope.md R19). -/
def p130 : Nat := 2 ^ 130 - 5

/-- The clamp mask of 42_poly1305.md R241. -/
def clampMask : BitVec 128 := 0x0ffffffc0ffffffc0ffffffc0fffffff#128

/-- `r`: the first key half, clamped (42_poly1305.md R241). -/
def keyR (key : List Byte) : BitVec 128 := BitVec.ofNat 128 (leNat (key.take 16)) &&& clampMask

/-- `pad`: the second key half (42_poly1305.md R241). -/
def keyPad (key : List Byte) : BitVec 128 := BitVec.ofNat 128 (leNat ((key.drop 16).take 16))

/-- `n(b)` of a full 16-byte block (42_poly1305.md R242). -/
def fullBlockValue (b : List Byte) : Nat := leNat b + 2 ^ 128

/-- `n(b)` of a final partial block of 1 to 15 bytes: 0x01, then zeros, and no 2^128 (42_poly1305.md R242). -/
def partialBlockValue (b : List Byte) : Nat := leNat (b ++ 0x01#8 :: List.replicate (15 - b.length) 0#8)

/-- Absorbing a block of value `n`: `acc <- ((acc + n) * r) mod p130` (42_poly1305.md R243). -/
def absorb (r : BitVec 128) (acc n : Nat) : Nat := ((acc + n) * r.toNat) % p130

/-- The first `q` 16-byte blocks of `m`. -/
def blocks16 : (q : Nat) → (m : List Byte) → List (List Byte)
  | 0,     _ => []
  | q + 1, m => m.take 16 :: blocks16 q (m.drop 16)

/-- Absorb the first `q` full blocks of `m` (42_poly1305.md R250). -/
def absorbBlocks (r : BitVec 128) (q : Nat) (m : List Byte) (acc : Nat) : Nat :=
  (blocks16 q m).foldl (fun a b => absorb r a (fullBlockValue b)) acc

/-- `Tag(acc, pad) = le_16((acc + pad) mod 2^128)` (42_poly1305.md R244). -/
def tagOf (acc : Nat) (pad : BitVec 128) : List Byte := leBytes 16 ((acc + pad.toNat) % 2 ^ 128)

/-- The one-shot function `Poly1305(k, m)` of 42_poly1305.md R261: the 16-byte chunks in order, the last possibly
shorter. -/
def poly1305 (key m : List Byte) : List Byte :=
  let q    := m.length / 16
  let acc  := absorbBlocks (keyR key) q m 0
  let tail := m.drop (16 * q)
  tagOf (if tail.isEmpty then acc else absorb (keyR key) acc (partialBlockValue tail)) (keyPad key)

/-- The context POLY_INIT leaves: r and pad from the key, nothing absorbed, ACCUM (42_poly1305.md R245). -/
def MacContext.init (key : List Byte) : MacContext :=
  { pstate := .accum, acc := 0, r := keyR key, pad := keyPad key, buf := [], final := false, anyTag := false }

/-- The context POLY_UPDATE leaves: the buffered bytes and the data cut into full blocks, the tail buffered
(42_poly1305.md R250). -/
def MacContext.update (data : List Byte) (c : MacContext) : MacContext :=
  let m := c.buf ++ data
  let q := m.length / 16
  { c with pstate := .accum, acc := absorbBlocks c.r q m c.acc, buf := m.drop (16 * q) }

/-- The context POLY_FINISH leaves: a buffered partial block absorbed without 2^128 and `final` set, buf empty, FINAL
(42_poly1305.md R255, R259). -/
def MacContext.finish (c : MacContext) : MacContext :=
  { c with
    pstate := .final
    acc    := if c.buf.isEmpty then c.acc else absorb c.r c.acc (partialBlockValue c.buf)
    buf    := []
    final  := c.final || !c.buf.isEmpty }

/-- The tag of a finished context (42_poly1305.md R244, R255). -/
def MacContext.tag (c : MacContext) : List Byte := tagOf c.acc c.pad

/-- POLY_INIT's body (42_poly1305.md R245). Operand 0 is the key. -/
def polyInitBody (s : State) : Effect where
  out       := []
  mac       := MacContext.init (s.readOperand 0 (rangeAt s.x.key 32))
  transient := Transient.absent
  diag      := false

/-- An unspecified accumulator: any integer in [0, 2^130 - 5), since 17 drawn bytes reach each of them (20_memory.md
R113, log entry 27). -/
def State.freeAcc (s : State) : Nat := leNat (freeBytes s.draw .accumulator 0 17) % p130

/-- POLY_UPDATE's body (42_poly1305.md R250). Operand 0 is the data. A raced input byte leaves the accumulator unspecified
and every later tag any value until the next POLY_INIT (20_memory.md R113). -/
def polyUpdateBody (s : State) : Effect where
  out       := []
  mac       :=
    let c := s.mac.update (s.readOperand 0 (rangeAt s.x.src s.x.len.toNat))
    if s.racedIn (rangeAt s.x.src s.x.len.toNat) then { c with acc := s.freeAcc, anyTag := true } else c
  transient := Transient.absent
  diag      := false

/-- The bytes POLY_FINISH writes: the tag (42_poly1305.md R255), or any value if the accumulator is unspecified
(20_memory.md R113). -/
def State.finishTag (s : State) : List Byte :=
  if s.mac.anyTag then freeBytes s.draw .output (outputRange .polyFinish s.x).start 16 else s.mac.finish.tag

/-- POLY_FINISH's body: the tag goes to the output range (42_poly1305.md R255). -/
def polyFinishBody (s : State) : Effect where
  out       := s.finishTag
  mac       := s.mac.finish
  transient := Transient.absent
  diag      := false

/-- POLY_INIT (42_poly1305.md R245). -/
def execPolyInit (s : State) : Host.Outcome State Fault Refusal := .next (s.runCommand .polyInit polyInitBody)

/-- POLY_UPDATE (42_poly1305.md R250). -/
def execPolyUpdate (s : State) : Host.Outcome State Fault Refusal := .next (s.runCommand .polyUpdate polyUpdateBody)

/-- POLY_FINISH (42_poly1305.md R255). -/
def execPolyFinish (s : State) : Host.Outcome State Fault Refusal := .next (s.runCommand .polyFinish polyFinishBody)

end Sys2Proof.Machine
end

