-- ==== Sys2Proof/Machine/Aead.lean ====
section
/-! DEFINITION. The Authenticated-Encryption Composer: AEAD_SEAL and AEAD_OPEN (43_aead.md). -/

namespace Sys2Proof.Machine

/-- The block's read-only all-zero buffer, which no command can change. 10_state.md R60 says at least 16 bytes; exactly 16
is the model's choice (DESIGN CHOICE, log entry 26): padding takes at most 15. -/
def zeroBuffer : List Byte := List.replicate 16 0#8

/-- `OTK(K, N)`: the first 32 bytes of the keystream block with counter 0 (43_aead.md R290). -/
def oneTimeKey (key nonce : List Byte) : List Byte := (chachaBlock key 0#32 nonce).take 32

/-- `pad16(n)` (43_aead.md R291). -/
def pad16 (n : Nat) : Nat := (16 - n % 16) % 16

/-- A string and its zero padding up to a 16-byte boundary, from the zero buffer (43_aead.md R291). -/
def padded (b : List Byte) : List Byte := b ++ zeroBuffer.take (pad16 b.length)

/-- `MacData(A, C)` (43_aead.md R291). -/
def macData (aad ciphertext : List Byte) : List Byte :=
  padded aad ++ padded ciphertext ++ leBytes 8 aad.length ++ leBytes 8 ciphertext.length

/-- The payload cipher, from block counter 1; encryption and decryption are the same (43_aead.md R292). -/
def payloadXor (key nonce payload : List Byte) : List Byte :=
  xorBytes payload (keystream key nonce 1#32 payload.length)

/-- `ciphertext || tag` (43_aead.md R294, R295). -/
def sealBytes (key nonce aad plaintext : List Byte) : List Byte :=
  let ciphertext := payloadXor key nonce plaintext
  ciphertext ++ poly1305 (oneTimeKey key nonce) (macData aad ciphertext)

/-- AEAD_SEAL's body (43_aead.md R294): the tag is made in a MAC context of its own (10_state.md R58), the persistent
one is untouched (R293). Operand 0 is the key, 1 the nonce, 2 the plaintext, 3 the associated data. -/
def aeadSealBody (s : State) : Effect :=
  let key       := s.readOperand 0 (rangeAt s.x.key 32)
  let nonce     := s.readOperand 1 (rangeAt s.x.nonce 12)
  let plaintext := s.readOperand 2 (rangeAt s.x.src s.x.len.toNat)
  let aad       := s.readOperand 3 (rangeAt s.x.aad s.x.aadLen.toNat)
  { out       := sealBytes key nonce aad plaintext
    mac       := s.mac
    transient :=
      { Transient.absent with
        cipher  := some (lastCipher key nonce 1#32 s.x.len.toNat)
        aeadMac := some ((MacContext.init (oneTimeKey key nonce)).update
                     (macData aad (payloadXor key nonce plaintext))).finish }
    diag      := false }

/-- AEAD_OPEN's body (43_aead.md R297): decrypt without verification; the 16 tag bytes are not read (R296). Operand 0
is the key, 1 the nonce, 2 the ciphertext. -/
def aeadOpenBody (s : State) : Effect :=
  let key        := s.readOperand 0 (rangeAt s.x.key 32)
  let nonce      := s.readOperand 1 (rangeAt s.x.nonce 12)
  let ciphertext := s.readOperand 2 (rangeAt s.x.src (s.x.len.toNat - 16))
  { out       := payloadXor key nonce ciphertext
    mac       := s.mac
    transient := { Transient.absent with cipher := some (lastCipher key nonce 1#32 (s.x.len.toNat - 16)) }
    diag      := false }

/-- AEAD_SEAL (43_aead.md R294). -/
def execAeadSeal (s : State) : Host.Outcome State Fault Refusal := .next (s.runCommand .aeadSeal aeadSealBody)

/-- AEAD_OPEN (43_aead.md R297). -/
def execAeadOpen (s : State) : Host.Outcome State Fault Refusal := .next (s.runCommand .aeadOpen aeadOpenBody)

end Sys2Proof.Machine
end

