-- ==== Sys2Proof/Machine/X25519.lean ====
section
/-! DEFINITION. Curve Scalar Multiplication: X25519 (44_x25519.md). Field elements are integers modulo p255; the limb
representation of R343 is not architectural (00_scope.md R20). -/

namespace Sys2Proof.Machine

/-- `p255 = 2^255 - 19` (00_scope.md R19). -/
def p255 : Nat := 2 ^ 255 - 19

/-- Field addition (44_x25519.md R340). -/
def fAdd (a b : Nat) : Nat := (a + b) % p255

/-- Field subtraction (44_x25519.md R340). -/
def fSub (a b : Nat) : Nat := (a + (p255 - b % p255)) % p255

/-- Field multiplication (44_x25519.md R340). -/
def fMul (a b : Nat) : Nat := (a * b) % p255

/-- `b^e mod m` by squaring, for exponents below `2^k`: any chain for the exponent conforms (44_x25519.md R341). -/
def powMod (m : Nat) : (k : Nat) → (b e : Nat) → Nat
  | 0,     _, _ => 1 % m
  | k + 1, b, e =>
    let half := powMod m k (b * b % m) (e / 2)
    if e % 2 = 1 then half * b % m else half

/-- `inv(z) = z^(p255 - 2) mod p255`, so `inv(0) = 0` (44_x25519.md R341). -/
def fInv (z : Nat) : Nat := powMod p255 255 z (p255 - 2)

/-- The curve constant (44_x25519.md R342). -/
def a24 : Nat := 121665

/-- Scalar clamping (44_x25519.md R344). -/
def clampScalar (k : List Byte) : List Byte :=
  (k.modify 0 (· &&& 0xF8#8)).modify 31 fun b => (b &&& 0x7F#8) ||| 0x40#8

/-- `cswap(s, a, b)` (44_x25519.md R346). -/
def cswap (s : Bool) (a b : Nat) : Nat × Nat := if s then (b, a) else (a, b)

/-- The swap of both coordinates of the two working points. -/
def LadderState.swapped (s : Bool) (L : LadderState) : LadderState :=
  { L with
    x2 := (cswap s L.x2 L.x3).1
    x3 := (cswap s L.x2 L.x3).2
    z2 := (cswap s L.z2 L.z3).1
    z3 := (cswap s L.z2 L.z3).2 }

/-- The differential addition and doubling of one iteration (44_x25519.md R346, from `A` to `z2`); `scratch` keeps `E`
(log entry 18). -/
def LadderState.addDouble (L : LadderState) : LadderState :=
  let A  := fAdd L.x2 L.z2
  let AA := fMul A A
  let B  := fSub L.x2 L.z2
  let BB := fMul B B
  let E  := fSub AA BB
  let C  := fAdd L.x3 L.z3
  let D  := fSub L.x3 L.z3
  let DA := fMul D A
  let CB := fMul C B
  { L with
    x3 := fMul (fAdd DA CB) (fAdd DA CB)
    z3 := fMul L.x1 (fMul (fSub DA CB) (fSub DA CB))
    x2 := fMul AA BB
    z2 := fMul E (fAdd AA (fMul a24 E))
    scratch := E }

/-- One iteration for scalar bit `t`: swap on the exclusive-or of consecutive bits, then add and double (44_x25519.md
R346). -/
def LadderState.iterate (t : Nat) (L : LadderState) : LadderState :=
  let kt := L.scalar.testBit t
  { (L.swapped (L.swap ^^ kt)).addDouble with swap := kt }

/-- The iterations for bits `n - 1` down to 0 (44_x25519.md R346). -/
def ladderLoop : (n : Nat) → LadderState → LadderState
  | 0,     L => L
  | t + 1, L => ladderLoop t (L.iterate t)

/-- The ladder of 44_x25519.md R346: 255 iterations from bit 254 down, then the final swap. -/
def runLadder (scalar x1 : Nat) : LadderState :=
  let L := ladderLoop 255
    { x1 := x1, scalar := scalar, x2 := 1, z2 := 0, x3 := x1, z3 := 1, scratch := 0, swap := false }
  L.swapped L.swap

/-- The scalar a command uses: clamped if CLAMP = 1, else as it is (44_x25519.md R344). -/
def scalarOf (clamp : Bool) (k : List Byte) : Nat := leNat (if clamp then clampScalar k else k)

/-- The decoded input coordinate: bit 255 ignored, non-canonical values accepted (44_x25519.md R345). -/
def pointOf (u : List Byte) : Nat := leNat u % 2 ^ 255

/-- The result of a ladder: `x2 * inv(z2) mod p255`, canonical, 32 bytes (44_x25519.md R347). -/
def LadderState.encoded (L : LadderState) : List Byte := leBytes 32 (fMul L.x2 (fInv L.z2))

/-- `X25519(k, u)` as a function of the two byte strings (44_x25519.md R344 to R347). -/
def x25519Bytes (clamp : Bool) (k u : List Byte) : List Byte := (runLadder (scalarOf clamp k) (pointOf u)).encoded

/-- X25519's body (44_x25519.md R348). Operand 0 is the scalar, 1 the point. -/
def x25519Body (clamp : Bool) (s : State) : Effect :=
  let k := s.readOperand 0 (rangeAt s.x.key 32)
  let u := s.readOperand 1 (rangeAt s.x.src 32)
  { out       := x25519Bytes clamp k u
    mac       := s.mac
    transient := { Transient.absent with ladder := some (runLadder (scalarOf clamp k) (pointOf u)) }
    diag      := x25519Diag s.params clamp (x25519Bytes clamp k u) }

/-- X25519 (44_x25519.md R348). -/
def execX25519 (clamp : Bool) (s : State) : Host.Outcome State Fault Refusal :=
  .next (s.runCommand (.x25519 clamp) (x25519Body clamp))

end Sys2Proof.Machine
end

