-- ==== Sys2Proof/Machine/Dispatch.lean ====
section
/-! DEFINITION. One arm per command: the case of 40_command.md R167. -/

namespace Sys2Proof.Machine

def exec (i : Instr) (s : State) : Host.Outcome State Fault Refusal :=
  match i with
  | .chachaXor => Sys2Proof.Machine.execChachaXor s
  | .polyInit => Sys2Proof.Machine.execPolyInit s
  | .polyUpdate => Sys2Proof.Machine.execPolyUpdate s
  | .polyFinish => Sys2Proof.Machine.execPolyFinish s
  | .aeadSeal => Sys2Proof.Machine.execAeadSeal s
  | .aeadOpen => Sys2Proof.Machine.execAeadOpen s
  | .x25519 clamp => Sys2Proof.Machine.execX25519 clamp s

end Sys2Proof.Machine
end

