-- ==== Sys2Proof/Machine/HostAccess.lean ====
section
/-! DEFINITION. The host's side: what one access of a host, one memory access of another agent, or a change of the
reset input does (10_state.md R47, 20_memory.md R112, R113, 70_reset_and_hazards.md R450). -/

namespace Sys2Proof.Machine

/-- Where a bus access of `bytes` bytes at bus address `addr` goes. -/
inductive Target where
  /-- It touches no byte of the window: not the block's. -/
  | outside
  /-- It touches the window but is not an aligned 32-bit access (10_state.md R47). -/
  | malformed
  /-- A register access. -/
  | reg (r : Reg)
  deriving DecidableEq, Repr

/-- The block answers only 32-bit accesses whose address is BASE plus a multiple of 4 (10_state.md R47). -/
def target (p : Params) (addr bytes : Nat) : Target :=
  if bytes = 0 ∨ addr + bytes ≤ p.base ∨ p.base + 256 ≤ addr then .outside
  else if bytes = 4 ∧ p.base ≤ addr ∧ (addr - p.base) % 4 = 0 then .reg (regAt (addr - p.base))
  else .malformed

/-- A bus read. While reset is asserted the block answers no register access (70_reset_and_hazards.md R450); that it does
not answer a malformed access then either is the model's choice (DESIGN CHOICE, log entry 28). Else a malformed access
gets a bus error and changes no state (10_state.md R47, log entry 12); a read has no side effect (R48). -/
def State.busRead (addr bytes : Nat) (s : State) : State :=
  if s.resetLine then { s with response := .silent }
  else
    match target s.params addr bytes with
    | .outside   => { s with response := .silent }
    | .malformed => { s with response := .busError }
    | .reg r     => { s with response := .word (s.readReg r) }

/-- A bus write, with the same answers as a read's, while reset is asserted too (log entry 28). -/
def State.busWrite (addr bytes : Nat) (v : Word) (s : State) : State :=
  if s.resetLine then { s with response := .silent }
  else
    match target s.params addr bytes with
    | .outside   => { s with response := .silent }
    | .malformed => { s with response := .busError }
    | .reg r     => { s.writeReg r v with response := .written }

/-- The command in flight, if its word is legal: an illegal one has no ranges. -/
def State.inFlight (s : State) : Option Instr :=
  match s.phase with
  | .idle => none
  | .busy => decode s.cmdword

/-- `a` is an output byte of the command in flight (20_memory.md R112). -/
def State.inFlightOutput (s : State) (a : Nat) : Bool :=
  match s.inFlight with
  | none   => false
  | some i => inside (outputRange i s.x) a

/-- `a` is an input or output byte of the command in flight (20_memory.md R113). -/
def State.inFlightByte (s : State) (a : Nat) : Bool :=
  match s.inFlight with
  | none   => false
  | some i => touches i s.x a

/-- A read of a memory byte by an agent other than the engine: any value if the byte is an output byte of the command
in flight (20_memory.md R112, log entry 20), else the byte. -/
def State.agentRead (a : Nat) (s : State) : State :=
  if s.inFlightOutput a then { s with response := .byte (Config.freeByte s.draw .hostRead a), draw := s.draw + 1 }
  else { s with response := .byte (s.mem.read a) }

/-- The raced bytes once a race has met the byte at `a`: only an input or output byte of the command in flight is
remembered, once (20_memory.md R113). -/
def State.racedWith (a : Nat) (s : State) : List Nat :=
  if s.inFlightByte a && !s.raced.contains a then a :: s.raced else s.raced

/-- A write of a memory byte by an agent other than the engine: a race if the byte is an input or output byte of the
command in flight (20_memory.md R113, log entry 6). -/
def State.agentWrite (a : Nat) (v : Byte) (s : State) : State :=
  { s with
    mem      := s.mem.write a v
    raced    := s.racedWith a
    response := .written }

/-- A byte that is an output byte of a command in flight in one instance, and an input or output byte of one in flight in
another, is raced in both (20_memory.md R119): in this one, unless both commands only read it. -/
def State.peerByte (a : Nat) (output : Bool) (s : State) : State :=
  if output || s.inFlightOutput a then { s with raced := s.racedWith a } else s

/-- One action of the outside world. A memory byte at or above `2^ADDR_W` does not exist (20_memory.md R90, log entry
17). `memAdmits` is about the engine's accesses: another agent's memory access to a byte it rejects, one of a mapped
register window included, or to a byte that is not idempotent, is a plain memory access (DESIGN CHOICE, log entry
23). -/
def State.act (a : HostAction) (s : State) : Host.Outcome State Fault Refusal :=
  match a with
  | .regRead addr bytes    => .next (s.busRead addr bytes)
  | .regWrite addr bytes v => .next (s.busWrite addr bytes v)
  | .memRead addr          =>
    if addr < 2 ^ s.params.addrW then .next (s.agentRead addr) else .fault (.outsideSystemMemory addr)
  | .memWrite addr v       =>
    if addr < 2 ^ s.params.addrW then .next (s.agentWrite addr v) else .fault (.outsideSystemMemory addr)
  | .peerByte addr output  => .next (s.peerByte addr output)
  | .resetAssert           => .next { s.resetBlock with resetLine := true }
  | .resetRelease          => .next { s with resetLine := false }

end Sys2Proof.Machine
end

