-- ==== Sys2Proof/Machine/Step.lean ====
section
/-! DEFINITION. One step of the machine. The block has no program counter (10_state.md R31): the first turn of the
state's list says which agent moves, a command comes from the CMD write, and the engine completes it in a step of its
own (40_command.md R174, log entry 4). -/

namespace Sys2Proof.Machine

/-- The engine's step: with a command in flight, decode its word and run it, an illegal one completing with ILLEGAL
(40_command.md R162, R167); with none in flight nothing happens (60_exceptions.md R425). -/
def engineStep (s : State) : Host.Outcome State Fault Refusal :=
  match s.phase with
  | .idle => .next s
  | .busy =>
    match decode s.cmdword with
    | none   => .next (s.raise .illegal)
    | some i => exec i s

/-- A host access and the completion in one step: the access is ordered first, and only a command that was in flight
before the step can complete in it (60_exceptions.md R405, 40_command.md R174, log entry 14). -/
def actThenEngine (a : HostAction) (s : State) : Host.Outcome State Fault Refusal :=
  match s.act a with
  | .next t    => match s.phase with
    | .idle => .next t
    | .busy => engineStep t
  | .fault f   => .fault f
  | .refused r => .refused r

/-- The state in which a turn is taken: the turn removed from the list. -/
def State.rest (s : State) (ts : List Turn) : State := { s with turns := ts }

/-- One step: the first turn of the list is taken. With no turn listed nothing moves any more: a command in flight then
stays in flight for ever, which is the hang of a memory that never answers (40_command.md R171,
70_reset_and_hazards.md R471, log entries 3, 10). -/
def step (s : State) : Host.Outcome State Fault Refusal :=
  match s.turns with
  | []                         => .next s
  | .engine :: ts              => engineStep (s.rest ts)
  | .memoryWait :: ts          => .next (s.rest ts)
  | .access a :: ts            => (s.rest ts).act a
  | .accessThenEngine a :: ts  => actThenEngine a (s.rest ts)

/-- The state after the CMD write of a command word, the engine's turn next: what a host's write of the word leaves
(40_command.md R161), so that the very next step runs it (log entry 16). -/
def State.withFetchWord (s : State) (nbits w : Nat) : State :=
  { s.issue (BitVec.ofNat 32 (w % 2 ^ nbits)) with turns := .engine :: s.turns }

end Sys2Proof.Machine
end

