-- ==== Sys2Proof/Machine/HostScript.lean ====
section
/-! DEFINITION. The host-script notation of 30_encoding.md R139 and the pseudo-instructions of R140: each expands to
the turns of its bus accesses, in the order shown. -/

namespace Sys2Proof.Machine

/-- The offset of a register (10_state.md R32); 0x34 stands for the reserved ones (R46). -/
def Reg.offset : Reg → Nat
  | .id          => 0x00
  | .ctrl        => 0x04
  | .status      => 0x08
  | .cmd         => 0x0C
  | .arg .dst    => 0x10
  | .arg .src    => 0x14
  | .arg .len    => 0x18
  | .arg .key    => 0x1C
  | .arg .nonce  => 0x20
  | .arg .ctr    => 0x24
  | .arg .aad    => 0x28
  | .arg .aadLen => 0x2C
  | .result      => 0x30
  | .reserved    => 0x34

/-- `wr REG, v`: one aligned 32-bit write to BASE + offset(REG) (30_encoding.md R139). -/
def wr (p : Params) (r : Reg) (v : Word) : Turn := .access (.regWrite (p.base + r.offset) 4 v)

/-- `rd REG`: one aligned 32-bit read of BASE + offset(REG) (30_encoding.md R139). -/
def rd (p : Params) (r : Reg) : Turn := .access (.regRead (p.base + r.offset) 4)

/-- `chacha_xor d, s, n, k, nc, c` (30_encoding.md R140). -/
def scriptChachaXor (p : Params) (d s n k nc c : Word) : List Turn :=
  [wr p (.arg .dst) d, wr p (.arg .src) s, wr p (.arg .len) n, wr p (.arg .key) k, wr p (.arg .nonce) nc,
   wr p (.arg .ctr) c, wr p .cmd 0x00000001#32]

/-- `poly_init k` (30_encoding.md R140). -/
def scriptPolyInit (p : Params) (k : Word) : List Turn := [wr p (.arg .key) k, wr p .cmd 0x00000010#32]

/-- `poly_update s, n` (30_encoding.md R140). -/
def scriptPolyUpdate (p : Params) (s n : Word) : List Turn :=
  [wr p (.arg .src) s, wr p (.arg .len) n, wr p .cmd 0x00000011#32]

/-- `poly_finish d` (30_encoding.md R140). -/
def scriptPolyFinish (p : Params) (d : Word) : List Turn := [wr p (.arg .dst) d, wr p .cmd 0x00000012#32]

/-- `seal d, s, n, k, nc, a, an` (30_encoding.md R140). -/
def scriptSeal (p : Params) (d s n k nc a an : Word) : List Turn :=
  [wr p (.arg .dst) d, wr p (.arg .src) s, wr p (.arg .len) n, wr p (.arg .key) k, wr p (.arg .nonce) nc,
   wr p (.arg .aad) a, wr p (.arg .aadLen) an, wr p .cmd 0x00000020#32]

/-- `open d, s, n, k, nc` (30_encoding.md R140). -/
def scriptOpen (p : Params) (d s n k nc : Word) : List Turn :=
  [wr p (.arg .dst) d, wr p (.arg .src) s, wr p (.arg .len) n, wr p (.arg .key) k, wr p (.arg .nonce) nc,
   wr p .cmd 0x00000021#32]

/-- `x25519 d, u, k, cl`: the command word is `0x00000030 | (cl << 8)` (30_encoding.md R140). -/
def scriptX25519 (p : Params) (d u k : Word) (cl : Bool) : List Turn :=
  [wr p (.arg .dst) d, wr p (.arg .src) u, wr p (.arg .key) k,
   wr p .cmd (0x00000030#32 ||| (BitVec.ofBool cl).setWidth 32 <<< 8)]

/-- `x25519_pub d, k, bp`: CLAMP = 1, `bp` holding the base point (30_encoding.md R140, 44_x25519.md R351). -/
def scriptX25519Pub (p : Params) (d k bp : Word) : List Turn := scriptX25519 p d bp k true

/-- The base point, `09 00^31`; the host supplies it in memory (44_x25519.md R351). -/
def basePoint : List Byte := 0x09#8 :: List.replicate 31 0#8

/-- `ack`: clear DONE (30_encoding.md R140). -/
def scriptAck (p : Params) : List Turn := [wr p .status 0x00000002#32]

/-- `ack_ovr`: clear CMD_OVR (30_encoding.md R140). -/
def scriptAckOvr (p : Params) : List Turn := [wr p .status 0x00000004#32]

/-- `irq_on` (30_encoding.md R140). -/
def scriptIrqOn (p : Params) : List Turn := [wr p .ctrl 0x00000001#32]

/-- `irq_off` (30_encoding.md R140). -/
def scriptIrqOff (p : Params) : List Turn := [wr p .ctrl 0x00000000#32]

/-- `srst` (30_encoding.md R140). -/
def scriptSrst (p : Params) : List Turn := [wr p .ctrl 0x00000002#32]

end Sys2Proof.Machine
end

