-- ==== Sys2Proof/Machine/PolyLimbs.lean ====
section
/-! DEFINITION. The conforming limb realisation of the Polynomial MAC (42_poly1305.md R262, R263, R265): five limbs in
26-bit radix. No command uses it: the values of Poly1305.lean bind (00_scope.md R20), and an obligation says that the two
agree (log entry 22). -/

namespace Sys2Proof.Machine

/-- Five limbs, the least significant first: the accumulator `h0..h4` or the multiplier `r0..r4` (42_poly1305.md R262). -/
structure Limbs where
  l0 : Nat
  l1 : Nat
  l2 : Nat
  l3 : Nat
  l4 : Nat
  deriving DecidableEq, Repr

/-- The integer the limbs stand for, in 26-bit radix. -/
def Limbs.value (h : Limbs) : Nat := h.l0 + 2 ^ 26 * h.l1 + 2 ^ 52 * h.l2 + 2 ^ 78 * h.l3 + 2 ^ 104 * h.l4

/-- `d & 0x3ffffff`. -/
def limbLow (d : Nat) : Nat := d % 2 ^ 26

/-- `d >> 26`. -/
def limbHigh (d : Nat) : Nat := d / 2 ^ 26

/-- The clamped multiplier's limbs (42_poly1305.md R263, init). -/
def limbR (k : List Byte) : Limbs where
  l0 := (le32word k 0 &&& 0x3ffffff#32).toNat
  l1 := ((le32word k 3 >>> 2) &&& 0x3ffff03#32).toNat
  l2 := ((le32word k 6 >>> 4) &&& 0x3ffc0ff#32).toNat
  l3 := ((le32word k 9 >>> 6) &&& 0x3f03fff#32).toNat
  l4 := ((le32word k 12 >>> 8) &&& 0x00fffff#32).toNat

/-- Loading a 16-byte block onto the accumulator, with `hibit` (42_poly1305.md R263, block). -/
def limbAdd (h : Limbs) (b : List Byte) (hibit : Nat) : Limbs where
  l0 := h.l0 + (le32word b 0 &&& 0x3ffffff#32).toNat
  l1 := h.l1 + ((le32word b 3 >>> 2) &&& 0x3ffffff#32).toNat
  l2 := h.l2 + ((le32word b 6 >>> 4) &&& 0x3ffffff#32).toNat
  l3 := h.l3 + ((le32word b 9 >>> 6) &&& 0x3ffffff#32).toNat
  l4 := h.l4 + ((le32word b 12 >>> 8).toNat ||| hibit)

/-- The schoolbook product with the terms pre-scaled by 5, before any carry (42_poly1305.md R263, d0 to d4). -/
def limbProduct (h r : Limbs) : Limbs where
  l0 := h.l0 * r.l0 + h.l1 * (5 * r.l4) + h.l2 * (5 * r.l3) + h.l3 * (5 * r.l2) + h.l4 * (5 * r.l1)
  l1 := h.l0 * r.l1 + h.l1 * r.l0 + h.l2 * (5 * r.l4) + h.l3 * (5 * r.l3) + h.l4 * (5 * r.l2)
  l2 := h.l0 * r.l2 + h.l1 * r.l1 + h.l2 * r.l0 + h.l3 * (5 * r.l4) + h.l4 * (5 * r.l3)
  l3 := h.l0 * r.l3 + h.l1 * r.l2 + h.l2 * r.l1 + h.l3 * r.l0 + h.l4 * (5 * r.l4)
  l4 := h.l0 * r.l4 + h.l1 * r.l3 + h.l2 * r.l2 + h.l3 * r.l1 + h.l4 * r.l0

/-- The carry chain after a product: limb 0 up to limb 4, times 5 into limb 0, and once more into limb 1
(42_poly1305.md R263, R265). -/
def limbCarry (d : Limbs) : Limbs :=
  let d1 := d.l1 + limbHigh d.l0
  let d2 := d.l2 + limbHigh d1
  let d3 := d.l3 + limbHigh d2
  let d4 := d.l4 + limbHigh d3
  let h0 := limbLow d.l0 + 5 * limbHigh d4
  { l0 := limbLow h0, l1 := limbLow d1 + limbHigh h0, l2 := limbLow d2, l3 := limbLow d3, l4 := limbLow d4 }

/-- One block (42_poly1305.md R263): `hibit` is 2^24 for a full block, 0 for the padded last one. -/
def limbBlock (r h : Limbs) (b : List Byte) (hibit : Nat) : Limbs := limbCarry (limbProduct (limbAdd h b hibit) r)

/-- Finish: the full carry from limb 1 round to limb 1 again (42_poly1305.md R263). -/
def limbFullCarry (h : Limbs) : Limbs :=
  let h2 := h.l2 + limbHigh h.l1
  let h3 := h.l3 + limbHigh h2
  let h4 := h.l4 + limbHigh h3
  let h0 := h.l0 + 5 * limbHigh h4
  { l0 := limbLow h0, l1 := limbLow h.l1 + limbHigh h0, l2 := limbLow h2, l3 := limbLow h3, l4 := limbLow h4 }

/-- Finish: `g = h + 5 - 2^130` limb by limb, and the masked choice of `g` if it is not negative, else `h`
(42_poly1305.md R263, R264). -/
def limbCanonical (h : Limbs) : Limbs :=
  let g0 := h.l0 + 5
  let g1 := h.l1 + limbHigh g0
  let g2 := h.l2 + limbHigh g1
  let g3 := h.l3 + limbHigh g2
  let g4 := h.l4 + limbHigh g3
  if 2 ^ 26 ≤ g4 then
    { l0 := limbLow g0, l1 := limbLow g1, l2 := limbLow g2, l3 := limbLow g3, l4 := g4 - 2 ^ 26 }
  else h

/-- The four tag words: `f_i = w_i + pad_i + carry`, the last carry dropped (42_poly1305.md R263). -/
def limbTagWords (h : Limbs) (k : List Byte) : List Byte :=
  let w := fun i : Nat => h.value / 2 ^ (32 * i) % 2 ^ 32
  let f0 := w 0 + (le32word k 16).toNat
  let f1 := w 1 + (le32word k 20).toNat + f0 / 2 ^ 32
  let f2 := w 2 + (le32word k 24).toNat + f1 / 2 ^ 32
  let f3 := w 3 + (le32word k 28).toNat + f2 / 2 ^ 32
  leBytes 4 f0 ++ leBytes 4 f1 ++ leBytes 4 f2 ++ leBytes 4 f3

/-- Absorb the first `q` full blocks of `m`. -/
def limbBlocks (r : Limbs) (q : Nat) (m : List Byte) (h : Limbs) : Limbs :=
  (blocks16 q m).foldl (fun h b => limbBlock r h b (2 ^ 24)) h

/-- The tag of a message, by limbs (42_poly1305.md R263). -/
def limbPoly1305 (key m : List Byte) : List Byte :=
  let r    := limbR key
  let q    := m.length / 16
  let h    := limbBlocks r q m ⟨0, 0, 0, 0, 0⟩
  let tail := m.drop (16 * q)
  let h    := if tail.isEmpty then h else limbBlock r h (tail ++ 0x01#8 :: List.replicate (15 - tail.length) 0#8) 0
  limbTagWords (limbCanonical (limbFullCarry h)) key

end Sys2Proof.Machine
end

