-- ==== Sys2Proof/Safety.lean ====
section
/-! DEFINITION. What counts as a safe run: the invariant `State.Inv` that every step keeps, the host's obligations
(70_reset_and_hazards.md R460, R461, R464), and the premise under which a command's operands are memory's own bytes. -/

namespace Sys2Proof.Machine

/-- The memory invariant: the canonical form, and only bytes that exist (20_memory.md R90). -/
def State.memOk (s : State) : Prop := s.mem.wf ∧ ∀ c ∈ s.mem, c.1 < 2 ^ s.params.addrW

/-- What a MAC context keeps (10_state.md R57, 42_poly1305.md R241, R255, R259): the accumulator canonical, r clamped, a
partial block of at most 15 bytes that FINAL has none of, and `final` never set while data can still be absorbed. -/
structure MacContext.Ok (c : MacContext) : Prop where
  acc_lt        : c.acc < p130
  r_clamped     : c.r &&& clampMask = c.r
  buf_short     : c.buf.length ≤ 15
  buf_final     : c.pstate = .final → c.buf = []
  final_pstate  : c.final = true → c.pstate ≠ .accum

/-- The invariant of the machine. -/
structure State.Inv (s : State) : Prop where
  /-- `1 <= ADDR_W <= 32` (00_scope.md R12). -/
  addr_width : 1 ≤ s.params.addrW ∧ s.params.addrW ≤ 32
  mem_ok     : s.memOk
  mac_ok     : s.mac.Ok
  /-- Between issue and completion DONE, ERR, DIAG and RESULT are 0 (40_command.md R161, 70_reset_and_hazards.md R465). -/
  busy_clear : s.phase = .busy → s.done = false ∧ s.err = .ok ∧ s.diag = false ∧ s.result = 0#32
  /-- The sentinel marks exactly the failed commands (40_command.md R172). -/
  sentinel_iff : s.result = sentinel ↔ s.err ≠ .ok
  /-- DIAG is set by a successful X25519 only (10_state.md R40). -/
  diag_x25519 : s.diag = true → s.err = .ok ∧ ∃ c, decode s.cmdword = some (.x25519 c)
  /-- Transient state outlives no step (10_state.md R61, 40_command.md R174). -/
  transient_absent : s.transient = Transient.absent
  /-- Races are about the command in flight (20_memory.md R113). -/
  raced_inFlight : ∀ a ∈ s.raced, s.inFlightByte a = true
  /-- While reset is asserted no command is in flight (70_reset_and_hazards.md R450). -/
  reset_idle : s.resetLine = true → s.phase = .idle

/-- The engine reads memory's own bytes and the command's outputs are its rule's: no byte was raced (the host keeps
70_reset_and_hazards.md R460 and R461), every byte the command accesses is admitted, and every buffer handed to it is in
idempotent memory (R454 (2), 20_memory.md R103). -/
def State.Undisturbed (i : Instr) (s : State) : Prop :=
  s.raced = [] ∧ (∀ r ∈ accessedRanges i s.x, ∀ a, inside r a = true → memAdmits s.params a = true) ∧
  ∀ r ∈ handedRanges i s.x, ∀ a, inside r a = true → idempotent s.params a = true

/-- What no command changes: the platform, CTRL, CMD_OVR, CMD, the argument registers, the latched arguments (10_state.md
R44), the reset input and the host's side. -/
def KeepsRegisters (s t : State) : Prop :=
  t.params = s.params ∧ t.ie = s.ie ∧ t.cmdOvr = s.cmdOvr ∧ t.cmdword = s.cmdword ∧ t.args = s.args ∧ t.x = s.x ∧
    t.resetLine = s.resetLine ∧ t.turns = s.turns ∧ t.response = s.response

/-- The completion fields of 40_command.md R170: idle, DONE set, the code in ERR, RESULT and DIAG as given, the
transient state cleared; the races were about the command that ended. -/
def CompletesWith (code : ErrCode) (result : Word) (diag : Bool) (t : State) : Prop :=
  t.phase = .idle ∧ t.done = true ∧ t.err = code ∧ t.result = result ∧ t.diag = diag ∧
    t.transient = Transient.absent ∧ t.raced = []

/-- Every byte outside the range reads after as before. -/
def MemoryKeptOutside (r : Range) (s t : State) : Prop :=
  ∀ a, ¬(r.start ≤ a ∧ a < r.start + r.len) → t.mem.read a = s.mem.read a

/-- A streaming MAC computation (42_poly1305.md R260): a successful POLY_INIT with the key, then successful POLY_UPDATE
commands, each finding the persistent context as the one before left it; whatever else the host does between them.
`MacStream key c m` says that the context is then `c` and the data absorbed or buffered so far is `m`. -/
inductive MacStream : List Byte → MacContext → List Byte → Prop where
  | init {s t : State} (undisturbed : s.Undisturbed .polyInit) (runs : exec .polyInit s = .next t)
      (ok : t.err = .ok) : MacStream (s.mem.bytes s.x.key.toNat 32) t.mac []
  | update {key : List Byte} {c : MacContext} {m : List Byte} {s t : State} (before : MacStream key c m)
      (same : s.mac = c) (undisturbed : s.Undisturbed .polyUpdate) (runs : exec .polyUpdate s = .next t)
      (ok : t.err = .ok) : MacStream key t.mac (m ++ s.mem.bytes s.x.src.toNat s.x.len.toNat)

/-- The host's obligations for one action in a state: no write to an input or output byte and no read of an output
byte of the command in flight (70_reset_and_hazards.md R460, R461), by another instance's command either (20_memory.md
R119), no CMD write while BUSY (R464). -/
def HostAction.obeys (a : HostAction) (s : State) : Bool :=
  match a with
  | .regRead _ _            => true
  | .regWrite addr bytes _  => !(s.busy && target s.params addr bytes == .reg .cmd)
  | .memRead addr           => !s.inFlightOutput addr
  | .memWrite addr _        => !s.inFlightByte addr
  | .peerByte addr output   => !((output || s.inFlightOutput addr) && s.inFlightByte addr)
  | .resetAssert            => true
  | .resetRelease           => true

/-- The action is a reset: the hardware input, or a CTRL write with SRST = 1 (70_reset_and_hazards.md R450, R452). -/
def HostAction.resets (a : HostAction) (s : State) : Bool :=
  match a with
  | .regRead _ _            => false
  | .regWrite addr bytes v  => target s.params addr bytes == .reg .ctrl && v.getLsbD 1
  | .memRead _              => false
  | .memWrite _ _           => false
  | .peerByte _ _           => false
  | .resetAssert            => true
  | .resetRelease           => false

/-- `t` is reached from `s` by host actions that each keep the host's obligations and reset nothing. -/
inductive ObeyingAccesses : State → State → Prop where
  | none (s : State) : ObeyingAccesses s s
  | more {s t u : State} (a : HostAction) (before : ObeyingAccesses s t) (obeys : a.obeys t = true)
      (noReset : a.resets t = false) (acts : t.act a = .next u) : ObeyingAccesses s u

end Sys2Proof.Machine
end

