-- ==== Sys2Proof/Certificates/Slice0/Obligations.lean ====
section
/-! DEFINITION. The statements for the provers, in the order of OBLIGATIONS.json: encoding, the register window and the
lifecycle, the checks and errors, the result of each command, the properties of the algorithms, and the whole machine. -/

open Sys2Proof Sys2Proof.Machine

/-! ### Encoding -/

/-- 30_encoding.md R130, R133, R135: encoding and decoding are inverse, in both directions, on every command and every
32-bit word. -/
def Obligations.DecodeEncodeRoundTrip : Prop :=
  (∀ i : Instr, decode (encode i) = some i) ∧ ∀ (w : Word) (i : Instr), decode w = some i → encode i = w

/-- 30_encoding.md R135: a word decodes to a command iff its three fields are legal. -/
def Obligations.WordDecodesIffLegal : Prop :=
  ∀ w : Word, (decode w).isSome = true ↔
    w.extractLsb' 0 8 ∈ [0x01#8, 0x10#8, 0x11#8, 0x12#8, 0x20#8, 0x21#8, 0x30#8] ∧
    w.extractLsb' 9 23 = 0#23 ∧
    (w.getLsbD 8 = false ∨ w.extractLsb' 0 8 = 0x30#8)

/-- 30_encoding.md R133: each legal command word decodes to its command. -/
def Obligations.CommandWordsDecode : Prop :=
  decode 0x00000001#32 = some .chachaXor ∧ decode 0x00000010#32 = some .polyInit ∧
  decode 0x00000011#32 = some .polyUpdate ∧ decode 0x00000012#32 = some .polyFinish ∧
  decode 0x00000020#32 = some .aeadSeal ∧ decode 0x00000021#32 = some .aeadOpen ∧
  decode 0x00000030#32 = some (.x25519 false) ∧ decode 0x00000130#32 = some (.x25519 true)

/-! ### The register window and the lifecycle -/

/-- 40_command.md R167, R174: with a legal word in flight, a step in which the engine moves is `exec` of the decoded
command, the turn removed. -/
def Obligations.StepRunsDecodedCommand : Prop :=
  ∀ (s : State) (i : Instr) (ts : List Turn), s.phase = .busy → decode s.cmdword = some i → s.turns = .engine :: ts →
    step s = exec i { s with turns := ts }

/-- 40_command.md R162: issued while idle, a word that is not legal completes with ILLEGAL in the engine's next step,
and changes nothing but the issue's and the completion's fields: both states are given whole. -/
def Obligations.IllegalWordCompletesWithIllegal : Prop :=
  ∀ (s : State) (w : Word) (ts : List Turn), decode w = none → s.phase = .idle → s.resetLine = false →
    s.turns = [wr s.params .cmd w, .engine] ++ ts →
    ∃ t, step s = .next t ∧
      t = { s with
        turns := .engine :: ts, response := .written, cmdword := w, x := s.args, phase := .busy, done := false,
        err := .ok, diag := false, result := 0#32 } ∧
      step t = .next { t with
        turns := ts, phase := .idle, done := true, err := .illegal, result := 0xFFFFFFFF#32,
        transient := Transient.absent, raced := [], draw := s.draw + 1 }

/-- 40_command.md R161: a 32-bit write of `w` to CMD issues it while idle (all fields in one step), and is dropped
while BUSY. -/
def Obligations.CmdWriteIssuesOrIsDropped : Prop :=
  ∀ (s : State) (w : Word) (ts : List Turn), s.resetLine = false → s.turns = wr s.params .cmd w :: ts →
    (s.phase = .idle → step s = .next { s with
      turns := ts, response := .written, cmdword := w, x := s.args, phase := .busy, done := false, err := .ok,
      diag := false, result := 0#32 }) ∧
    (s.phase = .busy → step s = .next { s with turns := ts, response := .written, cmdOvr := true })

/-- 10_state.md R39: CMD_OVR is set by a CMD write while BUSY, which changes nothing else; a STATUS write with bit 2 set
and a reset clear it, and nothing else does. -/
def Obligations.CmdOvrSetByDroppedWriteClearedByHost : Prop :=
  (∀ (s : State) (w : Word), s.phase = .busy → s.writeReg .cmd w = { s with cmdOvr := true }) ∧
  (∀ (s : State) (v : Word), (v.getLsbD 2 = true → (s.writeReg .status v).cmdOvr = false) ∧
    (v.getLsbD 1 = true → (s.writeReg .ctrl v).cmdOvr = false)) ∧
  (∀ s t : State, State.act .resetAssert s = .next t → t.cmdOvr = false) ∧
  ∀ s t : State, step s = .next t → s.cmdOvr = true → t.cmdOvr = false →
    ∃ a ts, (s.turns = .access a :: ts ∨ s.turns = .accessThenEngine a :: ts) ∧
      (a = .resetAssert ∨ ∃ addr bytes v, a = .regWrite addr bytes v ∧
        (target s.params addr bytes = .reg .status ∧ v.getLsbD 2 = true ∨
         target s.params addr bytes = .reg .ctrl ∧ v.getLsbD 1 = true))

/-- 10_state.md R36 with 60_exceptions.md R400: the STATUS word field by field, the seven error codes by number, and the
W1C write, which changes nothing else. -/
def Obligations.StatusRegister : Prop :=
  (∀ s : State,
    s.statusWord.getLsbD 0 = decide (s.phase = .busy) ∧ s.statusWord.getLsbD 1 = s.done ∧
    s.statusWord.getLsbD 2 = s.cmdOvr ∧ s.statusWord.getLsbD 3 = s.diag ∧
    s.statusWord.extractLsb' 4 2 = (match s.mac.pstate with | .uninit => 0#2 | .accum => 1#2 | .final => 2#2) ∧
    s.statusWord.extractLsb' 6 2 = 0#2 ∧
    s.statusWord.extractLsb' 8 8 = (match s.err with
      | .ok => 0x00#8 | .illegal => 0x01#8 | .state => 0x02#8 | .length => 0x03#8 | .range => 0x04#8
      | .overlap => 0x05#8 | .bus => 0x06#8) ∧
    s.statusWord.extractLsb' 16 16 = 0#16) ∧
  (∀ (s : State) (v : Word) (ts : List Turn), s.resetLine = false → s.turns = wr s.params .status v :: ts →
    step s = .next { s with
      turns := ts, response := .written, done := s.done && !v.getLsbD 1, cmdOvr := s.cmdOvr && !v.getLsbD 2 }) ∧
  State.reset.statusWord = 0#32

/-- 70_reset_and_hazards.md R452: a CTRL write with bit 1 set does what the hardware reset does, in the step of the
write, and leaves IE 0; with bit 1 clear it updates IE only; SRST always reads 0. -/
def Obligations.CtrlWriteSoftReset : Prop :=
  (∀ (s : State) (v : Word) (ts : List Turn), s.resetLine = false → s.turns = wr s.params .ctrl v :: ts →
    (v.getLsbD 1 = true → ∃ t u, step s = .next t ∧ State.act .resetAssert { s with turns := ts } = .next u ∧
      t = { u with resetLine := false, response := .written } ∧ t.ie = false) ∧
    (v.getLsbD 1 = false → step s = .next { s with turns := ts, response := .written, ie := v.getLsbD 0 })) ∧
  ∀ s : State, (s.readReg .ctrl).getLsbD 1 = false ∧ (s.readReg .ctrl).getLsbD 0 = s.ie

/-- 10_state.md R46: reserved offsets read 0 and ignore writes; reserved fields of CTRL and STATUS read 0 and the bits
written to them have no effect. With R45 and R49: a write to RESULT changes nothing, in any phase. -/
def Obligations.ReservedReadsZeroIgnoresWrites : Prop :=
  (∀ (s : State) (offset : Nat) (v : Word), s.resetLine = false → 0x34 ≤ offset → offset ≤ 0xFC → offset % 4 = 0 →
    State.act (.regRead (s.params.base + offset) 4) s = .next { s with response := .word 0#32 } ∧
    State.act (.regWrite (s.params.base + offset) 4 v) s = .next { s with response := .written }) ∧
  (∀ s : State, (s.readReg .ctrl).extractLsb' 2 30 = 0#30 ∧ (s.readReg .status).extractLsb' 6 2 = 0#2 ∧
    (s.readReg .status).extractLsb' 16 16 = 0#16) ∧
  (∀ (s : State) (v w : Word),
    (v.extractLsb' 0 2 = w.extractLsb' 0 2 → s.writeReg .ctrl v = s.writeReg .ctrl w) ∧
    (v.extractLsb' 1 2 = w.extractLsb' 1 2 → s.writeReg .status v = s.writeReg .status w)) ∧
  ∀ (s : State) (v : Word), s.resetLine = false →
    State.act (.regWrite (s.params.base + 0x30) 4 v) s = .next { s with response := .written }

/-- 10_state.md R47: an access that touches the window but is not 32 bits wide at BASE plus a multiple of 4 gets a bus
error and changes no state; every access of that form is answered. -/
def Obligations.MalformedAccessGetsBusError : Prop :=
  ∀ (s : State) (addr bytes : Nat) (v : Word), s.resetLine = false →
    0 < bytes → addr < s.params.base + 256 → s.params.base < addr + bytes →
    (¬(bytes = 4 ∧ s.params.base ≤ addr ∧ (addr - s.params.base) % 4 = 0) →
      State.act (.regRead addr bytes) s = .next { s with response := .busError } ∧
      State.act (.regWrite addr bytes v) s = .next { s with response := .busError }) ∧
    (bytes = 4 → s.params.base ≤ addr → (addr - s.params.base) % 4 = 0 →
      (∃ w, State.act (.regRead addr bytes) s = .next { s with response := .word w }) ∧
      ∃ t, State.act (.regWrite addr bytes v) s = .next t ∧ t.response = .written)

/-- 10_state.md R48: no bus read of the block changes anything but the answer it gets. -/
def Obligations.RegisterReadsHaveNoSideEffects : Prop :=
  ∀ (s : State) (addr bytes : Nat), ∃ r, State.act (.regRead addr bytes) s = .next { s with response := r }

/-- 10_state.md R32, R34, R36, R43 to R45: what a 32-bit read of each offset returns. -/
def Obligations.RegisterMapReads : Prop :=
  ∀ s : State, s.resetLine = false →
    let read := fun offset => State.act (.regRead (s.params.base + offset) 4) s
    let gives := fun v => (Host.Outcome.next { s with response := .word v } : Host.Outcome State Fault Refusal)
    read 0x00 = gives s.params.blockId ∧ read 0x04 = gives s.ctrlWord ∧ read 0x08 = gives s.statusWord ∧
    read 0x0C = gives s.cmdword ∧ read 0x10 = gives s.args.dst ∧ read 0x14 = gives s.args.src ∧
    read 0x18 = gives s.args.len ∧ read 0x1C = gives s.args.key ∧ read 0x20 = gives s.args.nonce ∧
    read 0x24 = gives s.args.ctr ∧ read 0x28 = gives s.args.aad ∧ read 0x2C = gives s.args.aadLen ∧
    read 0x30 = gives s.result

/-- 10_state.md R44: a write to an argument register changes that register alone, in full, in any phase: the latched
arguments of a command in flight stay. -/
def Obligations.ArgWriteChangesOneRegister : Prop :=
  ∀ (s : State) (n : ArgName) (v : Word) (ts : List Turn), s.resetLine = false →
    s.turns = wr s.params (.arg n) v :: ts →
    ∃ t, step s = .next t ∧ t.args.get n = v ∧ (∀ m, m ≠ n → t.args.get m = s.args.get m) ∧
      t = { s with turns := ts, response := .written, args := t.args }

/-- 10_state.md R33: ID reads BLOCK_ID (by default 0x84397748), ignores writes, and no step changes it. -/
def Obligations.IdNeverChanges : Prop :=
  (∀ (s : State) (v : Word), s.readReg .id = s.params.blockId ∧ s.writeReg .id v = s) ∧
  State.reset.readReg .id = 0x84397748#32 ∧
  ∀ s t : State, step s = .next t → t.readReg .id = s.readReg .id

/-- 10_state.md R50, 60_exceptions.md R410, R411: IRQ is high exactly while DONE and IE are 1; every completion, ILLEGAL's
included, raises it if IE is set; setting IE while DONE is 1 raises it; writing 1 to DONE, an accepted issue or a reset
lowers it; clearing IE masks it without clearing DONE. -/
def Obligations.InterruptFollowsDoneAndEnable : Prop :=
  (∀ s : State, s.irq = true ↔ s.done = true ∧ s.ie = true) ∧
  (∀ s t : State, s.phase = .busy → engineStep s = .next t → t.done = true ∧ t.ie = s.ie ∧ t.irq = s.ie) ∧
  (∀ (s : State) (v : Word), v.getLsbD 0 = true → v.getLsbD 1 = false → (s.writeReg .ctrl v).irq = s.done) ∧
  (∀ (s : State) (v : Word), v.getLsbD 1 = true → (s.writeReg .status v).irq = false) ∧
  (∀ (s : State) (w : Word), s.phase = .idle → (s.writeReg .cmd w).irq = false) ∧
  (∀ (s t : State), State.act .resetAssert s = .next t → t.irq = false) ∧
  ∀ (s : State) (v : Word), v.getLsbD 0 = false → v.getLsbD 1 = false →
    (s.writeReg .ctrl v).irq = false ∧ (s.writeReg .ctrl v).done = s.done

/-- 10_state.md R70: the state after a reset, hardware or soft, from any state, and `State.reset` itself; memory is
unchanged when no command was in flight, and outside the output range of one that was; and the context's values cannot
be observed: a command that would read them is rejected with STATE. -/
def Obligations.ResetLeavesTheTableValues : Prop :=
  let table := fun t : State =>
    t.ie = false ∧ (t.readReg .ctrl).getLsbD 1 = false ∧ t.phase = .idle ∧ t.done = false ∧ t.cmdOvr = false ∧
    t.diag = false ∧ t.mac.pstate = .uninit ∧ t.err = .ok ∧ t.cmdword = 0#32 ∧
    (∀ n, t.args.get n = 0#32 ∧ t.x.get n = 0#32) ∧ t.result = 0#32 ∧ t.irq = false ∧
    t.mac.acc = 0 ∧ t.mac.r = 0#128 ∧ t.mac.pad = 0#128 ∧ t.mac.buf = [] ∧ t.mac.final = false ∧
    t.transient.cipher = none ∧ t.transient.aeadMac = none ∧ t.transient.ladder = none
  table State.reset ∧
  ∀ (s : State) (a : HostAction), s.mem.wf →
    (a = .resetAssert ∨
      s.resetLine = false ∧ ∃ v, a = .regWrite (s.params.base + 0x04) 4 v ∧ v.getLsbD 1 = true) →
    ∃ t, State.act a s = .next t ∧ table t ∧ t.params.blockId = s.params.blockId ∧
      (s.phase = .idle → t.mem = s.mem) ∧
      (s.phase = .busy → ∀ b, (∀ i, decode s.cmdword = some i → inside (outputRange i s.x) b = false) →
        t.mem.read b = s.mem.read b) ∧
      ∀ (i : Instr) (u v : State), i = .polyUpdate ∨ i = .polyFinish → u.mac = t.mac → exec i u = .next v → v.err = .state

/-- 70_reset_and_hazards.md R453: a reset, hardware or soft, aborts the command in flight, legal or not: nothing is
reported, the engine does nothing afterwards, every existing byte of the command's output range is a free value, every
other byte is unchanged, and the MAC context is reset. That only bytes below 2^ADDR_W are drawn, and that an illegal word
has no range, is the model's choice (log entry 7). -/
def Obligations.ResetAbortsCommandInFlight : Prop :=
  ∀ (s : State) (a : HostAction) (v : Word), s.mem.wf → s.phase = .busy → s.resetLine = false → v.getLsbD 1 = true →
    a = .resetAssert ∨ a = .regWrite (s.params.base + 0x04) 4 v →
    ∃ t, State.act a s = .next t ∧ engineStep t = .next t ∧ t.phase = .idle ∧
      t.done = false ∧ t.err = .ok ∧ t.result = 0#32 ∧ t.diag = false ∧ t.mac.pstate = .uninit ∧
      (decode s.cmdword = none → t.mem = s.mem) ∧
      ∀ i, decode s.cmdword = some i → MemoryKeptOutside (outputRange i s.x) s t ∧
        ∀ b, inside (outputRange i s.x) b = true → b < 2 ^ s.params.addrW →
          t.mem.read b = Config.freeByte s.draw .aborted b

/-- 70_reset_and_hazards.md R450: while reset is asserted no register access is answered or has an effect; after its
release a CMD write is accepted. That a malformed access is not answered then either is the model's choice (log entry
28). -/
def Obligations.AssertedResetAnswersNothing : Prop :=
  (∀ (s : State) (addr bytes : Nat) (v : Word), s.resetLine = true →
    State.act (.regRead addr bytes) s = .next { s with response := .silent } ∧
    State.act (.regWrite addr bytes v) s = .next { s with response := .silent }) ∧
  ∀ (s : State) (w : Word), ∃ t u v, State.act .resetAssert s = .next t ∧ t.resetLine = true ∧
    State.act .resetRelease t = .next u ∧
    State.act (.regWrite (u.params.base + 0x0C) 4 w) u = .next v ∧ v.phase = .busy ∧ v.cmdword = w

/-- 40_command.md R171, 70_reset_and_hazards.md R471: however long the memory does not answer, and for ever if no turn
comes any more, the command stays in flight and nothing changes; once the engine's turn comes it completes. (The turns
that stand for this are log entries 3's and 10's.) -/
def Obligations.UnansweredCommandStaysInFlight : Prop :=
  (∀ (n : Nat) (s : State) (ts : List Turn), s.phase = .busy → s.turns = List.replicate n .memoryWait ++ ts →
    Host.Core.run Sys2Proof.core n s = .next { s with turns := ts }) ∧
  (∀ (n : Nat) (s : State), s.turns = [] → Host.Core.run Sys2Proof.core n s = .next s) ∧
  ∀ (s : State) (ts : List Turn), s.phase = .busy → s.turns = .engine :: ts →
    ∃ t, step s = .next t ∧ t.phase = .idle ∧ t.done = true ∧ t.turns = ts

/-- 60_exceptions.md R405: with a completion in the same step, (a) a write to STATUS leaves DONE = 1, (b) a reset wins
and nothing completes, (c) a CMD write is dropped and sets CMD_OVR, and the command in flight completes. -/
def Obligations.SameStepAccessPrecedesCompletion : Prop :=
  ∀ (s : State) (a : HostAction) (ts : List Turn), s.phase = .busy → s.resetLine = false →
    s.turns = .accessThenEngine a :: ts →
    (∀ v, a = .regWrite (s.params.base + 0x08) 4 v → ∃ t, step s = .next t ∧ t.done = true ∧ t.phase = .idle) ∧
    (a = .resetAssert ∨ (∃ v, a = .regWrite (s.params.base + 0x04) 4 v ∧ v.getLsbD 1 = true) →
      step s = State.act a { s with turns := ts } ∧ ∃ t, step s = .next t ∧ t.done = false ∧ t.err = .ok) ∧
    ∀ w, a = .regWrite (s.params.base + 0x0C) 4 w →
      step s = engineStep { s with turns := ts, response := .written, cmdOvr := true } ∧
      ∃ t, step s = .next t ∧ t.cmdOvr = true ∧ t.cmdword = s.cmdword ∧ t.phase = .idle

/-- 20_memory.md R112, R113, R119, R90: another agent's read of an output byte of the command in flight gets a free value
and any other read the byte; its write lands, and is remembered as a race exactly when the byte is an input or output
byte of the command in flight; and a byte that a command of another instance has in flight is remembered as one exactly
when it is an output byte of one of the two commands and an input or output byte of the other. Two clauses are the
model's choice: that this holds of the bytes memAdmits rejects too, a mapped register window's included, and of memory
that is not idempotent (log entry 23), and that a byte at or above 2^ADDR_W stops the machine (log entry 17). -/
def Obligations.AgentMemoryAccesses : Prop :=
  ∀ (s : State) (a : Nat) (v : Byte), s.mem.wf →
    (a < 2 ^ s.params.addrW →
      (∀ i, s.phase = .busy → decode s.cmdword = some i → inside (outputRange i s.x) a = true →
        State.act (.memRead a) s =
          .next { s with response := .byte (Config.freeByte s.draw .hostRead a), draw := s.draw + 1 }) ∧
      (¬(s.phase = .busy ∧ ∃ i, decode s.cmdword = some i ∧ inside (outputRange i s.x) a = true) →
        State.act (.memRead a) s = .next { s with response := .byte (s.mem.read a) }) ∧
      ∃ t, State.act (.memWrite a v) s = .next t ∧ (∀ b, t.mem.read b = if b = a then v else s.mem.read b) ∧
        (∀ b, b ∈ t.raced ↔ b ∈ s.raced ∨
          b = a ∧ s.phase = .busy ∧ ∃ i, decode s.cmdword = some i ∧ touches i s.x a = true) ∧
        t = { s with mem := t.mem, raced := t.raced, response := .written }) ∧
    (∀ output : Bool, ∃ t, State.act (.peerByte a output) s = .next t ∧ t = { s with raced := t.raced } ∧
      ∀ b, b ∈ t.raced ↔ b ∈ s.raced ∨
        b = a ∧ s.phase = .busy ∧ ∃ i, decode s.cmdword = some i ∧
          (inside (outputRange i s.x) a = true ∨ output = true ∧ touches i s.x a = true)) ∧
    (2 ^ s.params.addrW ≤ a →
      State.act (.memRead a) s = .fault (.outsideSystemMemory a) ∧
      State.act (.memWrite a v) s = .fault (.outsideSystemMemory a))

/-- 20_memory.md R113 (a) to (c), R103: after a success a raced output byte, and every output byte of a command that was
handed a buffer with a byte which is not idempotent, AEAD_OPEN's tag included, is a free value, whatever the command; and each command computes every other
output byte, its MAC context and its DIAG by its rule from its operands as drawn: the raced bytes free, one draw for each
operand (log entry 5), the others memory's. A raced POLY_UPDATE leaves a free accumulator and a context whose every later
tag is free, as long as no POLY_INIT made it fresh; its buffer is the rule's on the bytes as drawn (log entry 27). -/
def Obligations.RacedAndSideEffectingBytesTakeAnyValue : Prop :=
  (∀ (i : Instr) (s t : State) (a : Nat), s.mem.wf → exec i s = .next t → t.err = .ok →
    inside (outputRange i s.x) a = true →
    (a ∈ s.raced ∨ ∃ r ∈ handedRanges i s.x, ∃ b, inside r b = true ∧ idempotent s.params b = false) →
    t.mem.read a = Config.freeByte s.draw .output a) ∧
  ∀ (s t : State), s.mem.wf → t.err = .ok → (∀ a, idempotent s.params a = true) →
    let drawn := fun (k : Nat) (p : Word) (n : Nat) => (List.range n).map fun j =>
      if p.toNat + j ∈ s.raced then Config.freeByte s.draw (.operand k) (p.toNat + j) else s.mem.read (p.toNat + j)
    let writes := fun (out : List Byte) => ∀ j, j < out.length → s.x.dst.toNat + j ∉ s.raced →
      t.mem.read (s.x.dst.toNat + j) = out.getD j 0
    let n := s.x.len.toNat
    let key := drawn 0 s.x.key 32
    let nonce := drawn 1 s.x.nonce 12
    (exec .chachaXor s = .next t → ∀ j, j < n → s.x.dst.toNat + j ∉ s.raced →
      t.mem.read (s.x.dst.toNat + j) = (drawn 2 s.x.src n).getD j 0 ^^^
        (chachaBlock key (s.x.ctr + BitVec.ofNat 32 (j / 64)) nonce).getD (j % 64) 0) ∧
    (exec .polyInit s = .next t → t.mac = MacContext.init key) ∧
    (exec .polyUpdate s = .next t →
      (((∀ j, j < n → s.x.src.toNat + j ∉ s.raced) → t.mac = s.mac.update (drawn 0 s.x.src n)) ∧
      ((∃ j, j < n ∧ s.x.src.toNat + j ∈ s.raced) → t.mac = { s.mac.update (drawn 0 s.x.src n) with
        acc := leNat ((List.range 17).map fun j => Config.freeByte s.draw .accumulator j) % (2 ^ 130 - 5)
        anyTag := true }))) ∧
    (exec .polyFinish s = .next t → t.mac = s.mac.finish ∧ (s.mac.anyTag = false → writes s.mac.finish.tag) ∧
      (s.mac.anyTag = true → ∀ j, j < 16 →
        t.mem.read (s.x.dst.toNat + j) = Config.freeByte s.draw .output (s.x.dst.toNat + j))) ∧
    (exec .aeadSeal s = .next t → writes (sealBytes key nonce (drawn 3 s.x.aad s.x.aadLen.toNat) (drawn 2 s.x.src n))) ∧
    (exec .aeadOpen s = .next t → writes (payloadXor key nonce (drawn 2 s.x.src (n - 16)))) ∧
    ∀ c, exec (.x25519 c) s = .next t → writes (x25519Bytes c key (drawn 1 s.x.src 32)) ∧
      t.diag = x25519Diag s.params c (x25519Bytes c key (drawn 1 s.x.src 32))

/-! ### Checks and errors -/

/-- 40_command.md R167, 60_exceptions.md R404: the checks run in the fixed order STATE, LENGTH, RANGE, OVERLAP, the
first that fails is the error, and BUS arises only when all pass and an accessed byte is inadmissible. -/
def Obligations.FirstFailingCheckIsTheError : Prop :=
  ∀ (i : Instr) (s : State), ∃ t, exec i s = .next t ∧
    let bad := ∃ r ∈ accessedRanges i s.x, ∃ a, inside r a = true ∧ memAdmits s.params a = false
    (t.err = .state ↔ sequenceOk i s.mac = false) ∧
    (t.err = .length ↔ sequenceOk i s.mac = true ∧ lengthOk i s.x = false) ∧
    (t.err = .range ↔ sequenceOk i s.mac = true ∧ lengthOk i s.x = true ∧ rangesOk i s.x s.params = false) ∧
    (t.err = .overlap ↔ sequenceOk i s.mac = true ∧ lengthOk i s.x = true ∧ rangesOk i s.x s.params = true ∧
      overlapOk i s.x = false) ∧
    (t.err = .bus ↔ sequenceOk i s.mac = true ∧ lengthOk i s.x = true ∧ rangesOk i s.x s.params = true ∧
      overlapOk i s.x = true ∧ bad) ∧
    (t.err = .ok ↔ sequenceOk i s.mac = true ∧ lengthOk i s.x = true ∧ rangesOk i s.x s.params = true ∧
      overlapOk i s.x = true ∧ ¬bad) ∧
    t.err ≠ .illegal

/-- 40_command.md R163: POLY_UPDATE and POLY_FINISH report STATE exactly when pstate is not ACCUM; no other command
reports it, and none of the others reads pstate: with another pstate everything but the context is the same. -/
def Obligations.MacSequenceCheck : Prop :=
  (∀ (i : Instr) (s t : State), i = .polyUpdate ∨ i = .polyFinish → exec i s = .next t →
    (t.err = .state ↔ s.mac.pstate ≠ .accum)) ∧
  ∀ (i : Instr) (s t u : State) (p : PolyState), i ≠ .polyUpdate → i ≠ .polyFinish → exec i s = .next t →
    exec i { s with mac := { s.mac with pstate := p } } = .next u → t.err ≠ .state ∧ { u with mac := t.mac } = t

/-- 40_command.md R164: the length limits of CHACHA_XOR, AEAD_SEAL and AEAD_OPEN; no other command has one. -/
def Obligations.LengthLimits : Prop :=
  ∀ s t : State,
    (exec .chachaXor s = .next t → (t.err = .length ↔ s.x.len.toNat > 0xFFFFFFFE)) ∧
    (exec .aeadSeal s = .next t → (t.err = .length ↔ s.x.len.toNat > 0xFFFFFFEE)) ∧
    (exec .aeadOpen s = .next t → (t.err = .length ↔ s.x.len.toNat < 16)) ∧
    ∀ i : Instr, i ≠ .chachaXor → i ≠ .aeadSeal → i ≠ .aeadOpen → exec i s = .next t → t.err ≠ .length

/-- 40_command.md R165: a command whose earlier checks pass reports RANGE exactly when some input or output range of
30_encoding.md R134 is non-empty and not inside system memory, AEAD_OPEN's tag included. -/
def Obligations.RangeCheck : Prop :=
  ∀ s t : State,
    let fits := fun (p : Word) (n : Nat) => n = 0 ∨ p.toNat + n ≤ 2 ^ s.params.addrW
    let n := s.x.len.toNat
    (exec .chachaXor s = .next t → n ≤ 0xFFFFFFFE →
      (t.err = .range ↔ ¬(fits s.x.src n ∧ fits s.x.dst n ∧ fits s.x.key 32 ∧ fits s.x.nonce 12))) ∧
    (exec .polyInit s = .next t → (t.err = .range ↔ ¬fits s.x.key 32)) ∧
    (exec .polyUpdate s = .next t → s.mac.pstate = .accum → (t.err = .range ↔ ¬fits s.x.src n)) ∧
    (exec .polyFinish s = .next t → s.mac.pstate = .accum → (t.err = .range ↔ ¬fits s.x.dst 16)) ∧
    (exec .aeadSeal s = .next t → n ≤ 0xFFFFFFEE →
      (t.err = .range ↔ ¬(fits s.x.src n ∧ fits s.x.dst (n + 16) ∧ fits s.x.key 32 ∧ fits s.x.nonce 12 ∧
        fits s.x.aad s.x.aadLen.toNat))) ∧
    (exec .aeadOpen s = .next t → 16 ≤ n →
      (t.err = .range ↔ ¬(fits s.x.src n ∧ fits s.x.dst (n - 16) ∧ fits s.x.key 32 ∧ fits s.x.nonce 12))) ∧
    ∀ c, exec (.x25519 c) s = .next t → (t.err = .range ↔ ¬(fits s.x.src 32 ∧ fits s.x.dst 32 ∧ fits s.x.key 32))

/-- 40_command.md R166 with 20_memory.md R100: which ranges are compared for overlap, on commands whose earlier checks
pass; the associated data has no same-start exemption, and the other commands have no overlap check. -/
def Obligations.OverlapCheck : Prop :=
  ∀ s t : State,
    let meet := fun (a la b lb : Nat) => 0 < la ∧ 0 < lb ∧ a < b + lb ∧ b < a + la
    let n := s.x.len.toNat
    let src := s.x.src.toNat
    let dst := s.x.dst.toNat
    (exec .chachaXor s = .next t → t.err ≠ .length → t.err ≠ .range →
      (t.err = .overlap ↔ meet src n dst n ∧ src ≠ dst)) ∧
    (exec .aeadSeal s = .next t → t.err ≠ .length → t.err ≠ .range →
      (t.err = .overlap ↔ meet src n dst (n + 16) ∧ src ≠ dst ∨
        meet s.x.aad.toNat s.x.aadLen.toNat dst (n + 16))) ∧
    (exec .aeadOpen s = .next t → t.err ≠ .length → t.err ≠ .range →
      (t.err = .overlap ↔ meet src n dst (n - 16) ∧ src ≠ dst)) ∧
    ∀ i : Instr, i ≠ .chachaXor → i ≠ .aeadSeal → i ≠ .aeadOpen → exec i s = .next t → t.err ≠ .overlap

/-- 40_command.md R168: a command that fails a check changes the completion fields and nothing else: no part of the MAC
context, and no memory byte but the output bytes that another agent raced, which are free values (20_memory.md R113 (b);
only those below 2^ADDR_W: log entry 6). -/
def Obligations.FailedCheckChangesNothingElse : Prop :=
  ∀ (i : Instr) (s t : State), s.mem.wf → exec i s = .next t → t.err ≠ .ok → t.err ≠ .bus →
    CompletesWith t.err 0xFFFFFFFF#32 false t ∧ t.mac = s.mac ∧ KeepsRegisters s t ∧
    (s.raced = [] → t.mem = s.mem) ∧
    ∀ a, t.mem.read a =
      if a ∈ s.raced ∧ inside (outputRange i s.x) a = true ∧ a < 2 ^ s.params.addrW then
        Config.freeByte s.draw .output a
      else s.mem.read a

/-- 20_memory.md R98, 60_exceptions.md R401: a command that passes its checks and accesses an inadmissible byte (a read
byte, or an output byte; the tag AEAD_OPEN does not read is none) completes with BUS; its output bytes are free values
and all other bytes are unchanged. -/
def Obligations.BusErrorFreesOutputRange : Prop :=
  ∀ (i : Instr) (s : State) (r : Range) (a : Nat), s.mem.wf → s.preCheck i = none →
    r ∈ outputRange i s.x :: readRanges i s.x → inside r a = true → memAdmits s.params a = false →
    ∃ t, exec i s = .next t ∧ CompletesWith .bus 0xFFFFFFFF#32 false t ∧ KeepsRegisters s t ∧
      MemoryKeptOutside (outputRange i s.x) s t ∧
      ∀ b, inside (outputRange i s.x) b = true → t.mem.read b = Config.freeByte s.draw .output b

/-- 42_poly1305.md R258: a MAC command that ends with BUS leaves pstate UNINIT, so a later POLY_UPDATE or POLY_FINISH on
that context is rejected with STATE and changes nothing of it; POLY_FINISH's tag bytes are free values. -/
def Obligations.BusErrorDiscardsMacContext : Prop :=
  ∀ (i : Instr) (s t : State), i = .polyInit ∨ i = .polyUpdate ∨ i = .polyFinish → s.mem.wf →
    exec i s = .next t → t.err = .bus →
    t.mac.pstate = .uninit ∧
    (i = .polyFinish → ∀ j, j < 16 → t.mem.read (s.x.dst.toNat + j) = Config.freeByte s.draw .output (s.x.dst.toNat + j)) ∧
    ∀ (k : Instr) (u : State), k = .polyUpdate ∨ k = .polyFinish → u.mac = t.mac →
      ∃ v, exec k u = .next v ∧ v.err = .state ∧ v.mac = u.mac

/-! ### What each command computes -/

/-- 41_chacha20.md R210: with valid lengths and ranges, no partial overlap and undisturbed memory, CHACHA_XOR completes
with OK and RESULT = n, each output byte is the input byte xor its keystream byte (block j / 64, byte j mod 64), and
nothing else changes. -/
def Obligations.ChachaXorResult : Prop :=
  ∀ s : State, s.mem.wf → s.Undisturbed .chachaXor → s.x.len.toNat ≤ 0xFFFFFFFE →
    inRange s.params (rangeAt s.x.src s.x.len.toNat) = true → inRange s.params (rangeAt s.x.dst s.x.len.toNat) = true →
    inRange s.params (rangeAt s.x.key 32) = true → inRange s.params (rangeAt s.x.nonce 12) = true →
    overlap (rangeAt s.x.src s.x.len.toNat) (rangeAt s.x.dst s.x.len.toNat) = false →
    ∃ t, exec .chachaXor s = .next t ∧
      (∀ j, j < s.x.len.toNat → t.mem.read (s.x.dst.toNat + j) = s.mem.read (s.x.src.toNat + j) ^^^
        (chachaBlock (s.mem.bytes s.x.key.toNat 32) (s.x.ctr + BitVec.ofNat 32 (j / 64))
          (s.mem.bytes s.x.nonce.toNat 12)).getD (j % 64) 0) ∧
      MemoryKeptOutside (rangeAt s.x.dst s.x.len.toNat) s t ∧
      CompletesWith .ok s.x.len false t ∧ t.mac = s.mac ∧ KeepsRegisters s t

/-- 42_poly1305.md R245 with R241: POLY_INIT completes in every pstate, with r and pad from the key, an empty
computation and ACCUM; it writes no memory. It ends what a race did to the tags (20_memory.md R113): the field `anyTag`
that says so is the model's own (log entry 27). -/
def Obligations.PolyInitResult : Prop :=
  ∀ s : State, s.Undisturbed .polyInit → inRange s.params (rangeAt s.x.key 32) = true →
    ∃ t, exec .polyInit s = .next t ∧
      t.mac.pstate = .accum ∧ t.mac.acc = 0 ∧ t.mac.buf = [] ∧ t.mac.final = false ∧ t.mac.anyTag = false ∧
      t.mac.r = BitVec.ofNat 128 (leNat (s.mem.bytes s.x.key.toNat 16)) &&& 0x0ffffffc0ffffffc0ffffffc0fffffff#128 ∧
      t.mac.pad = BitVec.ofNat 128 (leNat (s.mem.bytes (s.x.key.toNat + 16) 16)) ∧
      (∀ a, t.mem.read a = s.mem.read a) ∧ CompletesWith .ok 0#32 false t ∧ KeepsRegisters s t

/-- 42_poly1305.md R250: POLY_UPDATE in ACCUM absorbs the full 16-byte blocks of buf || D, each with 2^128 added, and
buffers the rest; it writes no memory, and leaves the model's own field `anyTag` (20_memory.md R113, log entry 27). -/
def Obligations.PolyUpdateResult : Prop :=
  ∀ s : State, s.Undisturbed .polyUpdate → s.mac.pstate = .accum →
    inRange s.params (rangeAt s.x.src s.x.len.toNat) = true →
    let m := s.mac.buf ++ s.mem.bytes s.x.src.toNat s.x.len.toNat
    let q := m.length / 16
    ∃ t, exec .polyUpdate s = .next t ∧
      t.mac.acc = (List.range q).foldl
        (fun acc i => ((acc + leNat ((m.drop (16 * i)).take 16) + 2 ^ 128) * s.mac.r.toNat) % (2 ^ 130 - 5)) s.mac.acc ∧
      t.mac.buf = m.drop (16 * q) ∧ t.mac.pstate = .accum ∧
      t.mac.r = s.mac.r ∧ t.mac.pad = s.mac.pad ∧ t.mac.final = s.mac.final ∧ t.mac.anyTag = s.mac.anyTag ∧
      (∀ a, t.mem.read a = s.mem.read a) ∧ CompletesWith .ok 0#32 false t ∧ KeepsRegisters s t

/-- 42_poly1305.md R255 with R244: POLY_FINISH in ACCUM absorbs a buffered partial block with 0x01 and zeros appended
and no 2^128, writes the tag, and leaves FINAL with an empty buffer. Where a race left the accumulator unspecified the 16
bytes are free values (20_memory.md R113): the field `anyTag` that says so is the model's own (log entry 27). -/
def Obligations.PolyFinishResult : Prop :=
  ∀ s : State, s.mem.wf → s.Undisturbed .polyFinish → s.mac.pstate = .accum →
    inRange s.params (rangeAt s.x.dst 16) = true →
    let acc := if s.mac.buf = [] then s.mac.acc else
      ((s.mac.acc + leNat (s.mac.buf ++ 0x01#8 :: List.replicate (15 - s.mac.buf.length) 0#8)) * s.mac.r.toNat) %
        (2 ^ 130 - 5)
    ∃ t, exec .polyFinish s = .next t ∧
      (s.mac.anyTag = false →
        t.mem.bytes s.x.dst.toNat 16 = leBytes 16 ((acc + s.mac.pad.toNat) % 2 ^ 128)) ∧
      (s.mac.anyTag = true → ∀ j, j < 16 →
        t.mem.read (s.x.dst.toNat + j) = Config.freeByte s.draw .output (s.x.dst.toNat + j)) ∧
      MemoryKeptOutside (rangeAt s.x.dst 16) s t ∧
      t.mac = { s.mac with
        pstate := .final, acc := acc, buf := [], final := s.mac.final || decide (s.mac.buf ≠ []) } ∧
      CompletesWith .ok 16#32 false t ∧ KeepsRegisters s t

/-- 43_aead.md R294 with R290 to R292: AEAD_SEAL writes the ciphertext (keystream from block counter 1) and then the
tag of MacData under the one-time key (the first 32 bytes of block 0); RESULT is n + 16 and the persistent MAC context
is untouched. -/
def Obligations.AeadSealResult : Prop :=
  ∀ s : State, s.mem.wf → s.Undisturbed .aeadSeal → s.x.len.toNat ≤ 0xFFFFFFEE →
    inRange s.params (rangeAt s.x.src s.x.len.toNat) = true →
    inRange s.params (rangeAt s.x.dst (s.x.len.toNat + 16)) = true →
    inRange s.params (rangeAt s.x.key 32) = true → inRange s.params (rangeAt s.x.nonce 12) = true →
    inRange s.params (rangeAt s.x.aad s.x.aadLen.toNat) = true →
    overlap (rangeAt s.x.src s.x.len.toNat) (rangeAt s.x.dst (s.x.len.toNat + 16)) = false →
    intersect (rangeAt s.x.aad s.x.aadLen.toNat) (rangeAt s.x.dst (s.x.len.toNat + 16)) = false →
    let n := s.x.len.toNat
    let key := s.mem.bytes s.x.key.toNat 32
    let nonce := s.mem.bytes s.x.nonce.toNat 12
    let aad := s.mem.bytes s.x.aad.toNat s.x.aadLen.toNat
    let zeros := fun k : Nat => List.replicate ((16 - k % 16) % 16) 0#8
    ∃ t, exec .aeadSeal s = .next t ∧
      (∀ j, j < n → t.mem.read (s.x.dst.toNat + j) = s.mem.read (s.x.src.toNat + j) ^^^
        (chachaBlock key (1#32 + BitVec.ofNat 32 (j / 64)) nonce).getD (j % 64) 0) ∧
      t.mem.bytes (s.x.dst.toNat + n) 16 =
        (let c := t.mem.bytes s.x.dst.toNat n
         poly1305 ((chachaBlock key 0#32 nonce).take 32)
          (aad ++ zeros aad.length ++ c ++ zeros n ++ leBytes 8 aad.length ++ leBytes 8 n)) ∧
      MemoryKeptOutside (rangeAt s.x.dst (n + 16)) s t ∧
      CompletesWith .ok (s.x.len + 16#32) false t ∧ t.mac = s.mac ∧ KeepsRegisters s t

/-- 43_aead.md R297, R296: AEAD_OPEN of L bytes writes the L - 16 plaintext bytes (keystream from block counter 1) and
completes with OK whatever the tag bytes are; the persistent MAC context is untouched. -/
def Obligations.AeadOpenResult : Prop :=
  ∀ s : State, s.mem.wf → s.Undisturbed .aeadOpen → 16 ≤ s.x.len.toNat →
    inRange s.params (rangeAt s.x.src s.x.len.toNat) = true →
    inRange s.params (rangeAt s.x.dst (s.x.len.toNat - 16)) = true →
    inRange s.params (rangeAt s.x.key 32) = true → inRange s.params (rangeAt s.x.nonce 12) = true →
    overlap (rangeAt s.x.src s.x.len.toNat) (rangeAt s.x.dst (s.x.len.toNat - 16)) = false →
    ∃ t, exec .aeadOpen s = .next t ∧
      (∀ j, j < s.x.len.toNat - 16 → t.mem.read (s.x.dst.toNat + j) = s.mem.read (s.x.src.toNat + j) ^^^
        (chachaBlock (s.mem.bytes s.x.key.toNat 32) (1#32 + BitVec.ofNat 32 (j / 64))
          (s.mem.bytes s.x.nonce.toNat 12)).getD (j % 64) 0) ∧
      MemoryKeptOutside (rangeAt s.x.dst (s.x.len.toNat - 16)) s t ∧
      CompletesWith .ok (s.x.len - 16#32) false t ∧ t.mac = s.mac ∧ KeepsRegisters s t

/-- 44_x25519.md R348: X25519, for either CLAMP bit, writes the 32 bytes of `x2 * inv(z2)` after the ladder on the
scalar and the decoded point, completes with OK and RESULT = 32 (a degenerate result is no error), and DIAG is the
parameter's value for the result. -/
def Obligations.X25519Result : Prop :=
  ∀ (clamp : Bool) (s : State), s.mem.wf → s.Undisturbed (.x25519 clamp) →
    inRange s.params (rangeAt s.x.src 32) = true → inRange s.params (rangeAt s.x.dst 32) = true →
    inRange s.params (rangeAt s.x.key 32) = true →
    let k := s.mem.bytes s.x.key.toNat 32
    let u := s.mem.bytes s.x.src.toNat 32
    let L := runLadder (leNat (if clamp then clampScalar k else k)) (leNat u % 2 ^ 255)
    ∃ t, exec (.x25519 clamp) s = .next t ∧
      t.mem.bytes s.x.dst.toNat 32 = leBytes 32 ((L.x2 * fInv L.z2) % (2 ^ 255 - 19)) ∧
      MemoryKeptOutside (rangeAt s.x.dst 32) s t ∧
      CompletesWith .ok 32#32 (decide ((clamp, t.mem.bytes s.x.dst.toNat 32) ∈ s.params.diagOn)) t ∧
      t.mac = s.mac ∧ KeepsRegisters s t

/-- 40_command.md R170, 10_state.md R44, 20_memory.md R93: the frame of every command, however it ends: it leaves the
registers the host owns, CMD and the latched arguments alone, is idle with DONE set and no transient state, and changes
no byte outside its output range. -/
def Obligations.EveryCommandCompletesInItsFrame : Prop :=
  ∀ (i : Instr) (s : State), s.mem.wf → ∃ t, exec i s = .next t ∧
    KeepsRegisters s t ∧ CompletesWith t.err t.result t.diag t ∧ MemoryKeptOutside (outputRange i s.x) s t ∧
    (t.diag = true → t.err = .ok ∧ ∃ c, i = .x25519 c)

/-- 40_command.md R172: RESULT is the sentinel exactly after a failed command, and every success value is below it. -/
def Obligations.SentinelMarksFailedCommands : Prop :=
  ∀ (i : Instr) (s t : State), exec i s = .next t →
    (t.result = 0xFFFFFFFF#32 ↔ t.err ≠ .ok) ∧ (t.err = .ok → t.result.toNat ≤ 0xFFFFFFFE)

/-! ### The Polynomial MAC -/

/-- 42_poly1305.md R240: the state machine of the persistent context, every state and MAC command; POLY_INIT makes the
context fresh, the model's own field `anyTag` included (20_memory.md R113, log entry 27). -/
def Obligations.PolyStateTransitions : Prop :=
  ∀ s t : State,
    (exec .polyInit s = .next t → t.err = .ok →
      t.mac.pstate = .accum ∧ t.mac.acc = 0 ∧ t.mac.buf = [] ∧ t.mac.final = false ∧ t.mac.anyTag = false) ∧
    (exec .polyUpdate s = .next t → (s.mac.pstate = .accum → t.err = .ok → t.mac.pstate = .accum) ∧
      (s.mac.pstate ≠ .accum → t.err = .state ∧ t.mac = s.mac)) ∧
    (exec .polyFinish s = .next t → (s.mac.pstate = .accum → t.err = .ok → t.mac.pstate = .final) ∧
      (s.mac.pstate ≠ .accum → t.err = .state ∧ t.mac = s.mac)) ∧
    ∀ i : Instr, i = .polyInit ∨ i = .polyUpdate ∨ i = .polyFinish → exec i s = .next t →
      (t.err = .bus → t.mac.pstate = .uninit) ∧ (t.err ≠ .bus → t.err ≠ .ok → t.mac.pstate = s.mac.pstate)

/-- 43_aead.md R293: AEAD_SEAL and AEAD_OPEN neither change nor read the persistent MAC context (nor do CHACHA_XOR and
X25519): with any other context there, everything else comes out the same. -/
def Obligations.AeadIsolatesMacContext : Prop :=
  ∀ (i : Instr) (s t : State), i ≠ .polyInit → i ≠ .polyUpdate → i ≠ .polyFinish → exec i s = .next t →
    t.mac = s.mac ∧ ∀ m : MacContext, exec i { s with mac := m } = .next { t with mac := m }

/-- 10_state.md R70, 42_poly1305.md R258: with pstate UNINIT no command lets anyone see the context's values: two states
that differ only in them give next states that differ only in them, and a successful POLY_INIT makes even those equal. -/
def Obligations.UninitMacValuesUnobservable : Prop :=
  ∀ (i : Instr) (s t u : State) (m : MacContext), s.mac.pstate = .uninit → m.pstate = .uninit →
    exec i s = .next t → exec i { s with mac := m } = .next u →
    { u with mac := t.mac } = t ∧ u.mac.pstate = t.mac.pstate ∧ (i = .polyInit → t.err = .ok → u.mac = t.mac)

/-- 42_poly1305.md R260: whatever the chunking into POLY_UPDATE commands (any lengths, zero included), the tag that a
successful POLY_FINISH writes is `Poly1305(k, m)` of R261. -/
def Obligations.TagIndependentOfChunking : Prop :=
  ∀ (key m : List Byte) (c : MacContext) (s t : State), MacStream key c m → s.mac = c → s.mem.wf →
    s.Undisturbed .polyFinish → exec .polyFinish s = .next t → t.err = .ok →
    t.mem.bytes s.x.dst.toNat 16 = poly1305 key m

/-- 42_poly1305.md R263 with R261: the limb realisation (five limbs in 26-bit radix, carries, masked canonicalisation)
computes the one-shot function, for every key and message. That its products and carries are natural numbers, apart from
`exec`, is the model's choice (log entry 22). -/
def Obligations.LimbRealisationConforms : Prop := ∀ key m : List Byte, limbPoly1305 key m = poly1305 key m

/-! ### Stream cipher and AEAD -/

/-- 41_chacha20.md R211: a second CHACHA_XOR with the same key, nonce and counter over the first's output gives the
first's input back. -/
def Obligations.ChachaXorTwiceRestoresInput : Prop :=
  ∀ s t u v : State, s.mem.wf → s.Undisturbed .chachaXor → exec .chachaXor s = .next t → t.err = .ok →
    u.mem.wf → u.Undisturbed .chachaXor →
    u.mem.bytes u.x.src.toNat u.x.len.toNat = t.mem.bytes s.x.dst.toNat s.x.len.toNat →
    u.mem.bytes u.x.key.toNat 32 = s.mem.bytes s.x.key.toNat 32 →
    u.mem.bytes u.x.nonce.toNat 12 = s.mem.bytes s.x.nonce.toNat 12 →
    u.x.ctr = s.x.ctr → u.x.len = s.x.len →
    exec .chachaXor u = .next v → v.err = .ok →
    v.mem.bytes u.x.dst.toNat u.x.len.toNat = s.mem.bytes s.x.src.toNat s.x.len.toNat

/-- 41_chacha20.md R212: CHACHA_XOR's output is a function of the key, nonce, initial counter and input bytes alone,
whatever the MAC context, the registers and the rest of memory hold. -/
def Obligations.ChachaXorDeterminedByItsInputs : Prop :=
  ∀ s t u v : State, s.mem.wf → u.mem.wf → s.Undisturbed .chachaXor → u.Undisturbed .chachaXor →
    exec .chachaXor s = .next t → exec .chachaXor u = .next v → t.err = .ok → v.err = .ok →
    s.x.len = u.x.len → s.x.ctr = u.x.ctr →
    s.mem.bytes s.x.key.toNat 32 = u.mem.bytes u.x.key.toNat 32 →
    s.mem.bytes s.x.nonce.toNat 12 = u.mem.bytes u.x.nonce.toNat 12 →
    s.mem.bytes s.x.src.toNat s.x.len.toNat = u.mem.bytes u.x.src.toNat u.x.len.toNat →
    t.mem.bytes s.x.dst.toNat s.x.len.toNat = v.mem.bytes u.x.dst.toNat u.x.len.toNat

/-- 43_aead.md R298: AEAD_OPEN over what AEAD_SEAL wrote, with the same key and nonce, writes the plaintext, with
RESULT its length. -/
def Obligations.OpenAfterSealRestoresPlaintext : Prop :=
  ∀ s t u v : State, s.mem.wf → s.Undisturbed .aeadSeal → exec .aeadSeal s = .next t → t.err = .ok →
    u.mem.wf → u.Undisturbed .aeadOpen → u.x.len = t.result →
    u.mem.bytes u.x.src.toNat u.x.len.toNat = t.mem.bytes s.x.dst.toNat (s.x.len.toNat + 16) →
    u.mem.bytes u.x.key.toNat 32 = s.mem.bytes s.x.key.toNat 32 →
    u.mem.bytes u.x.nonce.toNat 12 = s.mem.bytes s.x.nonce.toNat 12 →
    exec .aeadOpen u = .next v → v.err = .ok →
    v.mem.bytes u.x.dst.toNat s.x.len.toNat = s.mem.bytes s.x.src.toNat s.x.len.toNat ∧ v.result = s.x.len

/-- 43_aead.md R299: AEAD_OPEN's output depends only on key, nonce and the first L - 16 input bytes, and a change of an
input byte changes the output byte at the same place by the same exclusive-or and nothing else; the tag bytes play no
part. -/
def Obligations.OpenIsTamperInsensitive : Prop :=
  ∀ s t u v : State, s.mem.wf → u.mem.wf → s.Undisturbed .aeadOpen → u.Undisturbed .aeadOpen →
    exec .aeadOpen s = .next t → exec .aeadOpen u = .next v → t.err = .ok → v.err = .ok → s.x.len = u.x.len →
    s.mem.bytes s.x.key.toNat 32 = u.mem.bytes u.x.key.toNat 32 →
    s.mem.bytes s.x.nonce.toNat 12 = u.mem.bytes u.x.nonce.toNat 12 →
    t.result = v.result ∧ ∀ j, j < s.x.len.toNat - 16 →
      t.mem.read (s.x.dst.toNat + j) ^^^ v.mem.read (u.x.dst.toNat + j) =
        s.mem.read (s.x.src.toNat + j) ^^^ u.mem.read (u.x.src.toNat + j)

/-! ### X25519 -/

/-- 44_x25519.md R344: clamping clears scalar bits 0, 1, 2 and 255, sets bit 254 and keeps every other bit; with
CLAMP = 0 the scalar is unchanged. -/
def Obligations.ScalarClamping : Prop :=
  ∀ k : List Byte, k.length = 32 →
    (∀ b, (scalarOf true k).testBit b =
      if b < 3 ∨ 255 ≤ b then false else if b = 254 then true else (leNat k).testBit b) ∧
    scalarOf false k = leNat k

/-- 44_x25519.md R345: bit 255 of the point is ignored and a non-canonical coordinate acts as its residue: points equal
modulo p255 after masking give the same result. -/
def Obligations.PointBit255AndNonCanonicalIgnored : Prop :=
  ∀ (clamp : Bool) (k u v : List Byte),
    leNat u % 2 ^ 255 % (2 ^ 255 - 19) = leNat v % 2 ^ 255 % (2 ^ 255 - 19) →
    x25519Bytes clamp k u = x25519Bytes clamp k v

/-- 44_x25519.md R346, 90_conflicts.md C1: with CLAMP = 0 scalar bit 255 is never read. -/
def Obligations.RawScalarBit255Ignored : Prop :=
  ∀ k k' u : List Byte, leNat k % 2 ^ 255 = leNat k' % 2 ^ 255 → x25519Bytes false k u = x25519Bytes false k' u

/-- 44_x25519.md R347 with R341: the result is `x2 * z2^(p255-2) mod p255`, canonical, so bit 255 of the output is 0;
with z2 = 0 it is 32 zero bytes. -/
def Obligations.LadderResultIsCanonical : Prop :=
  ∀ L : LadderState,
    L.encoded = leBytes 32 ((L.x2 * (L.z2 ^ (2 ^ 255 - 21) % (2 ^ 255 - 19))) % (2 ^ 255 - 19)) ∧
    leNat L.encoded < 2 ^ 255 - 19 ∧ (L.encoded.getD 31 0).getLsbD 7 = false ∧
    (L.z2 % (2 ^ 255 - 19) = 0 → L.encoded = List.replicate 32 0#8)

/-! ### The whole machine -/

/-- From 30_encoding.md R140: each pseudo-instruction, run from an idle block out of reset, leaves what the writes of its
expansion leave: the command scripts write their arguments and issue their word, the others do what their write does. -/
def Obligations.HostScriptsExpand : Prop :=
  ∀ (s : State) (a b c d e f g : Word) (cl : Bool) (ts : List Turn), s.phase = .idle → s.resetLine = false →
    let run := fun (script : List Turn) =>
      Host.Core.run Sys2Proof.core script.length { s with turns := script ++ ts }
    let issued := fun (x : Args) (w : Word) => (Host.Outcome.next
      { State.issue w { s with args := x } with turns := ts, response := .written } :
        Host.Outcome State Fault Refusal)
    run (scriptChachaXor s.params a b c d e f) =
      issued { s.args with dst := a, src := b, len := c, key := d, nonce := e, ctr := f } 0x00000001#32 ∧
    run (scriptPolyInit s.params a) = issued { s.args with key := a } 0x00000010#32 ∧
    run (scriptPolyUpdate s.params a b) = issued { s.args with src := a, len := b } 0x00000011#32 ∧
    run (scriptPolyFinish s.params a) = issued { s.args with dst := a } 0x00000012#32 ∧
    run (scriptSeal s.params a b c d e f g) =
      issued { s.args with dst := a, src := b, len := c, key := d, nonce := e, aad := f, aadLen := g } 0x00000020#32 ∧
    run (scriptOpen s.params a b c d e) =
      issued { s.args with dst := a, src := b, len := c, key := d, nonce := e } 0x00000021#32 ∧
    run (scriptX25519 s.params a b c cl) =
      issued { s.args with dst := a, src := b, key := c } (if cl then 0x00000130#32 else 0x00000030#32) ∧
    run (scriptX25519Pub s.params a b c) = issued { s.args with dst := a, src := c, key := b } 0x00000130#32 ∧
    run (scriptAck s.params) = .next { s with turns := ts, response := .written, done := false } ∧
    run (scriptAckOvr s.params) = .next { s with turns := ts, response := .written, cmdOvr := false } ∧
    run (scriptIrqOn s.params) = .next { s with turns := ts, response := .written, ie := true } ∧
    run (scriptIrqOff s.params) = .next { s with turns := ts, response := .written, ie := false } ∧
    run (scriptSrst s.params) = .next { s.resetBlock with turns := ts, response := .written }

/-- 00_scope.md R17, 20_memory.md R99: reading a byte after a write of a byte string gives the string's byte inside the
written addresses and the old byte outside them, and the canonical form is kept. -/
def Obligations.MemoryReadsWhatWasWritten : Prop :=
  ∀ (m : Memory) (a b : Nat) (v : List Byte), m.wf →
    (m.writeBytes a v).wf ∧
    (m.writeBytes a v).read b = if a ≤ b ∧ b < a + v.length then v.getD (b - a) 0 else m.read b

/-- The canonical form is canonical: memories in it that read alike at every address are equal data. -/
def Obligations.CanonicalMemoriesThatReadAlikeAreEqual : Prop :=
  ∀ m n : Memory, m.wf → n.wf → (∀ a, m.read a = n.read a) → m = n

/-- `State.reset` meets the invariant. -/
def Obligations.ResetMeetsInvariant : Prop := State.reset.Inv

/-- From every state that meets the invariant, every step, of whichever agent, gives a state that meets it: memory
canonical and inside 2^ADDR_W bytes, the accumulator canonical, r clamped, at most 15 buffered bytes, DONE, ERR, DIAG
and RESULT 0 while BUSY, the sentinel exactly with an error, DIAG only after a successful X25519, no transient state,
races only about the command in flight. -/
def Obligations.EveryStepKeepsInvariant : Prop :=
  ∀ s t : State, s.Inv → step s = .next t → t.Inv

/-- 10_state.md R41, R57: a step changes the persistent MAC context only when a MAC command is in flight, or when the
step's access is a reset. And 20_memory.md R113: a context whose tags a race has freed stays so in every step, until a
POLY_INIT, or until it can give no tag (a reset, BUS). -/
def Obligations.MacContextChangesOnlyByMacCommandsAndReset : Prop :=
  ∀ s t : State, step s = .next t →
    (t.mac ≠ s.mac →
      (s.phase = .busy ∧ (decode s.cmdword = some .polyInit ∨ decode s.cmdword = some .polyUpdate ∨
        decode s.cmdword = some .polyFinish)) ∨
      ∃ a ts, (s.turns = .access a :: ts ∨ s.turns = .accessThenEngine a :: ts) ∧ a.resets s = true) ∧
    (s.mac.anyTag = true → t.mac.anyTag = false →
      (s.phase = .busy ∧ decode s.cmdword = some .polyInit) ∨ t.mac.pstate = .uninit)

/-- 20_memory.md R96, R111 to R113, 40_command.md R174: a command in flight gives the same result however long it takes
and whatever the other agents do meanwhile, as long as each access keeps the host's obligations R460, R461 and R464 and
none is a reset: the output bytes, ERR, RESULT, DIAG and the MAC context are those of completing at once, and every
other byte is as the agents left it. Where the spec says any value (BUS, raced or not idempotent bytes) the equality rests
on both completions being the same drawing event, the model's choice (log entry 5). -/
def Obligations.ObeyingAccessesDoNotChangeTheResult : Prop :=
  ∀ (s t u v : State) (i : Instr), s.mem.wf → s.phase = .busy → decode s.cmdword = some i → ObeyingAccesses s t →
    engineStep s = .next u → engineStep t = .next v →
    v.err = u.err ∧ v.result = u.result ∧ v.diag = u.diag ∧ v.mac = u.mac ∧ v.done = true ∧ v.phase = .idle ∧
    (∀ a, inside (outputRange i s.x) a = true → v.mem.read a = u.mem.read a) ∧
    ∀ a, inside (outputRange i s.x) a = false → v.mem.read a = t.mem.read a
end

