-- ==== Sys2Proof/Laws/Bytes.lean ====
section
/-! SUPPORT. Byte strings: lengths, the little-endian conversions and their inverse, exclusive-or. -/

namespace Sys2Proof.Machine

@[simp] theorem leBytes_length (n v : Nat) : (leBytes n v).length = n := by
  induction n generalizing v with
  | zero => rfl
  | succ n ih => simp [leBytes, ih]

theorem leNat_lt (b : List Byte) : leNat b < 256 ^ b.length := by
  induction b with
  | nil => simp [leNat]
  | cons x b ih =>
    have := x.isLt
    simp only [leNat, List.length_cons, pow_succ]
    omega

/-- `LE(le_n(v)) = v mod 256^n` (00_scope.md R15). -/
theorem leNat_leBytes (n v : Nat) : leNat (leBytes n v) = v % 256 ^ n := by
  induction n generalizing v with
  | zero => simp [leBytes, leNat, Nat.mod_one]
  | succ n ih =>
    have : v % 256 ^ (n + 1) = v % 256 + 256 * (v / 256 % 256 ^ n) := by
      rw [Nat.pow_succ', Nat.mod_mul]
    rw [leBytes, leNat, ih, BitVec.toNat_ofNat, this]

theorem leNat_append (a b : List Byte) : leNat (a ++ b) = leNat a + 256 ^ a.length * leNat b := by
  induction a with
  | nil => simp [leNat]
  | cons x a ih => simp only [List.cons_append, leNat, ih, List.length_cons, pow_succ]; ring

@[simp] theorem leNat_zeros (n : Nat) : leNat (List.replicate n 0#8) = 0 := by
  induction n with
  | zero => rfl
  | succ n ih => simp [List.replicate_succ, leNat, ih]

@[simp] theorem xorBytes_length (a b : List Byte) : (xorBytes a b).length = min a.length b.length := by
  simp [xorBytes]

theorem xorBytes_getElem (a b : List Byte) (j : Nat) (h : j < (xorBytes a b).length) :
    (xorBytes a b)[j] = a[j]'(by simp at h; omega) ^^^ b[j]'(by simp at h; omega) := by
  simp [xorBytes]

/-! ### Keystream lengths (41_chacha20.md R204, R205) -/

theorem leWords_length (ws : List Word) : (ws.flatMap fun w => leBytes 4 w.toNat).length = 4 * ws.length := by
  induction ws with
  | nil => rfl
  | cons w ws ih => simp only [List.flatMap_cons, List.length_append, leBytes_length, ih, List.length_cons]; omega

@[simp] theorem chachaBlock_length (key nonce : List Byte) (c : Word) : (chachaBlock key c nonce).length = 64 := by
  simp only [chachaBlock, runCipher, leWords_length, Vector.length_toList]

@[simp] theorem keystreamBlocks_length (key nonce : List Byte) (n : Nat) (c : Word) :
    (keystreamBlocks key nonce n c).length = 64 * n := by
  induction n generalizing c with
  | zero => rfl
  | succ n ih => simp [keystreamBlocks, ih]; omega

@[simp] theorem keystream_length (key nonce : List Byte) (c : Word) (n : Nat) :
    (keystream key nonce c n).length = n := by
  simp [keystream]; omega

@[simp] theorem payloadXor_length (key nonce p : List Byte) : (payloadXor key nonce p).length = p.length := by
  simp [payloadXor]

@[simp] theorem tagOf_length (acc : Nat) (pad : BitVec 128) : (tagOf acc pad).length = 16 := by simp [tagOf]

@[simp] theorem poly1305_length (key m : List Byte) : (poly1305 key m).length = 16 := by simp [poly1305]

@[simp] theorem sealBytes_length (key nonce aad p : List Byte) :
    (sealBytes key nonce aad p).length = p.length + 16 := by simp [sealBytes]

@[simp] theorem x25519Bytes_length (c : Bool) (k u : List Byte) : (x25519Bytes c k u).length = 32 := by
  simp [x25519Bytes, LadderState.encoded]

/-- Byte j of the keystream blocks is byte j mod 64 of block j / 64 (41_chacha20.md R205). -/
theorem keystreamBlocks_getElem (key nonce : List Byte) (n : Nat) (c : Word) (j : Nat)
    (h : j < (keystreamBlocks key nonce n c).length) :
    (keystreamBlocks key nonce n c)[j] =
      (chachaBlock key (c + BitVec.ofNat 32 (j / 64)) nonce).getD (j % 64) 0 := by
  induction n generalizing c j with
  | zero => simp at h
  | succ n ih =>
    simp only [keystreamBlocks, List.getElem_append, chachaBlock_length]
    simp at h
    split
    · rename_i h64
      rw [Nat.div_eq_of_lt h64, Nat.mod_eq_of_lt h64]
      simp [h64]
    · rename_i h64
      rw [ih (c + 1#32) (j - 64) (by simp; omega)]
      have e1 : (j - 64) / 64 = j / 64 - 1 := by omega
      have e2 : (j - 64) % 64 = j % 64 := by omega
      have e3 : j / 64 = (j / 64 - 1) + 1 := by omega
      rw [e1, e2]
      congr 2
      conv_rhs => rw [e3]
      rw [BitVec.ofNat_add]; ring

/-- Byte j of the keystream (41_chacha20.md R205). -/
theorem keystream_getElem (key nonce : List Byte) (c : Word) (n j : Nat) (h : j < (keystream key nonce c n).length) :
    (keystream key nonce c n)[j] =
      (chachaBlock key (c + BitVec.ofNat 32 (j / 64)) nonce).getD (j % 64) 0 := by
  simp only [keystream, List.getElem_take, keystreamBlocks_getElem]

/-! ### Blocks (42_poly1305.md R250) -/

@[simp] theorem absorbBlocks_zero (r : BitVec 128) (m : List Byte) (acc : Nat) : absorbBlocks r 0 m acc = acc := rfl

theorem absorbBlocks_succ (r : BitVec 128) (q : Nat) (m : List Byte) (acc : Nat) :
    absorbBlocks r (q + 1) m acc =
      absorbBlocks r q (m.drop 16) (absorb r acc (fullBlockValue (m.take 16))) := by
  simp only [absorbBlocks, blocks16, List.foldl_cons]

theorem absorb_lt (r : BitVec 128) (acc n : Nat) : absorb r acc n < p130 := Nat.mod_lt _ (by decide)

theorem absorbBlocks_lt (r : BitVec 128) (q : Nat) (m : List Byte) {acc : Nat} (h : acc < p130) :
    absorbBlocks r q m acc < p130 := by
  unfold absorbBlocks
  generalize blocks16 q m = l
  induction l generalizing acc with
  | nil => exact h
  | cons b l ih => exact ih (absorb_lt _ _ _)

/-! ### Little-endian numbers and positions -/

theorem leNat_take (b : List Byte) (n : Nat) : leNat (b.take n) = leNat b % 256 ^ n := by
  by_cases h : n ≤ b.length
  · conv_rhs => rw [← List.take_append_drop n b, leNat_append]
    have := leNat_lt (b.take n)
    rw [List.length_take, min_eq_left h] at *
    rw [Nat.add_mul_mod_self_left, Nat.mod_eq_of_lt this]
  · rw [List.take_of_length_le (by omega), Nat.mod_eq_of_lt]
    exact lt_of_lt_of_le (leNat_lt b) (Nat.pow_le_pow_right (by decide) (by omega))

theorem leNat_drop (b : List Byte) (n : Nat) : leNat (b.drop n) = leNat b / 256 ^ n := by
  by_cases h : n ≤ b.length
  · conv_rhs => rw [← List.take_append_drop n b, leNat_append]
    have := leNat_lt (b.take n)
    rw [List.length_take, min_eq_left h] at *
    rw [Nat.add_mul_div_left _ _ (by positivity), Nat.div_eq_of_lt this, Nat.zero_add]
  · rw [List.drop_of_length_le (by omega), Nat.div_eq_of_lt]; rfl
    exact lt_of_lt_of_le (leNat_lt b) (Nat.pow_le_pow_right (by decide) (by omega))

theorem leNat_testBit (b : List Byte) (i : Nat) : (leNat b).testBit i = (b.getD (i / 8) 0#8).getLsbD (i % 8) := by
  induction b generalizing i with
  | nil => simp [leNat]
  | cons x b ih =>
    have hx := x.isLt
    rw [leNat, show x.toNat + 256 * leNat b = 2 ^ 8 * leNat b + x.toNat by ring, Nat.testBit_two_pow_mul_add _ hx]
    split
    · rename_i h
      rw [Nat.div_eq_of_lt h, Nat.mod_eq_of_lt h]; rfl
    · rename_i h
      rw [ih, show i / 8 = (i - 8) / 8 + 1 by omega, show i % 8 = (i - 8) % 8 by omega]; rfl

end Sys2Proof.Machine
end

