-- ==== Sys2Proof/Laws/Decode.lean ====
section
/-! SUPPORT. The fields of a word determine it, and the checks of 30_encoding.md R135 as propositions. -/

namespace Sys2Proof

/-- A word is determined by its three fields (30_encoding.md R130). -/
theorem fieldsOf_injective {v w : Word} (h : fieldsOf v = fieldsOf w) : v = w := by
  simp only [fieldsOf, CommandWord.mk.injEq] at h
  obtain ⟨h1, h2, h3⟩ := h
  apply BitVec.eq_of_getLsbD_eq
  intro i hi
  rcases lt_trichotomy i 8 with h | h | h
  · have := congrArg (·.getLsbD i) h1
    simpa [BitVec.getLsbD_extractLsb', h] using this
  · subst h; exact h2
  · have := congrArg (·.getLsbD (i - 9)) h3
    have h' : i - 9 < 23 := by omega
    have h'' : 9 + (i - 9) = i := by omega
    simpa [BitVec.getLsbD_extractLsb', h', h''] using this

/-- The three checks together (30_encoding.md R135). -/
theorem CommandWord.legal_iff (f : CommandWord) :
    f.legal = true ↔
      ((f.opc = 0x01#8 ∨ f.opc = 0x10#8 ∨ f.opc = 0x11#8 ∨ f.opc = 0x12#8 ∨ f.opc = 0x20#8 ∨ f.opc = 0x21#8 ∨
        f.opc = 0x30#8) ∧ f.rsv = 0#23) ∧ (f.clamp = false ∨ f.opc = 0x30#8) := by
  simp [CommandWord.legal, CommandWord.opcLegal, CommandWord.rsvLegal, CommandWord.clampLegal]

end Sys2Proof
end

