-- ==== Sys2Proof/Laws/Memory.lean ====
section
/-! SUPPORT. The laws of system memory: reading after writing, the canonical form kept by every operation, and
canonical memories that read alike being equal data. -/

namespace Sys2Proof.Machine

@[simp] theorem Memory.read_nil (a : Nat) : Memory.read [] a = Memory.unlisted := rfl

/-- The head entry of a canonical memory lies below all the others, and the tail is canonical. -/
theorem Memory.wf_cons {c : Host.Cell} {m : Memory} :
    Memory.wf (c :: m) ↔ (∀ d ∈ m, c.1 < d.1) ∧ c.2 ≠ Memory.unlisted ∧ Memory.wf m := by
  simp only [Memory.wf, List.pairwise_cons, List.forall_mem_cons]
  tauto

/-- An address below every listed one reads as an unlisted address. -/
theorem Memory.read_of_lt {m : Memory} {a : Nat} (h : ∀ c ∈ m, a < c.1) : m.read a = Memory.unlisted := by
  induction m with
  | nil => rfl
  | cons c m ih =>
    obtain ⟨b, w⟩ := c
    have hb : a < b := h (b, w) (by simp)
    have : a ≠ b := by omega
    simp only [Memory.read, if_neg this]
    exact ih fun d hd => h d (by simp [hd])

/-- A written entry is the old one, elsewhere, or the new one. -/
theorem Memory.mem_write {m : Memory} {a : Nat} {v : Byte} {c : Host.Cell} (h : c ∈ m.write a v) :
    c ∈ m ∨ c = (a, v) ∧ v ≠ Memory.unlisted := by
  induction m with
  | nil =>
    simp only [Memory.write] at h
    split at h <;> simp_all
  | cons d m ih =>
    obtain ⟨b, w⟩ := d
    simp only [Memory.write] at h
    split at h
    · split at h <;> simp_all
      rcases h with h | h | h <;> simp_all
    · split at h
      · split at h <;> simp_all
        rcases h with h | h <;> simp_all
      · rcases List.mem_cons.1 h with h | h
        · simp [h]
        · rcases ih h with h | h <;> simp_all

/-- Writing keeps the canonical form. -/
theorem Memory.wf_write {m : Memory} (hm : m.wf) (a : Nat) (v : Byte) : (m.write a v).wf := by
  induction m with
  | nil =>
    simp only [Memory.write]
    split <;> simp_all [Memory.wf]
  | cons d m ih =>
    obtain ⟨b, w⟩ := d
    obtain ⟨hlt, hne, hwf⟩ := Memory.wf_cons.1 hm
    simp only [Memory.write]
    split
    · rename_i hab
      split
      · exact hm
      · rename_i hv
        refine Memory.wf_cons.2 ⟨fun d hd => ?_, hv, hm⟩
        rcases List.mem_cons.1 hd with rfl | hd
        · exact hab
        · exact lt_trans hab (hlt d hd)
    · split
      · rename_i hab
        split
        · exact hwf
        · rename_i hv
          subst hab
          exact Memory.wf_cons.2 ⟨hlt, hv, hwf⟩
      · rename_i h1 h2
        refine Memory.wf_cons.2 ⟨fun d hd => ?_, hne, ih hwf⟩
        rcases Memory.mem_write hd with hd | ⟨rfl, -⟩
        · exact hlt d hd
        · simp only; omega

/-- Reading after writing, in a canonical memory. -/
theorem Memory.read_write {m : Memory} (hm : m.wf) (a b : Nat) (v : Byte) :
    (m.write a v).read b = if b = a then v else m.read b := by
  induction m with
  | nil =>
    simp only [Memory.write]
    by_cases hv : v = Memory.unlisted <;> by_cases hb : b = a <;> simp [hv, hb, Memory.read]
  | cons d m ih =>
    obtain ⟨c, w⟩ := d
    obtain ⟨hlt, hne, hwf⟩ := Memory.wf_cons.1 hm
    simp only [Memory.write]
    by_cases h1 : a < c
    · by_cases hv : v = Memory.unlisted
      · have hlow : Memory.read ((c, w) :: m) a = Memory.unlisted := by
          refine Memory.read_of_lt fun d hd => ?_
          rcases List.mem_cons.1 hd with rfl | hd
          · exact h1
          · exact lt_trans h1 (hlt d hd)
        by_cases hb : b = a
        · subst hb; simp [h1, hv, hlow]
        · simp [h1, hv, hb]
      · by_cases hb : b = a <;> simp [h1, hv, hb, Memory.read]
    · by_cases h2 : a = c
      · subst h2
        by_cases hv : v = Memory.unlisted
        · by_cases hb : b = a
          · subst hb; simp [hv, Memory.read_of_lt hlt]
          · simp [hv, hb, Memory.read]
        · by_cases hb : b = a <;> simp [hv, hb, Memory.read]
      · by_cases hb : b = c
        · subst hb
          have : b ≠ a := fun h => h2 h.symm
          simp [h1, h2, this, Memory.read]
        · simp [h1, h2, hb, Memory.read, ih hwf]

/-- Writing keeps every bound on the listed addresses that the written one meets. -/
theorem Memory.bounded_write {m : Memory} {N a : Nat} {v : Byte} (hm : ∀ c ∈ m, c.1 < N) (ha : a < N) :
    ∀ c ∈ m.write a v, c.1 < N := by
  intro c hc
  rcases Memory.mem_write hc with h | ⟨rfl, -⟩
  · exact hm c h
  · exact ha

theorem Memory.wf_writeBytes {m : Memory} (hm : m.wf) (a : Nat) (vs : List Byte) : (m.writeBytes a vs).wf := by
  induction vs generalizing m a with
  | nil => exact hm
  | cons v vs ih => exact ih (Memory.wf_write hm a v) (a + 1)

theorem Memory.bounded_writeBytes {m : Memory} {N a : Nat} {vs : List Byte} (hm : ∀ c ∈ m, c.1 < N)
    (ha : vs = [] ∨ a + vs.length ≤ N) : ∀ c ∈ m.writeBytes a vs, c.1 < N := by
  induction vs generalizing m a with
  | nil => exact hm
  | cons v vs ih =>
    simp only [List.length_cons, reduceCtorEq, false_or] at ha
    exact ih (Memory.bounded_write hm (by omega)) (by right; omega)

/-- Reading after writing a byte string: its byte inside the written addresses, the old byte outside. -/
theorem Memory.read_writeBytes {m : Memory} (hm : m.wf) (a : Nat) (vs : List Byte) (b : Nat) :
    (m.writeBytes a vs).read b =
      if h : a ≤ b ∧ b < a + vs.length then vs[b - a]'(by omega) else m.read b := by
  induction vs generalizing m a with
  | nil =>
    simp [Memory.writeBytes]
  | cons v vs ih =>
    simp only [Memory.writeBytes, ih (Memory.wf_write hm a v), Memory.read_write hm, List.length_cons]
    by_cases hab : b = a
    · subst hab
      have h2 : b ≤ b ∧ b < b + (vs.length + 1) := by omega
      simp [h2]
    · by_cases h : a + 1 ≤ b ∧ b < a + 1 + vs.length
      · have h2 : a ≤ b ∧ b < a + (vs.length + 1) := by omega
        rw [dif_pos h, dif_pos h2, List.getElem_cons, dif_neg (by omega)]
        congr 1
      · have h2 : ¬(a ≤ b ∧ b < a + (vs.length + 1)) := by omega
        rw [dif_neg h, dif_neg h2, if_neg hab]

/-- Reading a byte of a written string. -/
theorem Memory.read_writeBytes_inside {m : Memory} (hm : m.wf) (a : Nat) (vs : List Byte) (j : Nat)
    (hj : j < vs.length) : (m.writeBytes a vs).read (a + j) = vs[j] := by
  rw [Memory.read_writeBytes hm, dif_pos (by omega)]
  congr 1
  omega

/-- Reading outside a written string. -/
theorem Memory.read_writeBytes_outside {m : Memory} (hm : m.wf) {a b : Nat} {vs : List Byte}
    (hb : b < a ∨ a + vs.length ≤ b) : (m.writeBytes a vs).read b = m.read b := by
  rw [Memory.read_writeBytes hm, dif_neg (by omega)]

/-- A byte that reads as anything but the unlisted value is listed. -/
theorem Memory.read_eq_of_mem {m : Memory} (hm : m.wf) {c : Host.Cell} (hc : c ∈ m) : m.read c.1 = c.2 := by
  induction m with
  | nil => simp at hc
  | cons d m ih =>
    obtain ⟨b, w⟩ := d
    obtain ⟨hlt, -, hwf⟩ := Memory.wf_cons.1 hm
    rcases List.mem_cons.1 hc with rfl | hc
    · simp [Memory.read]
    · have : c.1 ≠ b := by have := hlt c hc; simp only at this; omega
      simp [Memory.read, this, ih hwf hc]

end Sys2Proof.Machine
end

