-- ==== Sys2Proof/Laws/State.lean ====
section
/-! SUPPORT. One lemma per field per update, each true by rfl, so that no later proof unfolds a record update. `finish`
and `busError` are given their own fields, so that a proof about a command never unfolds `complete`. -/

namespace Sys2Proof.Machine

/-! ### Issue (40_command.md R161) -/

@[simp] theorem State.issue_params (w : Word) (s : State) : (s.issue w).params = s.params := rfl
@[simp] theorem State.issue_ie (w : Word) (s : State) : (s.issue w).ie = s.ie := rfl
@[simp] theorem State.issue_phase (w : Word) (s : State) : (s.issue w).phase = .busy := rfl
@[simp] theorem State.issue_done (w : Word) (s : State) : (s.issue w).done = false := rfl
@[simp] theorem State.issue_cmdOvr (w : Word) (s : State) : (s.issue w).cmdOvr = s.cmdOvr := rfl
@[simp] theorem State.issue_diag (w : Word) (s : State) : (s.issue w).diag = false := rfl
@[simp] theorem State.issue_err (w : Word) (s : State) : (s.issue w).err = .ok := rfl
@[simp] theorem State.issue_cmdword (w : Word) (s : State) : (s.issue w).cmdword = w := rfl
@[simp] theorem State.issue_args (w : Word) (s : State) : (s.issue w).args = s.args := rfl
@[simp] theorem State.issue_x (w : Word) (s : State) : (s.issue w).x = s.args := rfl
@[simp] theorem State.issue_result (w : Word) (s : State) : (s.issue w).result = 0#32 := rfl
@[simp] theorem State.issue_mac (w : Word) (s : State) : (s.issue w).mac = s.mac := rfl
@[simp] theorem State.issue_transient (w : Word) (s : State) : (s.issue w).transient = s.transient := rfl
@[simp] theorem State.issue_mem (w : Word) (s : State) : (s.issue w).mem = s.mem := rfl
@[simp] theorem State.issue_resetLine (w : Word) (s : State) : (s.issue w).resetLine = s.resetLine := rfl
@[simp] theorem State.issue_turns (w : Word) (s : State) : (s.issue w).turns = s.turns := rfl
@[simp] theorem State.issue_response (w : Word) (s : State) : (s.issue w).response = s.response := rfl
@[simp] theorem State.issue_raced (w : Word) (s : State) : (s.issue w).raced = s.raced := rfl
@[simp] theorem State.issue_draw (w : Word) (s : State) : (s.issue w).draw = s.draw := rfl

/-! ### Completion (40_command.md R170) -/

@[simp] theorem State.complete_params (code : ErrCode) (success : Word) (flag : Bool) (mac : MacContext) (s : State) : (s.complete code success flag mac).params = s.params := rfl
@[simp] theorem State.complete_ie (code : ErrCode) (success : Word) (flag : Bool) (mac : MacContext) (s : State) : (s.complete code success flag mac).ie = s.ie := rfl
@[simp] theorem State.complete_phase (code : ErrCode) (success : Word) (flag : Bool) (mac : MacContext) (s : State) : (s.complete code success flag mac).phase = .idle := rfl
@[simp] theorem State.complete_done (code : ErrCode) (success : Word) (flag : Bool) (mac : MacContext) (s : State) : (s.complete code success flag mac).done = true := rfl
@[simp] theorem State.complete_cmdOvr (code : ErrCode) (success : Word) (flag : Bool) (mac : MacContext) (s : State) : (s.complete code success flag mac).cmdOvr = s.cmdOvr := rfl
@[simp] theorem State.complete_diag (code : ErrCode) (success : Word) (flag : Bool) (mac : MacContext) (s : State) : (s.complete code success flag mac).diag = (decide (code = .ok) && flag) := rfl
@[simp] theorem State.complete_err (code : ErrCode) (success : Word) (flag : Bool) (mac : MacContext) (s : State) : (s.complete code success flag mac).err = code := rfl
@[simp] theorem State.complete_cmdword (code : ErrCode) (success : Word) (flag : Bool) (mac : MacContext) (s : State) : (s.complete code success flag mac).cmdword = s.cmdword := rfl
@[simp] theorem State.complete_args (code : ErrCode) (success : Word) (flag : Bool) (mac : MacContext) (s : State) : (s.complete code success flag mac).args = s.args := rfl
@[simp] theorem State.complete_x (code : ErrCode) (success : Word) (flag : Bool) (mac : MacContext) (s : State) : (s.complete code success flag mac).x = s.x := rfl
@[simp] theorem State.complete_result (code : ErrCode) (success : Word) (flag : Bool) (mac : MacContext) (s : State) : (s.complete code success flag mac).result = if code = .ok then success else sentinel := rfl
@[simp] theorem State.complete_mac (code : ErrCode) (success : Word) (flag : Bool) (mac : MacContext) (s : State) : (s.complete code success flag mac).mac = mac := rfl
@[simp] theorem State.complete_transient (code : ErrCode) (success : Word) (flag : Bool) (mac : MacContext) (s : State) : (s.complete code success flag mac).transient = Transient.absent := rfl
@[simp] theorem State.complete_mem (code : ErrCode) (success : Word) (flag : Bool) (mac : MacContext) (s : State) : (s.complete code success flag mac).mem = s.mem := rfl
@[simp] theorem State.complete_resetLine (code : ErrCode) (success : Word) (flag : Bool) (mac : MacContext) (s : State) : (s.complete code success flag mac).resetLine = s.resetLine := rfl
@[simp] theorem State.complete_turns (code : ErrCode) (success : Word) (flag : Bool) (mac : MacContext) (s : State) : (s.complete code success flag mac).turns = s.turns := rfl
@[simp] theorem State.complete_response (code : ErrCode) (success : Word) (flag : Bool) (mac : MacContext) (s : State) : (s.complete code success flag mac).response = s.response := rfl
@[simp] theorem State.complete_raced (code : ErrCode) (success : Word) (flag : Bool) (mac : MacContext) (s : State) : (s.complete code success flag mac).raced = [] := rfl
@[simp] theorem State.complete_draw (code : ErrCode) (success : Word) (flag : Bool) (mac : MacContext) (s : State) : (s.complete code success flag mac).draw = s.draw + 1 := rfl

/-! ### A body that met no bus error (40_command.md R167) -/

@[simp] theorem State.finish_params (i : Instr) (e : Effect) (s : State) : (s.finish i e).params = s.params := rfl
@[simp] theorem State.finish_ie (i : Instr) (e : Effect) (s : State) : (s.finish i e).ie = s.ie := rfl
@[simp] theorem State.finish_phase (i : Instr) (e : Effect) (s : State) : (s.finish i e).phase = .idle := rfl
@[simp] theorem State.finish_done (i : Instr) (e : Effect) (s : State) : (s.finish i e).done = true := rfl
@[simp] theorem State.finish_cmdOvr (i : Instr) (e : Effect) (s : State) : (s.finish i e).cmdOvr = s.cmdOvr := rfl
@[simp] theorem State.finish_diag (i : Instr) (e : Effect) (s : State) : (s.finish i e).diag = e.diag := rfl
@[simp] theorem State.finish_err (i : Instr) (e : Effect) (s : State) : (s.finish i e).err = .ok := rfl
@[simp] theorem State.finish_cmdword (i : Instr) (e : Effect) (s : State) : (s.finish i e).cmdword = s.cmdword := rfl
@[simp] theorem State.finish_args (i : Instr) (e : Effect) (s : State) : (s.finish i e).args = s.args := rfl
@[simp] theorem State.finish_x (i : Instr) (e : Effect) (s : State) : (s.finish i e).x = s.x := rfl
@[simp] theorem State.finish_result (i : Instr) (e : Effect) (s : State) : (s.finish i e).result = successResult i s.x := rfl
@[simp] theorem State.finish_mac (i : Instr) (e : Effect) (s : State) : (s.finish i e).mac = e.mac := rfl
@[simp] theorem State.finish_transient (i : Instr) (e : Effect) (s : State) : (s.finish i e).transient = Transient.absent := rfl
@[simp] theorem State.finish_mem (i : Instr) (e : Effect) (s : State) : (s.finish i e).mem = s.writeOutput i e.out := rfl
@[simp] theorem State.finish_resetLine (i : Instr) (e : Effect) (s : State) : (s.finish i e).resetLine = s.resetLine := rfl
@[simp] theorem State.finish_turns (i : Instr) (e : Effect) (s : State) : (s.finish i e).turns = s.turns := rfl
@[simp] theorem State.finish_response (i : Instr) (e : Effect) (s : State) : (s.finish i e).response = s.response := rfl
@[simp] theorem State.finish_raced (i : Instr) (e : Effect) (s : State) : (s.finish i e).raced = [] := rfl
@[simp] theorem State.finish_draw (i : Instr) (e : Effect) (s : State) : (s.finish i e).draw = s.draw + 1 := rfl

/-! ### BUS (20_memory.md R98) -/

@[simp] theorem State.busError_params (i : Instr) (s : State) : (s.busError i).params = s.params := rfl
@[simp] theorem State.busError_ie (i : Instr) (s : State) : (s.busError i).ie = s.ie := rfl
@[simp] theorem State.busError_phase (i : Instr) (s : State) : (s.busError i).phase = .idle := rfl
@[simp] theorem State.busError_done (i : Instr) (s : State) : (s.busError i).done = true := rfl
@[simp] theorem State.busError_cmdOvr (i : Instr) (s : State) : (s.busError i).cmdOvr = s.cmdOvr := rfl
@[simp] theorem State.busError_diag (i : Instr) (s : State) : (s.busError i).diag = false := rfl
@[simp] theorem State.busError_err (i : Instr) (s : State) : (s.busError i).err = .bus := rfl
@[simp] theorem State.busError_cmdword (i : Instr) (s : State) : (s.busError i).cmdword = s.cmdword := rfl
@[simp] theorem State.busError_args (i : Instr) (s : State) : (s.busError i).args = s.args := rfl
@[simp] theorem State.busError_x (i : Instr) (s : State) : (s.busError i).x = s.x := rfl
@[simp] theorem State.busError_result (i : Instr) (s : State) : (s.busError i).result = sentinel := rfl
@[simp] theorem State.busError_mac (i : Instr) (s : State) : (s.busError i).mac = macAfterBus i s.mac := rfl
@[simp] theorem State.busError_transient (i : Instr) (s : State) : (s.busError i).transient = Transient.absent := rfl
@[simp] theorem State.busError_mem (i : Instr) (s : State) : (s.busError i).mem = s.freeOutput i := rfl
@[simp] theorem State.busError_resetLine (i : Instr) (s : State) : (s.busError i).resetLine = s.resetLine := rfl
@[simp] theorem State.busError_turns (i : Instr) (s : State) : (s.busError i).turns = s.turns := rfl
@[simp] theorem State.busError_response (i : Instr) (s : State) : (s.busError i).response = s.response := rfl
@[simp] theorem State.busError_raced (i : Instr) (s : State) : (s.busError i).raced = [] := rfl
@[simp] theorem State.busError_draw (i : Instr) (s : State) : (s.busError i).draw = s.draw + 1 := rfl

/-! ### Reset (10_state.md R70) -/

@[simp] theorem State.resetBlock_params (s : State) : (s.resetBlock).params = s.params := rfl
@[simp] theorem State.resetBlock_ie (s : State) : (s.resetBlock).ie = false := rfl
@[simp] theorem State.resetBlock_phase (s : State) : (s.resetBlock).phase = .idle := rfl
@[simp] theorem State.resetBlock_done (s : State) : (s.resetBlock).done = false := rfl
@[simp] theorem State.resetBlock_cmdOvr (s : State) : (s.resetBlock).cmdOvr = false := rfl
@[simp] theorem State.resetBlock_diag (s : State) : (s.resetBlock).diag = false := rfl
@[simp] theorem State.resetBlock_err (s : State) : (s.resetBlock).err = .ok := rfl
@[simp] theorem State.resetBlock_cmdword (s : State) : (s.resetBlock).cmdword = 0#32 := rfl
@[simp] theorem State.resetBlock_args (s : State) : (s.resetBlock).args = Args.zero := rfl
@[simp] theorem State.resetBlock_x (s : State) : (s.resetBlock).x = Args.zero := rfl
@[simp] theorem State.resetBlock_result (s : State) : (s.resetBlock).result = 0#32 := rfl
@[simp] theorem State.resetBlock_mac (s : State) : (s.resetBlock).mac = MacContext.reset := rfl
@[simp] theorem State.resetBlock_transient (s : State) : (s.resetBlock).transient = Transient.absent := rfl
@[simp] theorem State.resetBlock_mem (s : State) : (s.resetBlock).mem = s.memoryAfterReset := rfl
@[simp] theorem State.resetBlock_resetLine (s : State) : (s.resetBlock).resetLine = s.resetLine := rfl
@[simp] theorem State.resetBlock_turns (s : State) : (s.resetBlock).turns = s.turns := rfl
@[simp] theorem State.resetBlock_response (s : State) : (s.resetBlock).response = s.response := rfl
@[simp] theorem State.resetBlock_raced (s : State) : (s.resetBlock).raced = [] := rfl
@[simp] theorem State.resetBlock_draw (s : State) : (s.resetBlock).draw = s.draw + 1 := rfl

/-! ### A STATUS write (10_state.md R36) -/

@[simp] theorem State.writeStatus_params (v : Word) (s : State) : (s.writeStatus v).params = s.params := rfl
@[simp] theorem State.writeStatus_ie (v : Word) (s : State) : (s.writeStatus v).ie = s.ie := rfl
@[simp] theorem State.writeStatus_phase (v : Word) (s : State) : (s.writeStatus v).phase = s.phase := rfl
@[simp] theorem State.writeStatus_done (v : Word) (s : State) : (s.writeStatus v).done = (s.done && !v.getLsbD 1) := rfl
@[simp] theorem State.writeStatus_cmdOvr (v : Word) (s : State) : (s.writeStatus v).cmdOvr = (s.cmdOvr && !v.getLsbD 2) := rfl
@[simp] theorem State.writeStatus_diag (v : Word) (s : State) : (s.writeStatus v).diag = s.diag := rfl
@[simp] theorem State.writeStatus_err (v : Word) (s : State) : (s.writeStatus v).err = s.err := rfl
@[simp] theorem State.writeStatus_cmdword (v : Word) (s : State) : (s.writeStatus v).cmdword = s.cmdword := rfl
@[simp] theorem State.writeStatus_args (v : Word) (s : State) : (s.writeStatus v).args = s.args := rfl
@[simp] theorem State.writeStatus_x (v : Word) (s : State) : (s.writeStatus v).x = s.x := rfl
@[simp] theorem State.writeStatus_result (v : Word) (s : State) : (s.writeStatus v).result = s.result := rfl
@[simp] theorem State.writeStatus_mac (v : Word) (s : State) : (s.writeStatus v).mac = s.mac := rfl
@[simp] theorem State.writeStatus_transient (v : Word) (s : State) : (s.writeStatus v).transient = s.transient := rfl
@[simp] theorem State.writeStatus_mem (v : Word) (s : State) : (s.writeStatus v).mem = s.mem := rfl
@[simp] theorem State.writeStatus_resetLine (v : Word) (s : State) : (s.writeStatus v).resetLine = s.resetLine := rfl
@[simp] theorem State.writeStatus_turns (v : Word) (s : State) : (s.writeStatus v).turns = s.turns := rfl
@[simp] theorem State.writeStatus_response (v : Word) (s : State) : (s.writeStatus v).response = s.response := rfl
@[simp] theorem State.writeStatus_raced (v : Word) (s : State) : (s.writeStatus v).raced = s.raced := rfl
@[simp] theorem State.writeStatus_draw (v : Word) (s : State) : (s.writeStatus v).draw = s.draw := rfl

/-! ### A memory write of another agent (20_memory.md R113) -/

@[simp] theorem State.agentWrite_params (a : Nat) (v : Byte) (s : State) : (s.agentWrite a v).params = s.params := rfl
@[simp] theorem State.agentWrite_ie (a : Nat) (v : Byte) (s : State) : (s.agentWrite a v).ie = s.ie := rfl
@[simp] theorem State.agentWrite_phase (a : Nat) (v : Byte) (s : State) : (s.agentWrite a v).phase = s.phase := rfl
@[simp] theorem State.agentWrite_done (a : Nat) (v : Byte) (s : State) : (s.agentWrite a v).done = s.done := rfl
@[simp] theorem State.agentWrite_cmdOvr (a : Nat) (v : Byte) (s : State) : (s.agentWrite a v).cmdOvr = s.cmdOvr := rfl
@[simp] theorem State.agentWrite_diag (a : Nat) (v : Byte) (s : State) : (s.agentWrite a v).diag = s.diag := rfl
@[simp] theorem State.agentWrite_err (a : Nat) (v : Byte) (s : State) : (s.agentWrite a v).err = s.err := rfl
@[simp] theorem State.agentWrite_cmdword (a : Nat) (v : Byte) (s : State) : (s.agentWrite a v).cmdword = s.cmdword := rfl
@[simp] theorem State.agentWrite_args (a : Nat) (v : Byte) (s : State) : (s.agentWrite a v).args = s.args := rfl
@[simp] theorem State.agentWrite_x (a : Nat) (v : Byte) (s : State) : (s.agentWrite a v).x = s.x := rfl
@[simp] theorem State.agentWrite_result (a : Nat) (v : Byte) (s : State) : (s.agentWrite a v).result = s.result := rfl
@[simp] theorem State.agentWrite_mac (a : Nat) (v : Byte) (s : State) : (s.agentWrite a v).mac = s.mac := rfl
@[simp] theorem State.agentWrite_transient (a : Nat) (v : Byte) (s : State) : (s.agentWrite a v).transient = s.transient := rfl
@[simp] theorem State.agentWrite_mem (a : Nat) (v : Byte) (s : State) : (s.agentWrite a v).mem = s.mem.write a v := rfl
@[simp] theorem State.agentWrite_resetLine (a : Nat) (v : Byte) (s : State) : (s.agentWrite a v).resetLine = s.resetLine := rfl
@[simp] theorem State.agentWrite_turns (a : Nat) (v : Byte) (s : State) : (s.agentWrite a v).turns = s.turns := rfl
@[simp] theorem State.agentWrite_response (a : Nat) (v : Byte) (s : State) : (s.agentWrite a v).response = .written := rfl
@[simp] theorem State.agentWrite_raced (a : Nat) (v : Byte) (s : State) : (s.agentWrite a v).raced = s.racedWith a := rfl
@[simp] theorem State.agentWrite_draw (a : Nat) (v : Byte) (s : State) : (s.agentWrite a v).draw = s.draw := rfl

/-! ### Taking a turn -/

@[simp] theorem State.rest_params (s : State) (ts : List Turn) : (s.rest ts).params = s.params := rfl
@[simp] theorem State.rest_ie (s : State) (ts : List Turn) : (s.rest ts).ie = s.ie := rfl
@[simp] theorem State.rest_phase (s : State) (ts : List Turn) : (s.rest ts).phase = s.phase := rfl
@[simp] theorem State.rest_done (s : State) (ts : List Turn) : (s.rest ts).done = s.done := rfl
@[simp] theorem State.rest_cmdOvr (s : State) (ts : List Turn) : (s.rest ts).cmdOvr = s.cmdOvr := rfl
@[simp] theorem State.rest_diag (s : State) (ts : List Turn) : (s.rest ts).diag = s.diag := rfl
@[simp] theorem State.rest_err (s : State) (ts : List Turn) : (s.rest ts).err = s.err := rfl
@[simp] theorem State.rest_cmdword (s : State) (ts : List Turn) : (s.rest ts).cmdword = s.cmdword := rfl
@[simp] theorem State.rest_args (s : State) (ts : List Turn) : (s.rest ts).args = s.args := rfl
@[simp] theorem State.rest_x (s : State) (ts : List Turn) : (s.rest ts).x = s.x := rfl
@[simp] theorem State.rest_result (s : State) (ts : List Turn) : (s.rest ts).result = s.result := rfl
@[simp] theorem State.rest_mac (s : State) (ts : List Turn) : (s.rest ts).mac = s.mac := rfl
@[simp] theorem State.rest_transient (s : State) (ts : List Turn) : (s.rest ts).transient = s.transient := rfl
@[simp] theorem State.rest_mem (s : State) (ts : List Turn) : (s.rest ts).mem = s.mem := rfl
@[simp] theorem State.rest_resetLine (s : State) (ts : List Turn) : (s.rest ts).resetLine = s.resetLine := rfl
@[simp] theorem State.rest_turns (s : State) (ts : List Turn) : (s.rest ts).turns = ts := rfl
@[simp] theorem State.rest_response (s : State) (ts : List Turn) : (s.rest ts).response = s.response := rfl
@[simp] theorem State.rest_raced (s : State) (ts : List Turn) : (s.rest ts).raced = s.raced := rfl
@[simp] theorem State.rest_draw (s : State) (ts : List Turn) : (s.rest ts).draw = s.draw := rfl

/-! ### Raising an error before execution (40_command.md R168) -/

@[simp] theorem State.raise_params (code : ErrCode) (s : State) : (s.raise code).params = s.params := rfl
@[simp] theorem State.raise_ie (code : ErrCode) (s : State) : (s.raise code).ie = s.ie := rfl
@[simp] theorem State.raise_phase (code : ErrCode) (s : State) : (s.raise code).phase = .idle := rfl
@[simp] theorem State.raise_done (code : ErrCode) (s : State) : (s.raise code).done = true := rfl
@[simp] theorem State.raise_cmdOvr (code : ErrCode) (s : State) : (s.raise code).cmdOvr = s.cmdOvr := rfl
@[simp] theorem State.raise_diag (code : ErrCode) (s : State) : (s.raise code).diag = false := by
  simp [State.raise]
@[simp] theorem State.raise_err (code : ErrCode) (s : State) : (s.raise code).err = code := rfl
@[simp] theorem State.raise_cmdword (code : ErrCode) (s : State) : (s.raise code).cmdword = s.cmdword := rfl
@[simp] theorem State.raise_args (code : ErrCode) (s : State) : (s.raise code).args = s.args := rfl
@[simp] theorem State.raise_x (code : ErrCode) (s : State) : (s.raise code).x = s.x := rfl
@[simp] theorem State.raise_result (code : ErrCode) (s : State) : (s.raise code).result = sentinel := by
  simp [State.raise]
@[simp] theorem State.raise_mac (code : ErrCode) (s : State) : (s.raise code).mac = s.mac := rfl
@[simp] theorem State.raise_transient (code : ErrCode) (s : State) : (s.raise code).transient = Transient.absent := rfl
@[simp] theorem State.raise_mem (code : ErrCode) (s : State) : (s.raise code).mem = s.mem := rfl
@[simp] theorem State.raise_resetLine (code : ErrCode) (s : State) : (s.raise code).resetLine = s.resetLine := rfl
@[simp] theorem State.raise_turns (code : ErrCode) (s : State) : (s.raise code).turns = s.turns := rfl
@[simp] theorem State.raise_response (code : ErrCode) (s : State) : (s.raise code).response = s.response := rfl
@[simp] theorem State.raise_raced (code : ErrCode) (s : State) : (s.raise code).raced = [] := rfl
@[simp] theorem State.raise_draw (code : ErrCode) (s : State) : (s.raise code).draw = s.draw + 1 := rfl

/-! ### A command that fails a check (40_command.md R168, 20_memory.md R113) -/

@[simp] theorem State.reject_params (i : Instr) (code : ErrCode) (s : State) : (s.reject i code).params = s.params := rfl
@[simp] theorem State.reject_ie (i : Instr) (code : ErrCode) (s : State) : (s.reject i code).ie = s.ie := rfl
@[simp] theorem State.reject_phase (i : Instr) (code : ErrCode) (s : State) : (s.reject i code).phase = .idle := rfl
@[simp] theorem State.reject_done (i : Instr) (code : ErrCode) (s : State) : (s.reject i code).done = true := rfl
@[simp] theorem State.reject_cmdOvr (i : Instr) (code : ErrCode) (s : State) : (s.reject i code).cmdOvr = s.cmdOvr := rfl
@[simp] theorem State.reject_diag (i : Instr) (code : ErrCode) (s : State) : (s.reject i code).diag = false := by
  simp [State.reject]
@[simp] theorem State.reject_err (i : Instr) (code : ErrCode) (s : State) : (s.reject i code).err = code := rfl
@[simp] theorem State.reject_cmdword (i : Instr) (code : ErrCode) (s : State) : (s.reject i code).cmdword = s.cmdword := rfl
@[simp] theorem State.reject_args (i : Instr) (code : ErrCode) (s : State) : (s.reject i code).args = s.args := rfl
@[simp] theorem State.reject_x (i : Instr) (code : ErrCode) (s : State) : (s.reject i code).x = s.x := rfl
@[simp] theorem State.reject_result (i : Instr) (code : ErrCode) (s : State) : (s.reject i code).result = sentinel := by
  simp [State.reject]
@[simp] theorem State.reject_mac (i : Instr) (code : ErrCode) (s : State) : (s.reject i code).mac = s.mac := rfl
@[simp] theorem State.reject_transient (i : Instr) (code : ErrCode) (s : State) : (s.reject i code).transient = Transient.absent := rfl
@[simp] theorem State.reject_mem (i : Instr) (code : ErrCode) (s : State) : (s.reject i code).mem = s.racedOutput i := rfl
@[simp] theorem State.reject_resetLine (i : Instr) (code : ErrCode) (s : State) : (s.reject i code).resetLine = s.resetLine := rfl
@[simp] theorem State.reject_turns (i : Instr) (code : ErrCode) (s : State) : (s.reject i code).turns = s.turns := rfl
@[simp] theorem State.reject_response (i : Instr) (code : ErrCode) (s : State) : (s.reject i code).response = s.response := rfl
@[simp] theorem State.reject_raced (i : Instr) (code : ErrCode) (s : State) : (s.reject i code).raced = [] := rfl
@[simp] theorem State.reject_draw (i : Instr) (code : ErrCode) (s : State) : (s.reject i code).draw = s.draw + 1 := rfl

end Sys2Proof.Machine
end

