-- ==== Sys2Proof/Laws/Operands.lean ====
section
/-! SUPPORT. What the range predicates, operand reads and output writes say: one lemma per operation. -/

namespace Sys2Proof.Machine

@[simp] theorem inside_iff (r : Range) (a : Nat) : inside r a = true ↔ r.start ≤ a ∧ a < r.start + r.len := by
  simp [inside]

/-- Two ranges intersect exactly when some address lies in both (20_memory.md R100). -/
theorem intersect_iff (r t : Range) : intersect r t = true ↔ ∃ a, inside r a = true ∧ inside t a = true := by
  simp only [intersect, Bool.and_eq_true, decide_eq_true_eq, inside_iff]
  constructor
  · rintro ⟨⟨⟨h1, h2⟩, h3⟩, h4⟩
    exact ⟨max r.start t.start, by omega, by omega⟩
  · rintro ⟨a, h1, h2⟩
    omega

/-- Overlap is intersection at different starts (20_memory.md R100). -/
theorem overlap_iff (r t : Range) :
    overlap r t = true ↔
      (0 < r.len ∧ 0 < t.len ∧ r.start < t.start + t.len ∧ t.start < r.start + r.len) ∧ r.start ≠ t.start := by
  simp only [overlap, intersect, Bool.and_eq_true, decide_eq_true_eq]
  tauto

@[simp] theorem inRange_iff (p : Params) (r : Range) :
    inRange p r = true ↔ r.len = 0 ∨ r.start + r.len ≤ 2 ^ p.addrW := by
  simp [inRange]

/-- A command meets BUS exactly when it accesses an inadmissible byte (20_memory.md R98). -/
theorem State.busHit_iff (i : Instr) (s : State) :
    s.busHit i = true ↔ ∃ r ∈ accessedRanges i s.x, ∃ a, inside r a = true ∧ memAdmits s.params a = false := by
  simp only [State.busHit, memAdmits, List.any_eq_true, intersect_iff, Bool.not_eq_false']
  constructor
  · rintro ⟨r, hr, t, ht, a, ha, hb⟩
    exact ⟨r, hr, a, ha, t, ht, hb⟩
  · rintro ⟨r, hr, a, ha, t, ht, hb⟩
    exact ⟨r, hr, t, ht, a, ha, hb⟩

/-- A command touches side effects exactly when a byte of a buffer handed to it is not idempotent (20_memory.md R103). -/
theorem State.touchesSideEffects_iff (i : Instr) (s : State) :
    s.touchesSideEffects i = true ↔
      ∃ r ∈ handedRanges i s.x, ∃ a, inside r a = true ∧ idempotent s.params a = false := by
  simp only [State.touchesSideEffects, idempotent, List.any_eq_true, intersect_iff, Bool.not_eq_false']
  constructor
  · rintro ⟨r, hr, t, ht, a, ha, hb⟩
    exact ⟨r, hr, a, ha, t, ht, hb⟩
  · rintro ⟨r, hr, a, ha, t, ht, hb⟩
    exact ⟨r, hr, t, ht, a, ha, hb⟩

/-- Every byte a command accesses is a byte of a buffer handed to it. -/
theorem handed_of_accessed {i : Instr} {x : Args} {r : Range} {a : Nat} (hr : r ∈ accessedRanges i x)
    (ha : inside r a = true) : ∃ t ∈ handedRanges i x, inside t a = true := by
  cases i with
  | aeadOpen =>
    simp only [accessedRanges, readRanges, List.mem_cons, List.not_mem_nil, or_false] at hr
    rcases hr with rfl | rfl | hr
    · exact ⟨_, List.mem_cons_self, ha⟩
    · exact ⟨rangeAt x.src x.len.toNat, by simp [handedRanges, inputRanges], by simp [rangeAt] at *; omega⟩
    · exact ⟨r, by rcases hr with rfl | rfl <;> simp [handedRanges, inputRanges], ha⟩
  | _ => exact ⟨r, hr, ha⟩

/-! ### Undisturbed commands -/

/-- On a platform that admits every byte and has only idempotent memory, a command no agent raced is undisturbed. -/
theorem State.undisturbed_of_plain {s : State} (hr : s.raced = []) (hw : s.params.windowMapped = false)
    (hb : s.params.rejecting = []) (hs : s.params.sideEffecting = []) (i : Instr) : s.Undisturbed i :=
  ⟨hr, fun _ _ _ _ => by simp [memAdmits, rejectedRanges, hw, hb], fun _ _ _ _ => by simp [idempotent, hs]⟩

theorem State.Undisturbed.no_bus {i : Instr} {s : State} (h : s.Undisturbed i) : s.busHit i = false := by
  by_contra hb
  obtain ⟨r, hr, a, ha, hn⟩ := (s.busHit_iff i).1 (by simpa using hb)
  simp [h.2.1 r hr a ha] at hn

theorem State.Undisturbed.no_side_effects {i : Instr} {s : State} (h : s.Undisturbed i) :
    s.touchesSideEffects i = false := by
  by_contra hb
  obtain ⟨r, hr, a, ha, hn⟩ := (s.touchesSideEffects_iff i).1 (by simpa using hb)
  simp [h.2.2 r hr a ha] at hn

/-- Every byte an undisturbed command accesses is idempotent. -/
theorem State.Undisturbed.idempotent {i : Instr} {s : State} (h : s.Undisturbed i) {r : Range}
    (hr : r ∈ accessedRanges i s.x) {a : Nat} (ha : inside r a = true) : idempotent s.params a = true :=
  let ⟨t, ht, hi⟩ := handed_of_accessed hr ha
  h.2.2 t ht a hi

/-! ### Operand reads -/

@[simp] theorem State.readOperand_length (s : State) (k : Nat) (r : Range) : (s.readOperand k r).length = r.len := by
  simp [State.readOperand]

theorem State.readOperand_getElem (s : State) (k : Nat) (r : Range) (j : Nat) (hj : j < r.len) :
    (s.readOperand k r)[j]'(by simpa using hj) = s.engineByte k (r.start + j) := by
  simp [State.readOperand]

@[simp] theorem Memory.bytes_length (m : Memory) (a n : Nat) : (m.bytes a n).length = n := by simp [Memory.bytes]

@[simp] theorem Memory.bytes_getElem (m : Memory) (a n j : Nat) (hj : j < (m.bytes a n).length) :
    (m.bytes a n)[j] = m.read (a + j) := by simp [Memory.bytes]

/-- An undisturbed command reads memory's own bytes (20_memory.md R96). -/
theorem State.Undisturbed.readOperand {i : Instr} {s : State} (h : s.Undisturbed i) {r : Range}
    (hr : r ∈ accessedRanges i s.x) (k : Nat) : s.readOperand k r = s.mem.bytes r.start r.len := by
  simp only [State.readOperand, Memory.bytes]
  refine List.map_congr_left fun j hj => ?_
  have hj : j < r.len := by simpa using hj
  have := h.idempotent hr (a := r.start + j) (by simp; omega)
  simp [State.engineByte, h.1, this]

/-! ### Output writes -/

@[simp] theorem freeBytes_length (d : Nat) (use : FreeUse) (a n : Nat) : (freeBytes d use a n).length = n := by
  simp [freeBytes]

theorem freeBytes_getElem (d : Nat) (use : FreeUse) (a n j : Nat) (hj : j < n) :
    (freeBytes d use a n)[j]'(by simpa using hj) = Config.freeByte d use (a + j) := by simp [freeBytes]

@[simp] theorem State.settledBytes_length (s : State) (f : Bool) (a : Nat) (out : List Byte) :
    (s.settledBytes f a out).length = out.length := by simp [State.settledBytes]

theorem State.settledBytes_getElem (s : State) (f : Bool) (a : Nat) (out : List Byte) (j : Nat) (hj : j < out.length) :
    (s.settledBytes f a out)[j]'(by simpa using hj) = s.settledByte f (a + j) out[j] := by
  simp [State.settledBytes]

/-- With no race and no side effect, the output bytes are the command rule's. -/
theorem State.settledBytes_undisturbed {s : State} (h : s.raced = []) (a : Nat) (out : List Byte) :
    s.settledBytes false a out = out := by
  apply List.ext_getElem (by simp)
  intro j h1 h2
  rw [State.settledBytes_getElem s false a out j h2]
  simp [State.settledByte, h]

/-- What an undisturbed command writes (20_memory.md R93, R96). -/
theorem State.Undisturbed.writeOutput {i : Instr} {s : State} (h : s.Undisturbed i) (out : List Byte) :
    s.writeOutput i out = s.mem.writeBytes (outputRange i s.x).start out := by
  simp [State.writeOutput, h.no_side_effects, State.settledBytes_undisturbed h.1]

/-! ### Raced output bytes -/

/-- With no race, a command that writes nothing leaves memory as it was. -/
theorem State.racedOutput_of_no_race {s : State} (h : s.raced = []) (i : Instr) : s.racedOutput i = s.mem := by
  simp [State.racedOutput, h]

/-- A byte of memory after a command that writes nothing: free if it is a raced output byte that exists, else as before
(20_memory.md R113 (b)). -/
theorem State.racedOutput_read {s : State} (hm : s.mem.wf) (i : Instr) (a : Nat) :
    (s.racedOutput i).read a =
      if a ∈ s.raced ∧ inside (outputRange i s.x) a = true ∧ a < 2 ^ s.params.addrW then
        Config.freeByte s.draw .output a
      else s.mem.read a := by
  have key : ∀ (l : List Nat) (m : Memory), m.wf →
      (l.foldl (fun m a => if inside (outputRange i s.x) a && decide (a < 2 ^ s.params.addrW) then
        m.write a (Config.freeByte s.draw .output a) else m) m).read a =
      if a ∈ l ∧ inside (outputRange i s.x) a = true ∧ a < 2 ^ s.params.addrW then Config.freeByte s.draw .output a
      else m.read a := by
    intro l
    induction l with
    | nil => simp
    | cons b l ih =>
      intro m hm
      simp only [List.foldl_cons]
      split
      · rename_i hb
        simp only [Bool.and_eq_true, decide_eq_true_eq] at hb
        rw [ih _ (Memory.wf_write hm _ _), Memory.read_write hm]
        by_cases hab : a = b
        · subst hab; simp [hb]
        · simp [hab]
      · rename_i hb
        simp only [Bool.and_eq_true, decide_eq_true_eq] at hb
        rw [ih _ hm]
        by_cases hab : a = b
        · subst hab; rw [if_neg fun h => hb h.2, if_neg fun h => hb h.2]
        · simp [hab]
  exact key s.raced s.mem hm

/-- It keeps the canonical form, and lists only bytes that exist. -/
theorem State.racedOutput_memOk {s : State} (h : s.memOk) (i : Instr) :
    (s.racedOutput i).wf ∧ ∀ c ∈ s.racedOutput i, c.1 < 2 ^ s.params.addrW := by
  unfold State.racedOutput
  generalize s.raced = l
  have key : ∀ m : Memory, (m.wf ∧ ∀ c ∈ m, c.1 < 2 ^ s.params.addrW) → _ := fun m hm =>
    List.foldlRecOn l (fun m a => if inside (outputRange i s.x) a && decide (a < 2 ^ s.params.addrW) then
        m.write a (Config.freeByte s.draw .output a) else m) (motive := fun m : Memory =>
        m.wf ∧ ∀ c ∈ m, c.1 < 2 ^ s.params.addrW) hm fun m hm a _ => by
      split
      · rename_i ha
        simp only [Bool.and_eq_true, decide_eq_true_eq] at ha
        exact ⟨Memory.wf_write hm.1 _ _, Memory.bounded_write hm.2 ha.2⟩
      · exact hm
  exact key s.mem h

end Sys2Proof.Machine
end

