-- ==== Sys2Proof/Laws/Exec.lean ====
section
/-! SUPPORT. What a command can do, said once: `exec` is `runCommand` of the command's body, and `runCommand` ends in
one of three ways. Later proofs cite these and never unfold `runCommand`. -/

namespace Sys2Proof.Machine

/-! ### The MAC commands' bodies, with and without a race -/

theorem State.racedIn_iff (s : State) (r : Range) : s.racedIn r = true ↔ ∃ a ∈ s.raced, inside r a = true := by
  simp [State.racedIn]

/-- With no race POLY_UPDATE's context is the rule's (42_poly1305.md R250). -/
theorem polyUpdateBody_mac_of_no_race {s : State} (h : s.racedIn (rangeAt s.x.src s.x.len.toNat) = false) :
    (polyUpdateBody s).mac = s.mac.update (s.readOperand 0 (rangeAt s.x.src s.x.len.toNat)) := by
  simp [polyUpdateBody, h]

/-- After a race POLY_UPDATE's context has an unspecified accumulator (20_memory.md R113). -/
theorem polyUpdateBody_mac_of_race {s : State} (h : s.racedIn (rangeAt s.x.src s.x.len.toNat) = true) :
    (polyUpdateBody s).mac =
      { s.mac.update (s.readOperand 0 (rangeAt s.x.src s.x.len.toNat)) with acc := s.freeAcc, anyTag := true } := by
  simp [polyUpdateBody, h]

theorem State.freeAcc_lt (s : State) : s.freeAcc < p130 := Nat.mod_lt _ (by decide)

theorem State.finishTag_of_specified {s : State} (h : s.mac.anyTag = false) : s.finishTag = s.mac.finish.tag := by
  simp [State.finishTag, h]

theorem State.finishTag_of_any {s : State} (h : s.mac.anyTag = true) :
    s.finishTag = freeBytes s.draw .output (outputRange .polyFinish s.x).start 16 := by
  simp [State.finishTag, h]

theorem State.finishTag_length (s : State) : s.finishTag.length = 16 := by
  unfold State.finishTag
  split <;> simp [MacContext.tag, tagOf]

@[simp] theorem MacContext.init_anyTag (key : List Byte) : (MacContext.init key).anyTag = false := rfl
@[simp] theorem MacContext.update_anyTag (data : List Byte) (c : MacContext) : (c.update data).anyTag = c.anyTag := rfl
@[simp] theorem MacContext.finish_anyTag (c : MacContext) : c.finish.anyTag = c.anyTag := rfl

/-! ### Every command -/

/-- The body of each command. -/
def bodyOf (i : Instr) : State → Effect :=
  match i with
  | .chachaXor  => chachaXorBody
  | .polyInit   => polyInitBody
  | .polyUpdate => polyUpdateBody
  | .polyFinish => polyFinishBody
  | .aeadSeal   => aeadSealBody
  | .aeadOpen   => aeadOpenBody
  | .x25519 c   => x25519Body c

/-- Every command answers a next state, whatever the state: it runs to a completion (40_command.md R169). -/
theorem exec_eq (i : Instr) (s : State) : exec i s = .next (s.runCommand i (bodyOf i)) := by
  cases i <;> rfl

/-- The three ways a command ends: a failed check, BUS, or OK (40_command.md R167, R169). -/
theorem State.runCommand_cases (i : Instr) (body : State → Effect) (s : State) :
    (∃ e, s.preCheck i = some e ∧ s.runCommand i body = s.reject i e) ∨
    (s.preCheck i = none ∧ s.busHit i = true ∧ s.runCommand i body = s.busError i) ∨
    (s.preCheck i = none ∧ s.busHit i = false ∧ s.runCommand i body = s.finish i (body s)) := by
  unfold State.runCommand
  cases hc : s.preCheck i with
  | some e => exact .inl ⟨e, rfl, by simp⟩
  | none =>
    cases hb : s.busHit i
    · exact .inr (.inr ⟨rfl, rfl, by simp⟩)
    · exact .inr (.inl ⟨rfl, rfl, by simp⟩)

theorem State.runCommand_failed {i : Instr} {s : State} {e : ErrCode} (h : s.preCheck i = some e)
    (body : State → Effect) : s.runCommand i body = s.reject i e := by
  simp [State.runCommand, h]

theorem State.runCommand_bus {i : Instr} {s : State} (h : s.preCheck i = none) (hb : s.busHit i = true)
    (body : State → Effect) : s.runCommand i body = s.busError i := by
  simp [State.runCommand, h, hb]

theorem State.runCommand_ok {i : Instr} {s : State} (h : s.preCheck i = none) (hb : s.busHit i = false)
    (body : State → Effect) : s.runCommand i body = s.finish i (body s) := by
  simp [State.runCommand, h, hb]

/-- All checks pass exactly when each of them does (40_command.md R167). -/
theorem State.preCheck_eq_none (i : Instr) (s : State) :
    s.preCheck i = none ↔ sequenceOk i s.mac = true ∧ lengthOk i s.x = true ∧ rangesOk i s.x s.params = true ∧
      overlapOk i s.x = true := by
  unfold State.preCheck
  cases sequenceOk i s.mac <;> cases lengthOk i s.x <;> cases rangesOk i s.x s.params <;> cases overlapOk i s.x <;> simp

/-- A failed check is never OK or BUS, and ILLEGAL is decoding's (60_exceptions.md R404). -/
theorem State.preCheck_code {i : Instr} {s : State} {e : ErrCode} (h : s.preCheck i = some e) :
    e = .state ∨ e = .length ∨ e = .range ∨ e = .overlap := by
  unfold State.preCheck at h
  split at h
  · simp_all
  · split at h
    · simp_all
    · split at h
      · simp_all
      · split at h <;> simp_all

/-- The output range lies inside system memory once the checks pass (40_command.md R165). -/
theorem State.output_inRange {i : Instr} {s : State} (h : s.preCheck i = none) :
    (outputRange i s.x).len = 0 ∨ (outputRange i s.x).start + (outputRange i s.x).len ≤ 2 ^ s.params.addrW := by
  have := ((s.preCheck_eq_none i).1 h).2.2.1
  simp only [rangesOk, List.all_cons, Bool.and_eq_true, inRange_iff] at this
  exact this.1

/-- A body makes exactly the bytes of its output range (20_memory.md R93). -/
theorem bodyOf_out_length (i : Instr) (s : State) (h : lengthOk i s.x = true) :
    ((bodyOf i s).out).length = (outputRange i s.x).len := by
  cases i <;>
    simp_all [bodyOf, chachaXorBody, polyInitBody, polyUpdateBody, polyFinishBody, aeadSealBody, aeadOpenBody,
      x25519Body, outputRange, rangeAt, State.finishTag_length]

/-- Every byte outside a command's output range reads as before (20_memory.md R93, R98 (c)). -/
theorem State.runCommand_mem_outside {i : Instr} {s : State} (hm : s.mem.wf) {a : Nat}
    (ha : inside (outputRange i s.x) a = false) :
    (s.runCommand i (bodyOf i)).mem.read a = s.mem.read a := by
  have ha : a < (outputRange i s.x).start ∨ (outputRange i s.x).start + (outputRange i s.x).len ≤ a := by
    by_contra h
    have : inside (outputRange i s.x) a = true := by simp; omega
    simp [this] at ha
  rcases s.runCommand_cases i (bodyOf i) with ⟨e, -, h⟩ | ⟨-, -, h⟩ | ⟨hc, -, h⟩
  · rw [h, State.reject_mem, State.racedOutput_read hm, if_neg (by simp only [inside_iff]; omega)]
  · rw [h, State.busError_mem, State.freeOutput, Memory.read_writeBytes_outside hm (by simpa using ha)]
  · have hl := bodyOf_out_length i s ((s.preCheck_eq_none i).1 hc).2.1
    rw [h, State.finish_mem, State.writeOutput,
      Memory.read_writeBytes_outside hm (by simpa [hl] using ha)]

/-- A command keeps memory's canonical form, and lists only bytes that exist. -/
theorem State.runCommand_memOk {i : Instr} {s : State} (hm : s.memOk) : (s.runCommand i (bodyOf i)).memOk := by
  obtain ⟨hw, hb⟩ := hm
  rcases s.runCommand_cases i (bodyOf i) with ⟨e, -, h⟩ | ⟨hc, -, h⟩ | ⟨hc, -, h⟩
  · rw [h]; exact State.racedOutput_memOk ⟨hw, hb⟩ i
  · rw [h]
    refine ⟨Memory.wf_writeBytes hw _ _, Memory.bounded_writeBytes hb ?_⟩
    rcases s.output_inRange hc with h0 | h0
    · exact .inl (List.eq_nil_of_length_eq_zero (by simpa using h0))
    · exact .inr (by simpa using h0)
  · rw [h]
    have hl := bodyOf_out_length i s ((s.preCheck_eq_none i).1 hc).2.1
    refine ⟨Memory.wf_writeBytes hw _ _, Memory.bounded_writeBytes hb ?_⟩
    rcases s.output_inRange hc with h0 | h0
    · exact .inl (List.eq_nil_of_length_eq_zero (by simpa [hl] using h0))
    · exact .inr (by simpa [hl] using h0)

/-! ### Citing an outcome -/

theorem eq_runCommand_of_exec {i : Instr} {s t : State} (h : exec i s = .next t) : t = s.runCommand i (bodyOf i) := by
  rw [exec_eq, Host.Outcome.next.injEq] at h
  exact h.symm

/-- A command that ended with OK passed its checks, met no bus error, and finished its body. -/
theorem State.finish_of_exec_ok {i : Instr} {s t : State} (h : exec i s = .next t) (he : t.err = .ok) :
    s.preCheck i = none ∧ s.busHit i = false ∧ t = s.finish i (bodyOf i s) := by
  have ht := eq_runCommand_of_exec h
  rcases s.runCommand_cases i (bodyOf i) with ⟨e, hc, h'⟩ | ⟨-, -, h'⟩ | ⟨hc, hb, h'⟩ <;> rw [h'] at ht <;> subst ht
  · have := State.preCheck_code hc
    simp at he; subst he; simp at this
  · simp at he
  · exact ⟨hc, hb, rfl⟩

/-- An undisturbed command whose checks pass finishes its body. -/
theorem State.Undisturbed.exec_eq_finish {i : Instr} {s : State} (h : s.Undisturbed i) (hc : s.preCheck i = none) :
    exec i s = .next (s.finish i (bodyOf i s)) := by
  rw [exec_eq, State.runCommand_ok hc h.no_bus]

/-- The checks read the MAC context's pstate only through the sequence check (40_command.md R163). -/
theorem State.preCheck_withMac {i : Instr} {s : State} {m : MacContext} (h : sequenceOk i m = sequenceOk i s.mac) :
    State.preCheck i { s with mac := m } = s.preCheck i := by
  simp [State.preCheck, h]

/-! ### Reading memory after an outcome -/

/-- A byte of the output range after a finished command. -/
theorem State.finish_read_inside {i : Instr} {s : State} (hm : s.mem.wf) {e : Effect}
    (hl : e.out.length = (outputRange i s.x).len) {a : Nat} (ha : inside (outputRange i s.x) a = true) :
    (s.finish i e).mem.read a =
      s.settledByte (s.touchesSideEffects i) a (e.out.getD (a - (outputRange i s.x).start) 0) := by
  simp only [inside_iff] at ha
  rw [State.finish_mem, State.writeOutput, Memory.read_writeBytes hm, dif_pos (by simpa [hl] using ha),
    State.settledBytes_getElem _ _ _ _ _ (by omega), List.getD_eq_getElem _ _ (by omega)]
  congr 1
  omega

/-- Byte j of the output of an undisturbed finished command is byte j of its body's output. -/
theorem State.Undisturbed.finish_read {i : Instr} {s : State} (h : s.Undisturbed i) (hm : s.mem.wf) (e : Effect) {j : Nat}
    (hj : j < e.out.length) : (s.finish i e).mem.read ((outputRange i s.x).start + j) = e.out[j] := by
  rw [State.finish_mem, h.writeOutput, Memory.read_writeBytes_inside hm _ _ _ hj]

/-- A byte of the output range after a bus error is free (20_memory.md R98 (b)). -/
theorem State.busError_read_inside {i : Instr} {s : State} (hm : s.mem.wf) {a : Nat}
    (ha : inside (outputRange i s.x) a = true) : (s.busError i).mem.read a = Config.freeByte s.draw .output a := by
  simp only [inside_iff] at ha
  rw [State.busError_mem, State.freeOutput, Memory.read_writeBytes hm, dif_pos (by simpa using ha),
    freeBytes_getElem _ _ _ _ _ (by omega)]
  congr 1
  omega

/-- A byte string read back where each of its bytes is. -/
theorem Memory.bytes_eq_of_read (m : Memory) (a : Nat) (l : List Byte)
    (h : ∀ j (hj : j < l.length), m.read (a + j) = l[j]) : m.bytes a l.length = l := by
  apply List.ext_getElem (by simp)
  intro j h1 h2
  rw [Memory.bytes_getElem, h j h2]

end Sys2Proof.Machine
end

