-- ==== Sys2Proof/Laws/PerInstr.lean ====
section
/-! SUPPORT. One lemma per command: its word's fields are those of 30_encoding.md R130 and R133, and they are legal. -/

namespace Sys2Proof.Laws.EncodingLegal

/-- The fields of the command's word are the ones R130 and R133 give it, and the three checks of R135 admit them. -/
def Statement (i : Instr) : Prop := fieldsOf (encode i) = i.fields ∧ i.fields.legal = true

theorem chachaXor : Statement .chachaXor := ⟨by decide, by decide⟩
theorem polyInit : Statement .polyInit := ⟨by decide, by decide⟩
theorem polyUpdate : Statement .polyUpdate := ⟨by decide, by decide⟩
theorem polyFinish : Statement .polyFinish := ⟨by decide, by decide⟩
theorem aeadSeal : Statement .aeadSeal := ⟨by decide, by decide⟩
theorem aeadOpen : Statement .aeadOpen := ⟨by decide, by decide⟩
theorem x25519 (clamp : Bool) : Statement (.x25519 clamp) := ⟨by cases clamp <;> decide, by cases clamp <;> decide⟩

end Sys2Proof.Laws.EncodingLegal
end

