-- ==== Sys2Proof/Laws/Step.lean ====
section
/-! SUPPORT. What a step can do, said once: the engine's step in its three cases, a host access in its cases, and a
register write of the host script as one equation. -/

namespace Sys2Proof.Machine

/-! ### The engine -/

theorem engineStep_idle {s : State} (hp : s.phase = .idle) : engineStep s = .next s := by
  unfold engineStep; rw [hp]

theorem engineStep_illegal {s : State} (hp : s.phase = .busy) (hd : decode s.cmdword = none) :
    engineStep s = .next (s.raise .illegal) := by
  unfold engineStep; rw [hp, hd]

theorem engineStep_exec {s : State} {i : Instr} (hp : s.phase = .busy) (hd : decode s.cmdword = some i) :
    engineStep s = exec i s := by
  unfold engineStep; rw [hp, hd]

/-- The engine's step: nothing when idle, else ILLEGAL or the command. -/
theorem engineStep_cases (s : State) :
    (s.phase = .idle ∧ engineStep s = .next s) ∨
    (s.phase = .busy ∧ decode s.cmdword = none ∧ engineStep s = .next (s.raise .illegal)) ∨
    (∃ i, s.phase = .busy ∧ decode s.cmdword = some i ∧ engineStep s = .next (s.runCommand i (bodyOf i))) := by
  cases hp : s.phase with
  | idle => exact .inl ⟨rfl, engineStep_idle hp⟩
  | busy =>
    cases hd : decode s.cmdword with
    | none => exact .inr (.inl ⟨rfl, rfl, engineStep_illegal hp hd⟩)
    | some i => exact .inr (.inr ⟨i, rfl, rfl, by rw [engineStep_exec hp hd, exec_eq]⟩)

/-! ### The host -/

theorem Reg.offset_aligned (r : Reg) : r.offset + 4 ≤ 256 ∧ r.offset % 4 = 0 := by
  cases r with
  | arg n => cases n <;> simp [Reg.offset]
  | _ => simp [Reg.offset]

@[simp] theorem regAt_offset (r : Reg) : regAt r.offset = r := by
  cases r with
  | arg n => cases n <;> rfl
  | _ => rfl

/-- An aligned 32-bit access inside the window reaches the register at its offset (10_state.md R47). -/
theorem target_window (p : Params) {offset : Nat} (h : offset + 4 ≤ 256) (h4 : offset % 4 = 0) :
    target p (p.base + offset) 4 = .reg (regAt offset) := by
  unfold target
  rw [if_neg (by omega), if_pos ⟨rfl, by omega, by simpa using h4⟩]
  simp

@[simp] theorem target_register (p : Params) (r : Reg) : target p (p.base + r.offset) 4 = .reg r := by
  rw [target_window p r.offset_aligned.1 r.offset_aligned.2, regAt_offset]

/-- A 32-bit write inside the window, reset not asserted, is the register write. -/
theorem State.act_regWrite {s : State} {addr : Nat} {r : Reg} {v : Word} (hl : s.resetLine = false)
    (ht : target s.params addr 4 = .reg r) :
    s.act (.regWrite addr 4 v) = .next { s.writeReg r v with response := .written } := by
  simp [State.act, State.busWrite, hl, ht]

/-- A 32-bit read inside the window, reset not asserted, answers the register's value. -/
theorem State.act_regRead {s : State} {addr : Nat} {r : Reg} (hl : s.resetLine = false)
    (ht : target s.params addr 4 = .reg r) :
    s.act (.regRead addr 4) = .next { s with response := .word (s.readReg r) } := by
  simp [State.act, State.busRead, hl, ht]

/-- One line `wr REG, v` of a host script (30_encoding.md R139). -/
theorem step_wr {s : State} {r : Reg} {v : Word} {ts : List Turn} (hl : s.resetLine = false)
    (h : s.turns = wr s.params r v :: ts) :
    step s = .next { State.writeReg r v { s with turns := ts } with response := .written } := by
  simp only [step, h, wr]
  exact State.act_regWrite (s := s.rest ts) hl (by simp)

/-- A CTRL write with SRST = 1 (70_reset_and_hazards.md R452). -/
theorem State.writeCtrl_reset {s : State} {v : Word} (h : v.getLsbD 1 = true) : s.writeCtrl v = s.resetBlock := by
  unfold State.writeCtrl; rw [if_pos h]

/-- A CTRL write with SRST = 0 (70_reset_and_hazards.md R452). -/
theorem State.writeCtrl_enable {s : State} {v : Word} (h : v.getLsbD 1 = false) :
    s.writeCtrl v = { s with ie := v.getLsbD 0 } := by
  unfold State.writeCtrl; rw [if_neg (by simp only [h]; simp)]

/-- A CMD write while idle (40_command.md R161). -/
theorem State.writeCmd_idle {s : State} {w : Word} (h : s.phase = .idle) : s.writeCmd w = s.issue w := by
  unfold State.writeCmd; rw [h]

/-- A CMD write while BUSY (10_state.md R39). -/
theorem State.writeCmd_busy {s : State} {w : Word} (h : s.phase = .busy) : s.writeCmd w = { s with cmdOvr := true } := by
  unfold State.writeCmd; rw [h]

/-- Which bytes a race can be about: the input and output bytes of the command in flight (20_memory.md R113). -/
theorem State.inFlightByte_iff (s : State) (a : Nat) :
    s.inFlightByte a = true ↔ s.phase = .busy ∧ ∃ i, decode s.cmdword = some i ∧ touches i s.x a = true := by
  unfold State.inFlightByte State.inFlight
  cases hp : s.phase with
  | idle => simp
  | busy => cases hd : decode s.cmdword <;> simp

/-- Which bytes read as any value meanwhile: the output bytes of the command in flight (20_memory.md R112). -/
theorem State.inFlightOutput_iff (s : State) (a : Nat) :
    s.inFlightOutput a = true ↔
      s.phase = .busy ∧ ∃ i, decode s.cmdword = some i ∧ inside (outputRange i s.x) a = true := by
  unfold State.inFlightOutput State.inFlight
  cases hp : s.phase with
  | idle => simp
  | busy => cases hd : decode s.cmdword <;> simp

/-- The raced bytes after a race has met `a`. -/
theorem State.mem_racedWith (s : State) (a b : Nat) :
    b ∈ s.racedWith a ↔ b ∈ s.raced ∨ b = a ∧ s.inFlightByte a = true := by
  unfold State.racedWith
  split
  · rename_i h
    simp only [Bool.and_eq_true] at h
    simp [h.1, or_comm]
  · rename_i h
    simp only [Bool.and_eq_true, Bool.not_eq_true', List.contains_eq_mem, decide_eq_false_iff_not, not_and, not_not] at h
    exact ⟨.inl, fun h' => h'.elim id fun ⟨he, hf⟩ => he ▸ h hf⟩

/-- A byte that is not the command's in flight is no race. -/
theorem State.racedWith_of_not {s : State} {a : Nat} (h : s.inFlightByte a = false) : s.racedWith a = s.raced := by
  simp [State.racedWith, h]

/-- What an action that goes through can do. -/
theorem State.act_cases {s t : State} {a : HostAction} (h : s.act a = .next t) :
    (∃ r, t = { s with response := r }) ∨
    (∃ addr v r, a = .regWrite addr 4 v ∧ s.resetLine = false ∧ target s.params addr 4 = .reg r ∧
      t = { s.writeReg r v with response := .written }) ∨
    (∃ addr, a = .memRead addr ∧ addr < 2 ^ s.params.addrW ∧ t = s.agentRead addr) ∨
    (∃ addr v, a = .memWrite addr v ∧ addr < 2 ^ s.params.addrW ∧ t = s.agentWrite addr v) ∨
    (∃ addr output, a = .peerByte addr output ∧ (output = true ∨ s.inFlightOutput addr = true) ∧
      t = { s with raced := s.racedWith addr }) ∨
    (a = .resetAssert ∧ t = { s.resetBlock with resetLine := true }) ∨
    (a = .resetRelease ∧ t = { s with resetLine := false }) := by
  cases a with
  | regRead addr bytes =>
    refine .inl ?_
    simp only [State.act, Host.Outcome.next.injEq] at h
    subst h
    unfold State.busRead
    split
    · exact ⟨_, rfl⟩
    · split <;> exact ⟨_, rfl⟩
  | regWrite addr bytes v =>
    simp only [State.act, Host.Outcome.next.injEq] at h
    subst h
    unfold State.busWrite
    split
    · exact .inl ⟨_, rfl⟩
    · rename_i hl
      split
      · exact .inl ⟨_, rfl⟩
      · exact .inl ⟨_, rfl⟩
      · rename_i r ht
        have hb : bytes = 4 := by
          unfold target at ht
          split at ht
          · simp at ht
          · split at ht
            · rename_i h; exact h.1
            · simp at ht
        subst hb
        exact .inr (.inl ⟨addr, v, r, rfl, by simpa using hl, ht, rfl⟩)
  | memRead addr =>
    simp only [State.act] at h
    split at h
    · rename_i ha
      exact .inr (.inr (.inl ⟨addr, rfl, ha, by simpa using h.symm⟩))
    · simp at h
  | memWrite addr v =>
    simp only [State.act] at h
    split at h
    · rename_i ha
      exact .inr (.inr (.inr (.inl ⟨addr, v, rfl, ha, by simpa using h.symm⟩)))
    · simp at h
  | peerByte addr output =>
    simp only [State.act, State.peerByte, Host.Outcome.next.injEq] at h
    split at h
    · rename_i ho
      exact .inr (.inr (.inr (.inr (.inl ⟨addr, output, rfl, by simpa using ho, h.symm⟩))))
    · exact .inl ⟨s.response, h.symm⟩
  | resetAssert => exact .inr (.inr (.inr (.inr (.inr (.inl ⟨rfl, by simpa [State.act] using h.symm⟩)))))
  | resetRelease => exact .inr (.inr (.inr (.inr (.inr (.inr ⟨rfl, by simpa [State.act] using h.symm⟩)))))

/-! ### Reset -/

/-- A byte of memory after a reset: free in the existing part of the output range of a command in flight, else as before
(70_reset_and_hazards.md R453). -/
theorem State.memoryAfterReset_read {s : State} (hm : s.mem.wf) (a : Nat) :
    s.memoryAfterReset.read a =
      match s.inFlight with
      | none   => s.mem.read a
      | some i =>
        if inside (outputRange i s.x) a = true ∧ a < 2 ^ s.params.addrW then Config.freeByte s.draw .aborted a
        else s.mem.read a := by
  unfold State.memoryAfterReset State.inFlight
  cases hp : s.phase with
  | idle => rfl
  | busy =>
    cases hd : decode s.cmdword with
    | none => rfl
    | some i =>
      simp only [State.abortedOutput, Memory.read_writeBytes hm, freeBytes_length, inside_iff, existingLen]
      split
      · rename_i h
        rw [freeBytes_getElem _ _ _ _ _ (by omega), if_pos (by omega)]
        congr 1
        omega
      · rw [if_neg (by omega)]

/-- A reset keeps memory's canonical form, and lists only bytes that exist. -/
theorem State.memoryAfterReset_memOk {s : State} (h : s.memOk) :
    s.memoryAfterReset.wf ∧ ∀ c ∈ s.memoryAfterReset, c.1 < 2 ^ s.params.addrW := by
  unfold State.memoryAfterReset
  split
  · exact h
  · exact h
  · rename_i i _ _
    refine ⟨Memory.wf_writeBytes h.1 _ _, Memory.bounded_writeBytes h.2 ?_⟩
    by_cases hz : existingLen s.params (outputRange i s.x) = 0
    · left; rw [hz]; rfl
    · right; rw [freeBytes_length]; unfold existingLen at *; omega

/-! ### One step -/

/-- What a step that goes through can do: nothing is left to move, the engine moves, the memory does not answer, a host
acts, or a host and the engine in that order. -/
theorem step_cases {s t : State} (h : step s = .next t) :
    (s.turns = [] ∧ t = s) ∨
    (∃ ts, s.turns = .engine :: ts ∧ engineStep (s.rest ts) = .next t) ∨
    (∃ ts, s.turns = .memoryWait :: ts ∧ t = s.rest ts) ∨
    (∃ a ts, s.turns = .access a :: ts ∧ (s.rest ts).act a = .next t) ∨
    (∃ a ts, s.turns = .accessThenEngine a :: ts ∧ ∃ u, (s.rest ts).act a = .next u ∧
      (s.phase = .idle ∧ t = u ∨ s.phase = .busy ∧ engineStep u = .next t)) := by
  unfold step at h
  split at h
  · rename_i hts
    exact .inl ⟨hts, by simpa using h.symm⟩
  · rename_i ts hts
    exact .inr (.inl ⟨ts, hts, h⟩)
  · rename_i ts hts
    exact .inr (.inr (.inl ⟨ts, hts, by simpa using h.symm⟩))
  · rename_i a ts hts
    exact .inr (.inr (.inr (.inl ⟨a, ts, hts, h⟩)))
  · rename_i a ts hts
    refine .inr (.inr (.inr (.inr ⟨a, ts, hts, ?_⟩)))
    unfold actThenEngine at h
    split at h
    · rename_i u hu
      refine ⟨u, hu, ?_⟩
      cases hp : s.phase with
      | idle =>
        have hp' : (s.rest ts).phase = .idle := hp
        rw [hp'] at h
        exact .inl ⟨rfl, by simpa using h.symm⟩
      | busy =>
        have hp' : (s.rest ts).phase = .busy := hp
        rw [hp'] at h
        exact .inr ⟨rfl, h⟩
    · simp at h
    · simp at h

end Sys2Proof.Machine
end

