-- ==== Sys2Proof/Tests/Slice0.lean ====
section
/-! SUPPORT. The model's own tests: the ill-formed words the checks refuse, each command's word written out from
30_encoding.md R130 and R133, and the vectors of spec 95_test_vectors.md (named in each comment), one engine step each. -/

namespace Sys2Proof.Tests

open Sys2Proof.Machine

/-- The `n`-byte string whose hexadecimal pairs, first byte first, are the digits of `v`. -/
def hex (n v : Nat) : List Byte := (leBytes n v).reverse

/-- A state with a command in flight, the latched arguments `x`, and the listed byte strings in memory. -/
def flight (x : Args) (strings : List (Nat × List Byte)) : State :=
  { State.reset with
    phase := .busy
    x     := x
    mem   := strings.foldl (fun m p => m.writeBytes p.1 p.2) [] }

/-- The bytes of memory after an outcome. -/
def bytesAfter (o : Host.Outcome State Fault Refusal) (a n : Nat) : List Byte :=
  match o with
  | .next t    => t.mem.bytes a n
  | .fault _   => []
  | .refused _ => []

/-- The STATUS word and RESULT after an outcome. -/
def statusAfter (o : Host.Outcome State Fault Refusal) : List Word :=
  match o with
  | .next t    => [t.statusWord, t.result]
  | .fault _   => []
  | .refused _ => []

/-- r, pad and the buffer of the MAC context after an outcome. -/
def macAfter (o : Host.Outcome State Fault Refusal) : Option (BitVec 128 × BitVec 128 × List Byte) :=
  match o with
  | .next t    => some (t.mac.r, t.mac.pad, t.mac.buf)
  | .fault _   => none
  | .refused _ => none

/-! ### WellFormed smoke tests: one ill-formed term for each check of 30_encoding.md R135 -/

theorem test_opc_refused : (CommandWord.opcLegal ⟨0x02#8, false, 0#23⟩) = false := by decide
theorem test_rsv_refused : (CommandWord.rsvLegal ⟨0x30#8, false, 1#23⟩) = false := by decide
theorem test_clamp_refused : (CommandWord.clampLegal ⟨0x11#8, true, 0#23⟩) = false := by decide
theorem test_legal_refuses_each :
    CommandWord.legal ⟨0x02#8, false, 0#23⟩ = false ∧ CommandWord.legal ⟨0x30#8, false, 1#23⟩ = false ∧
      CommandWord.legal ⟨0x11#8, true, 0#23⟩ = false := by decide
theorem test_legal_admits : CommandWord.legal ⟨0x30#8, true, 0#23⟩ = true := by decide

/-! ### Decoding: RSV (23 bits), CLAMP (1 bit), OPC (8 bits) -/

theorem test_decode_chachaXor  : decode 0b00000000000000000000000_0_00000001#32 = some .chachaXor := by decide
theorem test_decode_polyInit   : decode 0b00000000000000000000000_0_00010000#32 = some .polyInit := by decide
theorem test_decode_polyUpdate : decode 0b00000000000000000000000_0_00010001#32 = some .polyUpdate := by decide
theorem test_decode_polyFinish : decode 0b00000000000000000000000_0_00010010#32 = some .polyFinish := by decide
theorem test_decode_aeadSeal   : decode 0b00000000000000000000000_0_00100000#32 = some .aeadSeal := by decide
theorem test_decode_aeadOpen   : decode 0b00000000000000000000000_0_00100001#32 = some .aeadOpen := by decide
theorem test_decode_x25519_raw : decode 0b00000000000000000000000_0_00110000#32 = some (.x25519 false) := by decide
theorem test_decode_x25519     : decode 0b00000000000000000000000_1_00110000#32 = some (.x25519 true) := by decide

/-- 95_test_vectors.md R10: the illegal words. -/
theorem test_illegal_words :
    [0x00000000#32, 0x00000002#32, 0x00000013#32, 0x00000022#32, 0x00000031#32, 0x000000FF#32, 0x00000111#32,
      0x00000120#32, 0x00000230#32, 0x80000001#32].all (fun w => (decode w).isNone) = true := by decide

/-! ### Registers and lifecycle (95_test_vectors.md 2.5) -/

/-- R1: every register after reset. -/
theorem test_reset_registers :
    [Reg.id, .ctrl, .status, .cmd, .arg .dst, .arg .aadLen, .result, .reserved].map State.reset.readReg =
      [0x84397748#32, 0#32, 0#32, 0#32, 0#32, 0#32, 0#32, 0#32] := by decide

/-- R3: an 8-bit access and a misaligned 32-bit access get a bus error; 0x0C is CMD. -/
theorem test_malformed_access :
    [target Params.default 0x08 1, target Params.default 0x09 4, target Params.default 0x0C 4,
      target Params.default 0xFC 8, target Params.default 0x100 4] =
      [.malformed, .malformed, .reg .cmd, .malformed, .outside] := by decide

/-- R5: 0xFFFFFFFF to CTRL is a soft reset and IE stays 0. -/
theorem test_srst_discards_ie : ({ State.reset with ie := true }.writeReg .ctrl 0xFFFFFFFF#32).ctrlWord = 0#32 := by
  decide

/-- R12: a CMD write while BUSY is dropped; CMD still reads the running word. -/
theorem test_cmd_overrun :
    let s := (State.reset.issue 0x10#32).writeReg .cmd 0x11#32
    (s.cmdword, s.statusWord) = (0x10#32, 0x5#32) := by decide

/-- R16: a completion in the same step as a write of 0x2 to STATUS leaves DONE = 1. -/
theorem test_completion_beats_clear :
    statusAfter (step { State.reset.issue 0#32 with turns := [.accessThenEngine (.regWrite 0x08 4 0x2#32)] }) =
      [0x00000102#32, 0xFFFFFFFF#32] := by decide

/-! ### Stream cipher -/

/-- V2: the quarter-round. -/
theorem test_quarterRound :
    (quarterRound 0 1 2 3 #v[0x11111111, 0x01020304, 0x9b8d6f43, 0x01234567, 0, 0, 0, 0, 0, 0, 0, 0, 0, 0, 0, 0]).take 4 =
      #v[0xea2a92f4, 0xcb1cf8ce, 0x4581472e, 0x5881c4bb] := by decide +kernel

/-- V1: the block function. -/
theorem test_chachaBlock :
    chachaBlock (hex 32 0x000102030405060708090a0b0c0d0e0f101112131415161718191a1b1c1d1e1f) 1
        (hex 12 0x000000090000004a00000000) =
      hex 64 0x10f1e7e4d13b5915500fdd1fa32071c4c7d1f4c733c068030422aa9ac3d46c4ed2826446079faa0914c2d705d98b02a2b5129cd1de164eb9cbd083e8a2503c4e := by
  decide +kernel

/-- The 114-byte text of V3. -/
def sunscreen : List Byte :=
  hex 114 0x4c616469657320616e642047656e746c656d656e206f662074686520636c617373206f66202739393a204966204920636f756c64206f6666657220796f75206f6e6c79206f6e652074697020666f7220746865206675747572652c2073756e73637265656e20776f756c642062652069742e

/-- V3's key and nonce, at 0x1000 and 0x1020, and a source string at 0x2000. -/
def chachaFlight (dst : Word) (n : Word) (ctr : Word) (src : List Byte) : State :=
  flight { Args.zero with dst := dst, src := 0x2000, len := n, key := 0x1000, nonce := 0x1020, ctr := ctr }
    [(0x1000, hex 32 0x000102030405060708090a0b0c0d0e0f101112131415161718191a1b1c1d1e1f),
     (0x1020, hex 12 0x000000000000004a00000000), (0x2000, src)]

/-- V3 in place (C7), its first 16 bytes. -/
theorem test_chachaXor_V3 :
    let o := exec .chachaXor (chachaFlight 0x2000 16 1 (sunscreen.take 16))
    bytesAfter o 0x2000 16 = hex 16 0x6e2e359a2568f98041ba0728dd0d6981 ∧ statusAfter o = [0x00000002#32, 16#32] := by
  decide +kernel

/-- C11: a partial overlap is OVERLAP. -/
theorem test_chachaXor_overlap :
    statusAfter (exec .chachaXor (chachaFlight 0x2001 16 1 [])) = [0x00000502#32, 0xFFFFFFFF#32] := by decide +kernel

/-- C5: the counter 0xFFFFFFFF wraps to 0 in the second block. -/
theorem test_keystream_wrap :
    (keystream (hex 32 0x000102030405060708090a0b0c0d0e0f101112131415161718191a1b1c1d1e1f)
      (hex 12 0x000000000000004a00000000) 0xFFFFFFFF 72).drop 64 = hex 8 0xaf051e40bba03549 := by decide +kernel

/-! ### Polynomial MAC -/

def polyKey : List Byte := hex 32 0x85d6be7857556d337f4452fe42d506a80103808afb0db2fd4abff6af4149f51b

def forum : List Byte := hex 34 0x43727970746f6772617068696320466f72756d2052657365617263682047726f7570

/-- V4: r and pad after POLY_INIT (S3: STATUS = 0x12). -/
theorem test_polyInit :
    let o := exec .polyInit (flight { Args.zero with key := 0x1000 } [(0x1000, polyKey)])
    statusAfter o = [0x00000012#32, 0#32] ∧
    macAfter o = some (0x0806d5400e52447c036d555408bed685#128, 0x1bf54941aff6bf4afdb20dfb8a800301#128, []) := by
  decide +kernel

/-- S5: 29 bytes after the buffered "Crypt" leave "up" in the buffer. -/
theorem test_polyUpdate :
    (macAfter (exec .polyUpdate { flight { Args.zero with src := 0x2005, len := 29 } [(0x2000, forum)] with
        mac := (MacContext.init polyKey).update (forum.take 5) })).map (·.2.2) = some (hex 2 0x7570) := by decide +kernel

/-- S2: STATE is checked even when n = 0. -/
theorem test_polyUpdate_state : statusAfter (exec .polyUpdate (flight Args.zero [])) = [0x00000202#32, 0xFFFFFFFF#32] := by
  decide +kernel

/-- V5 and S6: the tag and STATUS = 0x22, RESULT = 16. -/
theorem test_polyFinish :
    let o := exec .polyFinish { flight { Args.zero with dst := 0x3000 } [] with mac := (MacContext.init polyKey).update forum }
    bytesAfter o 0x3000 16 = hex 16 0xa8061dc1305136c6c22b8baf0c0127a9 ∧ statusAfter o = [0x00000022#32, 16#32] := by
  decide +kernel

/-- P2, P4 and P8: the pad carry dropped, the accumulator exactly p130, the clamp of r. -/
theorem test_poly1305_edges :
    poly1305 (hex 32 0x02000000000000000000000000000000ffffffffffffffffffffffffffffffff)
      (hex 16 0x02000000000000000000000000000000) = hex 16 0x03000000000000000000000000000000 ∧
    poly1305 (hex 32 0x0100000000000000000000000000000000000000000000000000000000000000)
      (hex 48 0xfffffffffffffffffffffffffffffffffbfefefefefefefefefefefefefefefe01010101010101010101010101010101) =
        List.replicate 16 0 ∧
    poly1305 (List.replicate 32 0xff) (List.replicate 16 0xff) = hex 16 0xfbffff17faffff17faffff17faffff17 := by
  decide +kernel

/-- V5 and P4 by the limb realisation of R263. -/
theorem test_limbPoly1305 :
    limbPoly1305 polyKey forum = hex 16 0xa8061dc1305136c6c22b8baf0c0127a9 ∧
    limbPoly1305 (hex 32 0x0100000000000000000000000000000000000000000000000000000000000000)
      (hex 48 0xfffffffffffffffffffffffffffffffffbfefefefefefefefefefefefefefefe01010101010101010101010101010101) =
        List.replicate 16 0 := by decide +kernel

/-- R113: after a race on the last of 5 data bytes the context's tags are any value; a race beside the data does nothing. -/
theorem test_polyUpdate_raced :
    let after := fun a => match exec .polyUpdate { flight { Args.zero with src := 0x2000, len := 5 } [] with
      raced := [a], mac := MacContext.init polyKey } with
      | .next t => some t.mac.anyTag
      | _       => none
    after 0x2004 = some true ∧ after 0x2005 = some false := by decide +kernel

/-- R119: a byte that only another instance reads is raced where POLY_FINISH writes it, not where CHACHA_XOR reads it; a
byte it writes is raced there too. -/
theorem test_peerByte_races :
    let raced := fun w a output => match State.act (.peerByte a output)
        { flight { Args.zero with dst := 0x3000, src := 0x2000, len := 1 } [] with cmdword := w } with
      | .next t => t.raced
      | _       => []
    raced 0x12#32 0x300F false = [0x300F] ∧ raced 0x01#32 0x2000 false = [] ∧ raced 0x01#32 0x2000 true = [0x2000] ∧
      raced 0x01#32 0x2001 true = [] := by decide +kernel

/-! ### AEAD -/

/-- V6's key and nonce at 0x1000 and 0x1020, V7's associated data at 0x1040, a source string at 0x2000. -/
def aeadFlight (dst n aadLen : Word) (src : List Byte) : State :=
  flight { dst := dst, src := 0x2000, len := n, key := 0x1000, nonce := 0x1020, ctr := 0, aad := 0x1040, aadLen := aadLen }
    [(0x1000, hex 32 0x808182838485868788898a8b8c8d8e8f909192939495969798999a9b9c9d9e9f),
     (0x1020, hex 12 0x070000004041424344454647), (0x1040, hex 12 0x50515253c0c1c2c3c4c5c6c7), (0x2000, src)]

/-- V7's 130 output bytes. -/
def sealed : List Byte :=
  hex 130 0xd31a8d34648e60db7b86afbc53ef7ec2a4aded51296e08fea9e2b5a736ee62d63dbea45e8ca9671282fafb69da92728b1a71de0a9e060b2905d6a5b67ecd3b3692ddbd7f2d778b8c9803aee328091b58fab324e4fad675945585808b4831d7bc3ff4def08e4b7a9de576d26586cec64b61161ae10b594f09e26a7e902ecbd0600691

/-- V7: ciphertext and tag. -/
theorem test_sealBytes_V7 :
    sealBytes (hex 32 0x808182838485868788898a8b8c8d8e8f909192939495969798999a9b9c9d9e9f)
      (hex 12 0x070000004041424344454647) (hex 12 0x50515253c0c1c2c3c4c5c6c7) sunscreen = sealed := by decide +kernel

/-- A3: one plaintext byte and no associated data. -/
theorem test_aeadSeal_A3 :
    let o := exec .aeadSeal (aeadFlight 0x3000 1 0 [])
    bytesAfter o 0x3000 17 = hex 17 0x9fbb758e737cb56e18df4748421b085bb0 ∧ statusAfter o = [0x00000002#32, 17#32] := by
  decide +kernel

/-- V7's first two ciphertext bytes opened in place, the first with bit 0 flipped (A10): 'M' for 'L', then 'a'. -/
theorem test_aeadOpen_A10 :
    let o := exec .aeadOpen (aeadFlight 0x2000 18 0 (hex 2 0xd21a))
    bytesAfter o 0x2000 2 = hex 2 0x4d61 ∧ statusAfter o = [0x00000002#32, 2#32] := by decide +kernel

/-- A8 and A12: L = 15 is LENGTH; an output that starts at the tag is OVERLAP. -/
theorem test_aeadOpen_errors :
    statusAfter (exec .aeadOpen (aeadFlight 0x5000 15 0 [])) = [0x00000302#32, 0xFFFFFFFF#32] ∧
    statusAfter (exec .aeadOpen (aeadFlight 0x2072 130 0 [])) = [0x00000502#32, 0xFFFFFFFF#32] := by decide +kernel

/-- R103: of memory that is not idempotent, AEAD_OPEN's unread last tag byte counts, the byte after it does not; neither is
a byte that can give BUS (R297). -/
theorem test_aeadOpen_tag_memory :
    let s := fun a => { aeadFlight 0x3000 18 0 [] with
      params := { Params.default with sideEffecting := [⟨a, 1⟩], rejecting := [⟨a, 1⟩] } }
    (s 0x2011).touchesSideEffects .aeadOpen = true ∧ (s 0x2012).touchesSideEffects .aeadOpen = false ∧
      (s 0x2011).busHit .aeadOpen = false := by decide

/-! ### X25519 -/

/-- A scalar at 0x1000 and a point at 0x1020, the result to 0x2000. -/
def curveFlight (k u : List Byte) : State :=
  flight { Args.zero with dst := 0x2000, src := 0x1020, key := 0x1000 } [(0x1000, k), (0x1020, u)]

/-- V9, whose u has bit 255 set. -/
theorem test_x25519_V9 :
    bytesAfter (exec (.x25519 true) (curveFlight
      (hex 32 0x4b66e9d4d1b4673c5ad22691957d6af5c11b6421e0ea01d42ca4169e7918ba0d)
      (hex 32 0xe5210f12786811d3f4b7959d0538ae2c31dbe7106fc03c3efc4cd549c715a493))) 0x2000 32 =
      hex 32 0x95cbde9476e8907d7aade45cb4b873f88b595a68799fa152e6f8f7647aac7957 := by decide +kernel

/-- X10, the unclamped scalar, and X5, whose zero point gives DIAG = 1 (STATUS = 0xA). -/
theorem test_x25519_raw_and_degenerate :
    bytesAfter (exec (.x25519 false) (curveFlight
      (hex 32 0x77076d0a7318a57d3c16c17251b26645df4c2f87ebc0992ab177fba51db92c2a) basePoint)) 0x2000 32 =
      hex 32 0xd23c65b66ad6757a03693fec52b63c3ebb2d86e64065895a728995f14f907f14 ∧
    statusAfter (exec (.x25519 true) (curveFlight
      (hex 32 0x77076d0a7318a57d3c16c17251b26645df4c2f87ebc0992ab177fba51db92c2a) (List.replicate 32 0))) =
      [0x0000000A#32, 32#32] := by decide +kernel

/-! ### The host's interface to the model -/

/-- The next step after `withFetchWord` runs the word: POLY_INIT from reset completes with OK. -/
theorem test_withFetchWord :
    decodeTableWord 32 0x10 = some .polyInit ∧
      statusAfter (step (State.reset.withFetchWord 32 0x10)) = [0x00000012#32, 0#32] := by decide +kernel

/-! ### Witnesses: for each statement with hypotheses, states and operands that meet all of them together -/

/-- A state with the command of word `w` in flight. -/
def inFlight (w : Word) (x : Args) (strings : List (Nat × List Byte)) : State :=
  { flight x strings with cmdword := w }

theorem witness_DecodeEncodeRoundTrip : ∃ w i, decode w = some i := ⟨0x00000130#32, .x25519 true, by decide⟩

theorem witness_StepRunsDecodedCommand :
    let s := { inFlight 0x10 Args.zero [] with turns := [.engine] }
    s.phase = .busy ∧ decode s.cmdword = some .polyInit ∧ s.turns = [.engine] := by decide

theorem witness_IllegalWordCompletesWithIllegal :
    let s := fun w => { State.reset with turns := [wr State.reset.params .cmd w, .engine] ++ [] }
    [0x00000000#32, 0x00000111#32, 0x80000001#32].all (fun w => decide (decode w = none ∧ (s w).phase = .idle ∧
      (s w).resetLine = false ∧ (s w).turns = [wr (s w).params .cmd w, .engine] ++ [])) = true := by decide

theorem witness_CmdWriteIssuesOrIsDropped :
    ∃ s u : State, s.resetLine = false ∧ s.turns = [wr s.params .cmd 0x10#32] ∧ s.phase = .idle ∧
      u.resetLine = false ∧ u.turns = [wr u.params .cmd 0x10#32] ∧ u.phase = .busy :=
  ⟨{ State.reset with turns := [wr State.reset.params .cmd 0x10#32] },
    { inFlight 0x01 Args.zero [] with turns := [wr State.reset.params .cmd 0x10#32] }, by decide⟩

/-- By a STATUS write, a soft reset, the reset input, and a STATUS write in the step of a completion. -/
theorem witness_CmdOvrSetByDroppedWriteClearedByHost :
    (inFlight 0x01 Args.zero []).phase = .busy ∧ (0x4#32).getLsbD 2 = true ∧ (0x2#32).getLsbD 1 = true ∧
    ∀ τ ∈ [wr State.reset.params .status 0x4#32, wr State.reset.params .ctrl 0x2#32, .access .resetAssert,
        .accessThenEngine (.regWrite 0x08 4 0x4#32)],
      let s := { inFlight 0x00 Args.zero [] with cmdOvr := true, turns := [τ] }
      s.cmdOvr = true ∧ ∃ t, step s = .next t ∧ t.cmdOvr = false := by
  refine ⟨rfl, by decide, by decide, fun τ hτ => ⟨rfl, ?_⟩⟩
  simp only [List.mem_cons, List.not_mem_nil, or_false] at hτ
  rcases hτ with rfl | rfl | rfl | rfl <;> exact ⟨_, rfl, by decide⟩

theorem witness_StatusRegister :
    ∃ s : State, s.resetLine = false ∧ s.turns = [wr s.params .status 0xFFFFFFFF#32] :=
  ⟨{ State.reset with turns := [wr State.reset.params .status 0xFFFFFFFF#32] }, by decide⟩

theorem witness_CtrlWriteSoftReset :
    ∃ s u : State, s.resetLine = false ∧ s.turns = [wr s.params .ctrl 0x3#32] ∧ (0x3#32).getLsbD 1 = true ∧
      u.resetLine = false ∧ u.turns = [wr u.params .ctrl 0xFFFFFFFD#32] ∧ (0xFFFFFFFD#32).getLsbD 1 = false :=
  ⟨{ State.reset with turns := [wr State.reset.params .ctrl 0x3#32] },
    { State.reset with turns := [wr State.reset.params .ctrl 0xFFFFFFFD#32] }, by decide⟩

theorem witness_ReservedReadsZeroIgnoresWrites :
    State.reset.resetLine = false ∧ (∀ o ∈ [0x34, 0xFC], 0x34 ≤ o ∧ o ≤ 0xFC ∧ o % 4 = 0) ∧
      (0xFFFFFFFC#32).extractLsb' 0 2 = (0#32).extractLsb' 0 2 ∧
      (0xFFFFFFF9#32).extractLsb' 1 2 = (0#32).extractLsb' 1 2 := by decide

/-- The malformed accesses at both edges of a window at 0x100, then its first and last word. -/
theorem witness_MalformedAccessGetsBusError :
    let s := { State.reset with params := { Params.default with base := 0x100 } }
    s.resetLine = false ∧
    (∀ p ∈ [(0xFF, 2), (0x1FF, 1), (0x1FE, 4), (0x102, 4), (0x100, 8)], 0 < p.2 ∧ p.1 < s.params.base + 256 ∧
      s.params.base < p.1 + p.2 ∧ ¬(p.2 = 4 ∧ s.params.base ≤ p.1 ∧ (p.1 - s.params.base) % 4 = 0)) ∧
    ∀ a ∈ [0x100, 0x1FC], a < s.params.base + 256 ∧ s.params.base < a + 4 ∧ s.params.base ≤ a ∧
      (a - s.params.base) % 4 = 0 := by decide

theorem witness_RegisterMapReads : State.reset.resetLine = false := rfl

theorem witness_ArgWriteChangesOneRegister :
    ∃ s : State, s.resetLine = false ∧ s.turns = [wr s.params (.arg .aadLen) 0xFFFFFFFF#32] ∧ ArgName.dst ≠ .aadLen :=
  ⟨{ inFlight 0x01 Args.zero [] with turns := [wr State.reset.params (.arg .aadLen) 0xFFFFFFFF#32] }, by decide⟩

theorem witness_IdNeverChanges : ∃ s t : State, step s = .next t :=
  ⟨{ State.reset with turns := [wr State.reset.params .id 0#32] }, _, rfl⟩

theorem witness_InterruptFollowsDoneAndEnable :
    (∃ t, (inFlight 0x111 Args.zero []).phase = .busy ∧ engineStep (inFlight 0x111 Args.zero []) = .next t) ∧
      (0x1#32).getLsbD 0 = true ∧ (0x1#32).getLsbD 1 = false ∧ (0x2#32).getLsbD 1 = true ∧ State.reset.phase = .idle ∧
      (∃ t, State.act .resetAssert State.reset = .next t) ∧ (0x0#32).getLsbD 0 = false ∧ (0x0#32).getLsbD 1 = false :=
  ⟨⟨_, rfl, rfl⟩, by decide, by decide, by decide, rfl, ⟨_, rfl⟩, by decide, by decide⟩

/-- Idle; and with 16 bytes at 0x3000 being written, the byte before and the byte after them; both resets. -/
theorem witness_ResetLeavesTheTableValues :
    let s := inFlight 0x12 { Args.zero with dst := 0x3000 } []
    State.reset.mem.wf ∧ State.reset.phase = .idle ∧ s.mem.wf ∧ s.phase = .busy ∧ s.resetLine = false ∧
    (0x2#32).getLsbD 1 = true ∧ decode s.cmdword = some .polyFinish ∧
    (∀ a ∈ [0x2FFF, 0x3010], inside (outputRange .polyFinish s.x) a = false) ∧
    ∃ t u v, State.act .resetAssert s = .next t ∧ u.mac = t.mac ∧ exec .polyUpdate u = .next v :=
  ⟨by decide, rfl, by decide, rfl, rfl, by decide, by decide, by decide, _, State.reset, _, rfl, rfl, rfl⟩

/-- A command whose output range ends past the last byte of memory, an illegal word, both resets. -/
theorem witness_ResetAbortsCommandInFlight :
    let s := fun w => inFlight w { Args.zero with dst := 0xFFFFFFF8 } []
    (s 0x12).mem.wf ∧ (s 0x12).phase = .busy ∧ decode (s 0x12).cmdword = some .polyFinish ∧
      decode (s 0x112).cmdword = none ∧ (s 0x12).resetLine = false ∧ (0x2#32).getLsbD 1 = true ∧
      (∀ a ∈ [HostAction.resetAssert, .regWrite ((s 0x12).params.base + 0x04) 4 0x2#32],
        a = .resetAssert ∨ a = .regWrite ((s 0x12).params.base + 0x04) 4 0x2#32) ∧
      ∀ b ∈ [0xFFFFFFF8, 0xFFFFFFFF], inside (outputRange .polyFinish (s 0x12).x) b = true ∧
        b < 2 ^ (s 0x12).params.addrW := by decide

theorem witness_AssertedResetAnswersNothing : { State.reset with resetLine := true }.resetLine = true := rfl

theorem witness_UnansweredCommandStaysInFlight :
    ∃ s t u : State, s.phase = .busy ∧ s.turns = List.replicate 2 .memoryWait ++ [.engine] ∧
      t.phase = .busy ∧ t.turns = [] ∧ u.phase = .busy ∧ u.turns = [.engine] :=
  ⟨{ inFlight 0x10 Args.zero [] with turns := [.memoryWait, .memoryWait, .engine] }, inFlight 0x10 Args.zero [],
    { inFlight 0x10 Args.zero [] with turns := [.engine] }, by decide⟩

theorem witness_SameStepAccessPrecedesCompletion :
    ∀ a ∈ [HostAction.regWrite 0x08 4 0x2#32, .resetAssert, .regWrite 0x04 4 0x2#32, .regWrite 0x0C 4 0x10#32],
      let s := { inFlight 0x01 Args.zero [] with turns := [.accessThenEngine a] }
      s.phase = .busy ∧ s.resetLine = false ∧ s.turns = [.accessThenEngine a] ∧
        (a = .regWrite (s.params.base + 0x08) 4 0x2#32 ∨ a = .resetAssert ∨
          (a = .regWrite (s.params.base + 0x04) 4 0x2#32 ∧ (0x2#32).getLsbD 1 = true) ∨
          a = .regWrite (s.params.base + 0x0C) 4 0x10#32) := by decide

/-- The last byte of memory as an output byte, an input byte, with the block idle, and the first byte that is none. -/
theorem witness_AgentMemoryAccesses :
    let s := inFlight 0x01 { Args.zero with dst := 0xFFFFFFFF, len := 1, key := 0x1000, nonce := 0x1020 } []
    s.mem.wf ∧ s.phase = .busy ∧ decode s.cmdword = some .chachaXor ∧ 0xFFFFFFFF < 2 ^ s.params.addrW ∧
      inside (outputRange .chachaXor s.x) 0xFFFFFFFF = true ∧ touches .chachaXor s.x 0x101F = true ∧
      inside (outputRange .chachaXor s.x) 0x101F = false ∧ State.reset.phase = .idle ∧
      2 ^ s.params.addrW ≤ 0x100000000 := by decide

/-- A raced output byte, a raced input byte beside an output byte that is not raced, and a side-effecting key byte; each
other command ends with OK with byte 0 of its operands raced, whether or not the context's tags are any value, and
POLY_UPDATE with no data byte raced too: the first byte after the data is. -/
theorem witness_RacedAndSideEffectingBytesTakeAnyValue :
    let s := { chachaFlight 0x3000 2 1 [] with raced := [0x3000, 0x2001] }
    let u := { chachaFlight 0x3000 2 1 [] with params := { Params.default with sideEffecting := [⟨0x101F, 1⟩] } }
    s.mem.wf ∧ (∃ t, exec .chachaXor s = .next t ∧ t.err = .ok) ∧ (∀ a, idempotent s.params a = true) ∧
      inside (outputRange .chachaXor s.x) 0x3000 = true ∧ 0x3000 ∈ s.raced ∧ s.x.dst.toNat + 1 ∉ s.raced ∧
      u.mem.wf ∧ (∃ t, exec .chachaXor u = .next t ∧ t.err = .ok) ∧
      (∃ r ∈ handedRanges .chachaXor u.x, ∃ b, inside r b = true ∧ idempotent u.params b = false) ∧
      ∀ i ∈ [Instr.polyInit, .polyUpdate, .polyFinish, .aeadSeal, .aeadOpen, .x25519 false],
        ∀ anyTag : Bool, ∀ raced ∈ [[0, 0x3000], [16]],
          let v := { flight { Args.zero with dst := 0x3000, len := 16 } [] with
            raced := raced, mac := { MacContext.init polyKey with anyTag := anyTag } }
          ∃ t, exec i v = .next t ∧ t.err = .ok := by
  refine ⟨by decide, ⟨_, rfl, by decide +kernel⟩, fun _ => rfl, by decide, by decide, by decide, by decide,
    ⟨_, rfl, by decide +kernel⟩, ⟨⟨0x1000, 32⟩, by decide, 0x101F, by decide, by decide⟩,
    fun i hi anyTag raced hr => ⟨_, exec_eq _ _, ?_⟩⟩
  simp only [List.mem_cons, List.not_mem_nil, or_false] at hi hr
  rcases hi with rfl | rfl | rfl | rfl | rfl | rfl <;> rcases hr with rfl | rfl <;> cases anyTag <;> decide +kernel

theorem witness_MacSequenceCheck :
    (∃ t, exec .polyUpdate (flight Args.zero []) = .next t) ∧
      ∃ t u, exec .polyInit (flight Args.zero []) = .next t ∧
        exec .polyInit { flight Args.zero [] with mac := { MacContext.reset with pstate := .final } } = .next u ∧
        Instr.polyInit ≠ .polyUpdate ∧ Instr.polyInit ≠ .polyFinish :=
  ⟨⟨_, rfl⟩, _, _, rfl, rfl, by decide, by decide⟩

/-- On both sides of each limit: the longest length that passes and the shortest that fails. -/
theorem witness_LengthLimits :
    let err := fun i n => ((flight { Args.zero with len := n } []).preCheck i)
    err .chachaXor 0xFFFFFFFE ≠ some .length ∧ err .chachaXor 0xFFFFFFFF = some .length ∧
    err .aeadSeal 0xFFFFFFEE ≠ some .length ∧ err .aeadSeal 0xFFFFFFEF = some .length ∧
    err .aeadOpen 16 ≠ some .length ∧ err .aeadOpen 15 = some .length ∧
    (∃ t, exec .aeadOpen (flight { Args.zero with len := 15 } []) = .next t) ∧
    Instr.polyUpdate ≠ .chachaXor ∧ Instr.polyUpdate ≠ .aeadSeal ∧ Instr.polyUpdate ≠ .aeadOpen :=
  ⟨by decide, by decide, by decide, by decide, by decide, by decide, ⟨_, rfl⟩, by decide, by decide, by decide⟩

/-- Each command next to the end of memory: the last place that fits, and the next. -/
theorem witness_RangeCheck :
    let at' := fun (p n : Word) => { flight { Args.zero with dst := p, src := 0, len := n, key := 0x1000, nonce := 0x1020 } []
      with mac := { MacContext.reset with pstate := .accum } }
    (at' 0xFFFFFFF0 16).preCheck .chachaXor = none ∧ (at' 0xFFFFFFF1 16).preCheck .chachaXor = some .range ∧
    (at' 0xFFFFFFF0 0).preCheck .polyFinish = none ∧ (at' 0xFFFFFFF1 0).preCheck .polyFinish = some .range ∧
    (at' 0xFFFFFFE0 16).preCheck .aeadSeal = none ∧ (at' 0xFFFFFFE1 16).preCheck .aeadSeal = some .range ∧
    (at' 0xFFFFFFFF 17).preCheck .aeadOpen = none ∧ (at' 0xFFFFFFFF 18).preCheck .aeadOpen = some .range ∧
    (at' 0xFFFFFFE0 0).preCheck (.x25519 true) = none ∧ (at' 0xFFFFFFE1 0).preCheck (.x25519 true) = some .range ∧
    (at' 0 0xFFFFFFFF).preCheck .polyUpdate = none ∧ (at' 0 0).preCheck .polyInit = none ∧
    (at' 0 16).mac.pstate = .accum := by decide

/-- Touching but disjoint, one byte in common, and the associated data at the output's start. -/
theorem witness_OverlapCheck :
    let at' := fun (d a : Word) =>
      flight { Args.zero with dst := d, src := 0x2000, len := 16, key := 0x1000, nonce := 0x1020, aad := a, aadLen := 1 } []
    (at' 0x2010 0).preCheck .chachaXor = none ∧ (at' 0x200F 0).preCheck .chachaXor = some .overlap ∧
    (at' 0x1FF1 0).preCheck .chachaXor = some .overlap ∧ (at' 0x2000 0).preCheck .aeadSeal = none ∧
    (at' 0x2000 0x2000).preCheck .aeadSeal = some .overlap ∧ (at' 0x2000 0x201F).preCheck .aeadSeal = some .overlap ∧
    (at' 0x2000 0x2020).preCheck .aeadSeal = none ∧ (at' 0x2008 0).preCheck .aeadOpen = none := by decide

/-- With a raced output byte that exists, the last one of memory, and with no race. -/
theorem witness_FailedCheckChangesNothingElse :
    let s := { flight { Args.zero with dst := 0xFFFFFFFF } [] with raced := [0xFFFFFFFF] }
    s.mem.wf ∧ (∃ t, exec .polyFinish s = .next t ∧ t.err ≠ .ok ∧ t.err ≠ .bus) ∧
      0xFFFFFFFF ∈ s.raced ∧ inside (outputRange .polyFinish s.x) 0xFFFFFFFF = true ∧ 0xFFFFFFFF < 2 ^ s.params.addrW ∧
      (flight Args.zero []).raced = [] ∧ ∃ t, exec .polyUpdate (flight Args.zero []) = .next t ∧ t.err ≠ .ok ∧ t.err ≠ .bus :=
  ⟨by decide, ⟨_, rfl, by decide, by decide⟩, by decide, by decide, by decide, rfl, _, rfl, by decide, by decide⟩

/-- The first byte of the key, and the last byte of the output, of memory that rejects it. -/
theorem witness_BusErrorFreesOutputRange :
    let s := fun a => { chachaFlight 0x3000 16 1 [] with params := { Params.default with rejecting := [⟨a, 1⟩] } }
    (s 0).mem.wf ∧ ∀ c ∈ [(rangeAt 0x1000 32, 0x1000), (rangeAt 0x3000 16, 0x300F)],
      (s c.2).preCheck .chachaXor = none ∧ c.1 ∈ outputRange .chachaXor (s c.2).x :: readRanges .chachaXor (s c.2).x ∧
        inside c.1 c.2 = true ∧ memAdmits (s c.2).params c.2 = false := by decide

theorem witness_BusErrorDiscardsMacContext :
    let s := { flight { Args.zero with dst := 0x3000 } [] with
      params := { Params.default with rejecting := [⟨0x3008, 1⟩] }, mac := MacContext.init polyKey }
    s.mem.wf ∧ ∃ t, exec .polyFinish s = .next t ∧ t.err = .bus ∧ { State.reset with mac := t.mac }.mac = t.mac :=
  ⟨by decide, _, rfl, by decide +kernel, rfl⟩

theorem empty_wf : Memory.wf [] := by decide

/-- With no parameter out of the ordinary and no race, every command is undisturbed. -/
theorem flight_undisturbed (x : Args) (strings : List (Nat × List Byte)) (i : Instr) : (flight x strings).Undisturbed i :=
  State.undisturbed_of_plain rfl rfl rfl rfl i

/-- The empty input at the end of memory, and the longest input, in place. -/
theorem witness_ChachaXorResult :
    let ends : Args := { Args.zero with dst := 0xFFFFFFFF, src := 0xFFFFFFFF, key := 0xFFFFFFE0, nonce := 0xFFFFFFF4 }
    ∀ x ∈ [ends, { ends with dst := 2, src := 2, len := 0xFFFFFFFE }],
      let s := flight x []
      s.mem.wf ∧ s.Undisturbed .chachaXor ∧ s.x.len.toNat ≤ 0xFFFFFFFE ∧
      inRange s.params (rangeAt s.x.src s.x.len.toNat) = true ∧ inRange s.params (rangeAt s.x.dst s.x.len.toNat) = true ∧
      inRange s.params (rangeAt s.x.key 32) = true ∧ inRange s.params (rangeAt s.x.nonce 12) = true ∧
      overlap (rangeAt s.x.src s.x.len.toNat) (rangeAt s.x.dst s.x.len.toNat) = false := by
  intro ends x hx
  refine ⟨empty_wf, flight_undisturbed _ _ _, ?_⟩
  revert x
  decide

theorem witness_PolyInitResult :
    ∃ s : State, s.Undisturbed .polyInit ∧ inRange s.params (rangeAt s.x.key 32) = true :=
  ⟨flight { Args.zero with key := 0xFFFFFFE0 } [], flight_undisturbed _ _ _, by decide⟩

/-- Data of 0 bytes, and of 11 bytes that end a block with the 5 buffered ones. -/
theorem witness_PolyUpdateResult :
    ∀ n ∈ [0, 11], ∃ s : State, s.x.len = BitVec.ofNat 32 n ∧ s.Undisturbed .polyUpdate ∧ s.mac.pstate = .accum ∧
      inRange s.params (rangeAt s.x.src s.x.len.toNat) = true := by
  intro n hn
  refine ⟨{ flight { Args.zero with src := 0x2005, len := BitVec.ofNat 32 n } [(0x2000, forum)] with
    mac := (MacContext.init polyKey).update (forum.take 5) }, rfl, State.undisturbed_of_plain rfl rfl rfl rfl _, rfl, ?_⟩
  revert n
  decide +kernel

/-- With an empty buffer and with one byte buffered, in a context whose tag is the rule's and in one whose tag is free. -/
theorem witness_PolyFinishResult :
    ∀ b ∈ [[], [0x43#8]], ∀ anyTag : Bool, ∃ s : State, s.mac.buf = b ∧ s.mac.anyTag = anyTag ∧ s.mem.wf ∧ s.Undisturbed .polyFinish ∧ s.mac.pstate = .accum ∧
      inRange s.params (rangeAt s.x.dst 16) = true :=
  fun b _ anyTag => ⟨{ flight { Args.zero with dst := 0xFFFFFFF0 } [] with
    mac := { MacContext.init polyKey with buf := b, anyTag := anyTag } }, rfl, rfl, empty_wf, State.undisturbed_of_plain rfl rfl rfl rfl _, rfl, rfl⟩

/-- No plaintext and no associated data, and the longest plaintext, in place. -/
theorem witness_AeadSealResult :
    let shortest : Args := { Args.zero with dst := 0xFFFFFFF0, src := 0xFFFFFFFF, aad := 0xFFFFFFF8 }
    ∀ x ∈ [shortest, { shortest with dst := 2, src := 2, len := 0xFFFFFFEE, aad := 0, aadLen := 2 }],
      let s := flight x []
      s.mem.wf ∧ s.Undisturbed .aeadSeal ∧ s.x.len.toNat ≤ 0xFFFFFFEE ∧
      inRange s.params (rangeAt s.x.src s.x.len.toNat) = true ∧
      inRange s.params (rangeAt s.x.dst (s.x.len.toNat + 16)) = true ∧
      inRange s.params (rangeAt s.x.key 32) = true ∧ inRange s.params (rangeAt s.x.nonce 12) = true ∧
      inRange s.params (rangeAt s.x.aad s.x.aadLen.toNat) = true ∧
      overlap (rangeAt s.x.src s.x.len.toNat) (rangeAt s.x.dst (s.x.len.toNat + 16)) = false ∧
      intersect (rangeAt s.x.aad s.x.aadLen.toNat) (rangeAt s.x.dst (s.x.len.toNat + 16)) = false := by
  intro shortest x hx
  refine ⟨empty_wf, flight_undisturbed _ _ _, ?_⟩
  revert x
  decide

/-- A tag alone, and the longest input, in place. -/
theorem witness_AeadOpenResult :
    ∀ n ∈ [16, 0xFFFFFFFF],
      let s := flight { Args.zero with dst := 1, src := 1, len := BitVec.ofNat 32 n } []
      s.mem.wf ∧ s.Undisturbed .aeadOpen ∧ 16 ≤ s.x.len.toNat ∧
      inRange s.params (rangeAt s.x.src s.x.len.toNat) = true ∧
      inRange s.params (rangeAt s.x.dst (s.x.len.toNat - 16)) = true ∧
      inRange s.params (rangeAt s.x.key 32) = true ∧ inRange s.params (rangeAt s.x.nonce 12) = true ∧
      overlap (rangeAt s.x.src s.x.len.toNat) (rangeAt s.x.dst (s.x.len.toNat - 16)) = false := by
  intro n hn
  refine ⟨empty_wf, flight_undisturbed _ _ _, ?_⟩
  revert n
  decide

/-- For either CLAMP bit: the result over the scalar. -/
theorem witness_X25519Result :
    ∀ clamp : Bool, ∃ s : State, s.mem.wf ∧ s.Undisturbed (.x25519 clamp) ∧ inRange s.params (rangeAt s.x.src 32) = true ∧
      inRange s.params (rangeAt s.x.dst 32) = true ∧ inRange s.params (rangeAt s.x.key 32) = true :=
  fun _ => ⟨flight { Args.zero with src := 0xFFFFFFE0, dst := 0x1000, key := 0x1000 } [], by decide,
    flight_undisturbed _ _ _, by decide⟩

theorem witness_EveryCommandCompletesInItsFrame : (chachaFlight 0x3000 16 1 sunscreen).mem.wf := by decide +kernel

theorem witness_SentinelMarksFailedCommands : ∃ t, exec .polyUpdate (flight Args.zero []) = .next t := ⟨_, rfl⟩

/-- Success from ACCUM, the wrong state, and BUS. -/
theorem witness_PolyStateTransitions :
    let s := fun p => { flight { Args.zero with dst := 0x3000 } [] with mac := { MacContext.reset with pstate := p } }
    (∃ t, exec .polyInit (s .final) = .next t ∧ t.err = .ok) ∧
    (∃ t, exec .polyUpdate (s .accum) = .next t ∧ (s .accum).mac.pstate = .accum ∧ t.err = .ok) ∧
    (∃ t, exec .polyFinish (s .accum) = .next t ∧ (s .accum).mac.pstate = .accum ∧ t.err = .ok) ∧
    (∃ t, exec .polyFinish (s .final) = .next t ∧ (s .final).mac.pstate ≠ .accum ∧ t.err ≠ .bus ∧ t.err ≠ .ok) ∧
    ∃ t, exec .polyInit { s .uninit with params := { Params.default with rejecting := [⟨0, 1⟩] } } = .next t ∧
      t.err = .bus :=
  ⟨⟨_, rfl, by decide +kernel⟩, ⟨_, rfl, rfl, by decide +kernel⟩, ⟨_, rfl, rfl, by decide +kernel⟩,
    ⟨_, rfl, by decide, by decide +kernel, by decide +kernel⟩, _, rfl, by decide +kernel⟩

theorem witness_AeadIsolatesMacContext :
    ∃ t, exec .aeadSeal (aeadFlight 0x3000 1 0 []) = .next t ∧ Instr.aeadSeal ≠ .polyInit ∧ Instr.aeadSeal ≠ .polyUpdate ∧
      Instr.aeadSeal ≠ .polyFinish := ⟨_, rfl, by decide, by decide, by decide⟩

theorem witness_UninitMacValuesUnobservable :
    let s := flight { Args.zero with key := 0x1000 } [(0x1000, polyKey)]
    let m := { MacContext.reset with acc := 5, buf := [0x43#8] }
    s.mac.pstate = .uninit ∧ m.pstate = .uninit ∧ m ≠ s.mac ∧
      ∃ t u, exec .polyInit s = .next t ∧ exec .polyInit { s with mac := m } = .next u ∧ t.err = .ok :=
  ⟨rfl, rfl, by decide, _, _, rfl, rfl, by decide +kernel⟩

/-- V4's key and the first 5 bytes of its message, in one POLY_UPDATE. -/
theorem witness_TagIndependentOfChunking :
    ∃ key m c, ∃ s t : State, MacStream key c m ∧ m ≠ [] ∧ s.mac = c ∧ s.mem.wf ∧ s.Undisturbed .polyFinish ∧
      exec .polyFinish s = .next t ∧ t.err = .ok := by
  have started : MacStream polyKey (MacContext.init polyKey) [] := by
    have := MacStream.init (s := flight { Args.zero with key := 0x1000 } [(0x1000, polyKey)]) (flight_undisturbed _ _ _) rfl
      (by decide +kernel)
    have hk : (flight { Args.zero with key := 0x1000 } [(0x1000, polyKey)]).mem.bytes 0x1000 32 = polyKey := by decide +kernel
    rw [show (flight { Args.zero with key := 0x1000 } [(0x1000, polyKey)]).x.key.toNat = 0x1000 from rfl, hk] at this
    convert this using 1
    decide +kernel
  let s : State := { flight { Args.zero with src := 0x2000, len := 5 } [(0x2000, forum)] with mac := MacContext.init polyKey }
  have updated := MacStream.update (s := s) started rfl (State.undisturbed_of_plain rfl rfl rfl rfl _) rfl (by decide +kernel)
  refine ⟨_, _, _, { flight { Args.zero with dst := 0x3000 } [] with mac := _ }, _, updated, ?_, rfl, by decide,
    State.undisturbed_of_plain rfl rfl rfl rfl _, rfl, by decide +kernel⟩
  decide +kernel

/-- V3 in place, run twice. -/
theorem witness_ChachaXorTwiceRestoresInput :
    let s := chachaFlight 0x2000 16 1 (sunscreen.take 16)
    let t := s.runCommand .chachaXor chachaXorBody
    s.Undisturbed .chachaXor ∧ t.Undisturbed .chachaXor ∧ exec .chachaXor s = .next t ∧
    (∃ v, exec .chachaXor t = .next v ∧ v.err = .ok) ∧
    s.mem.wf ∧ t.err = .ok ∧ t.mem.wf ∧
    t.mem.bytes t.x.src.toNat t.x.len.toNat = t.mem.bytes s.x.dst.toNat s.x.len.toNat ∧
    t.mem.bytes t.x.key.toNat 32 = s.mem.bytes s.x.key.toNat 32 ∧
    t.mem.bytes t.x.nonce.toNat 12 = s.mem.bytes s.x.nonce.toNat 12 ∧ t.x.ctr = s.x.ctr ∧ t.x.len = s.x.len :=
  ⟨flight_undisturbed _ _ _, State.undisturbed_of_plain (by decide +kernel) (by decide +kernel) (by decide +kernel)
    (by decide +kernel) _, rfl, ⟨_, rfl, by decide +kernel⟩, by decide +kernel⟩

/-- V3's first bytes, in place and to another place, with another MAC context. -/
theorem witness_ChachaXorDeterminedByItsInputs :
    let s := chachaFlight 0x2000 16 1 (sunscreen.take 16)
    let u := { chachaFlight 0x3000 16 1 (sunscreen.take 16) with mac := MacContext.init polyKey }
    s.mem.wf ∧ u.mem.wf ∧ s.Undisturbed .chachaXor ∧ u.Undisturbed .chachaXor ∧
      (∃ t, exec .chachaXor s = .next t ∧ t.err = .ok) ∧ (∃ v, exec .chachaXor u = .next v ∧ v.err = .ok) ∧
      s.x.len = u.x.len ∧ s.x.ctr = u.x.ctr ∧ s.mem.bytes s.x.key.toNat 32 = u.mem.bytes u.x.key.toNat 32 ∧
      s.mem.bytes s.x.nonce.toNat 12 = u.mem.bytes u.x.nonce.toNat 12 ∧
      s.mem.bytes s.x.src.toNat s.x.len.toNat = u.mem.bytes u.x.src.toNat u.x.len.toNat :=
  ⟨by decide +kernel, by decide +kernel, flight_undisturbed _ _ _, State.undisturbed_of_plain rfl rfl rfl rfl _,
    ⟨_, rfl, by decide +kernel⟩, ⟨_, rfl, by decide +kernel⟩, rfl, rfl, rfl, rfl, rfl⟩

/-- A3's output opened to another place. -/
theorem witness_OpenAfterSealRestoresPlaintext :
    let s := aeadFlight 0x3000 1 0 []
    let t := s.runCommand .aeadSeal aeadSealBody
    let u := { t with x := { t.x with src := 0x3000, dst := 0x4000, len := 17 } }
    s.Undisturbed .aeadSeal ∧ u.Undisturbed .aeadOpen ∧ exec .aeadSeal s = .next t ∧
    (∃ v, exec .aeadOpen u = .next v ∧ v.err = .ok) ∧
    s.mem.wf ∧ t.err = .ok ∧ u.mem.wf ∧ u.x.len = t.result ∧
    u.mem.bytes u.x.src.toNat u.x.len.toNat = t.mem.bytes s.x.dst.toNat (s.x.len.toNat + 16) ∧
    u.mem.bytes u.x.key.toNat 32 = s.mem.bytes s.x.key.toNat 32 ∧
    u.mem.bytes u.x.nonce.toNat 12 = s.mem.bytes s.x.nonce.toNat 12 :=
  ⟨flight_undisturbed _ _ _, State.undisturbed_of_plain (by decide +kernel) (by decide +kernel) (by decide +kernel)
    (by decide +kernel) _, rfl, ⟨_, rfl, by decide +kernel⟩, by decide +kernel⟩

/-- A10's input with and without the flipped bit, and another tag. -/
theorem witness_OpenIsTamperInsensitive :
    let s := aeadFlight 0x2000 18 0 (hex 2 0xd21a)
    let u := aeadFlight 0x2000 18 0 (hex 3 0xd31aff)
    s.mem.wf ∧ u.mem.wf ∧ s.Undisturbed .aeadOpen ∧ u.Undisturbed .aeadOpen ∧
      (∃ t, exec .aeadOpen s = .next t ∧ t.err = .ok) ∧ (∃ v, exec .aeadOpen u = .next v ∧ v.err = .ok) ∧
      s.x.len = u.x.len ∧ s.mem.bytes s.x.key.toNat 32 = u.mem.bytes u.x.key.toNat 32 ∧
      s.mem.bytes s.x.nonce.toNat 12 = u.mem.bytes u.x.nonce.toNat 12 :=
  ⟨by decide +kernel, by decide +kernel, flight_undisturbed _ _ _, flight_undisturbed _ _ _,
    ⟨_, rfl, by decide +kernel⟩, ⟨_, rfl, by decide +kernel⟩, rfl, by decide +kernel, by decide +kernel⟩

theorem witness_ScalarClamping : (List.replicate 32 0xFF#8).length = 32 := by decide

/-- 0 and p255, with and without bit 255. -/
theorem witness_PointBit255AndNonCanonicalIgnored :
    ∀ u ∈ [List.replicate 31 0#8 ++ [0x80#8], 0xED#8 :: List.replicate 30 0xFF#8 ++ [0x7F#8]],
      leNat u % 2 ^ 255 % (2 ^ 255 - 19) = leNat (List.replicate 32 0#8) % 2 ^ 255 % (2 ^ 255 - 19) := by decide +kernel

theorem witness_RawScalarBit255Ignored :
    leNat (List.replicate 31 0xFF#8 ++ [0xFF#8]) % 2 ^ 255 = leNat (List.replicate 31 0xFF#8 ++ [0x7F#8]) % 2 ^ 255 := by
  decide +kernel

/-- A zero denominator, canonical and not. -/
theorem witness_LadderResultIsCanonical :
    ∀ z ∈ [0, 2 ^ 255 - 19], ({ runLadder 0 9 with z2 := z }).z2 % (2 ^ 255 - 19) = 0 := by decide +kernel

theorem witness_HostScriptsExpand : State.reset.phase = .idle ∧ State.reset.resetLine = false := ⟨rfl, rfl⟩

theorem witness_MemoryReadsWhatWasWritten : Memory.wf [(0, 1#8), (0xFFFFFFFF, 2#8)] := by decide

theorem witness_CanonicalMemoriesThatReadAlikeAreEqual :
    ∃ m n : Memory, m.wf ∧ n.wf ∧ ∀ a, m.read a = n.read a :=
  ⟨[(5, 1#8)], Memory.write (Memory.write [(5, 1#8)] 6 2#8) 6 0#8, by decide, by decide, fun _ => rfl⟩

/-- The invariant in a state with POLY_INIT just issued, whose step completes it. -/
theorem witness_EveryStepKeepsInvariant : ∃ s t : State, s.Inv ∧ step s = .next t ∧ s.phase = .busy :=
  ⟨{ State.reset.issue 0x10#32 with turns := [.engine] }, _,
    { addr_width       := by decide
      mem_ok           := ⟨by decide, by decide⟩
      mac_ok           := ⟨by decide, by decide, by decide, by decide, by decide⟩
      busy_clear       := by decide
      sentinel_iff     := by decide
      diag_x25519      := by simp [State.issue]
      transient_absent := rfl
      raced_inFlight   := by decide
      reset_idle       := by decide }, rfl, rfl⟩

/-- A MAC command that changes the context, a reset that does, and a POLY_INIT in a context whose tags are any value. -/
theorem witness_MacContextChangesOnlyByMacCommandsAndReset :
    (∃ s t : State, step s = .next t ∧ t.mac ≠ s.mac ∧ s.phase = .busy) ∧
    (∃ s t : State, step s = .next t ∧ t.mac ≠ s.mac ∧ s.phase = .idle) ∧
    ∃ s t : State, step s = .next t ∧ s.mac.anyTag = true ∧ t.mac.anyTag = false ∧ t.mac.pstate ≠ .uninit :=
  ⟨⟨{ State.reset.issue 0x10#32 with turns := [.engine] }, _, rfl, by decide +kernel, rfl⟩,
    ⟨{ State.reset with mac := MacContext.init polyKey, turns := [.access .resetAssert] }, _, rfl, by decide +kernel, rfl⟩,
    { State.reset.issue 0x10#32 with turns := [.engine], mac := { MacContext.reset with anyTag := true } }, _, rfl, rfl,
      by decide +kernel, by decide +kernel⟩

/-- While CHACHA_XOR is in flight the host writes a byte beside its ranges, reads an input byte and writes an argument. -/
theorem witness_ObeyingAccessesDoNotChangeTheResult :
    let s := { chachaFlight 0x3000 16 1 (sunscreen.take 16) with cmdword := 0x00000001#32 }
    s.mem.wf ∧ s.phase = .busy ∧ decode s.cmdword = some .chachaXor ∧
      ∃ t u v, ObeyingAccesses s t ∧ t ≠ s ∧ engineStep s = .next u ∧ engineStep t = .next v := by
  refine ⟨by decide +kernel, rfl, by decide, _, _, _,
    .more (.regWrite 0x10 4 0x9000#32) (.more (.memRead 0x2000) (.more (.memWrite 0x3010 0x55#8) (.none _)
      (by decide +kernel) rfl rfl) (by decide +kernel) rfl rfl) (by decide +kernel) rfl rfl, ?_, rfl, rfl⟩
  decide +kernel

end Sys2Proof.Tests
end

section
/-! PROOFS. The laws of system memory as obligations (00_scope.md R17, 20_memory.md R99). -/

namespace Sys2Proof.Proofs

open Sys2Proof.Machine

/-- Settles O55, by the read-after-write law for byte strings: inside the written addresses the string's own byte is
the one at `b - a`, so `getD`'s default is never met. -/
theorem memoryReadsWhatWasWritten : Obligations.MemoryReadsWhatWasWritten := by
  intro m a b v hm
  refine ⟨Memory.wf_writeBytes hm a v, ?_⟩
  rw [Memory.read_writeBytes hm]
  split
  · next hin => rw [List.getD_eq_getElem v 0 (by omega)]
  · next hout => rfl

end Sys2Proof.Proofs
end

section
/-! PROOFS. The register window (10_state.md): the fields of the CTRL and STATUS words, what a bus access of each kind
does, and what a register write leaves unchanged. -/

namespace Sys2Proof.Machine

/-! ### The fields of CTRL and STATUS (10_state.md R34, R36) -/

theorem State.ctrlWord_srst (s : State) : s.ctrlWord.getLsbD 1 = false := by
  simp only [State.ctrlWord, BitVec.getLsbD_append]
  simp

theorem State.ctrlWord_reserved (s : State) : s.ctrlWord.extractLsb' 2 30 = 0#30 := by
  rw [State.ctrlWord, BitVec.extractLsb'_append_eq_of_le (by decide), BitVec.extractLsb'_zero]

theorem State.statusWord_busy (s : State) : s.statusWord.getLsbD 0 = decide (s.phase = .busy) := by
  simp only [State.statusWord, State.busy, BitVec.getLsbD_append]
  simp [BEq.beq]

theorem State.statusWord_done (s : State) : s.statusWord.getLsbD 1 = s.done := by
  simp only [State.statusWord, BitVec.getLsbD_append]
  simp

theorem State.statusWord_cmdOvr (s : State) : s.statusWord.getLsbD 2 = s.cmdOvr := by
  simp only [State.statusWord, BitVec.getLsbD_append]
  simp

theorem State.statusWord_diag (s : State) : s.statusWord.getLsbD 3 = s.diag := by
  simp only [State.statusWord, BitVec.getLsbD_append]
  simp

/-- STATUS above its four flags: reserved, ERR, reserved, POLY_STATE. -/
theorem State.statusWord_extract (s : State) {start len : Nat} (h : 4 ≤ start) :
    s.statusWord.extractLsb' start len =
      (0#16 ++ s.err.code ++ 0#2 ++ s.mac.pstate.code).extractLsb' (start - 4) len := by
  rw [State.statusWord]
  repeat rw [BitVec.extractLsb'_append_eq_of_le (by omega)]
  simp only [Nat.sub_sub]

theorem State.statusWord_polyState (s : State) : s.statusWord.extractLsb' 4 2 = s.mac.pstate.code := by
  rw [s.statusWord_extract (by decide), BitVec.extractLsb'_append_eq_right]

theorem State.statusWord_reservedLow (s : State) : s.statusWord.extractLsb' 6 2 = 0#2 := by
  rw [s.statusWord_extract (by decide), BitVec.extractLsb'_append_eq_of_le (by decide),
    BitVec.extractLsb'_append_eq_right]

theorem State.statusWord_err (s : State) : s.statusWord.extractLsb' 8 8 = s.err.code := by
  rw [s.statusWord_extract (by decide), BitVec.extractLsb'_append_eq_of_le (by decide),
    BitVec.extractLsb'_append_eq_of_le (by decide), BitVec.extractLsb'_append_eq_right]

theorem State.statusWord_reservedHigh (s : State) : s.statusWord.extractLsb' 16 16 = 0#16 := by
  rw [s.statusWord_extract (by decide), BitVec.extractLsb'_append_eq_of_le (by decide),
    BitVec.extractLsb'_append_eq_of_le (by decide), BitVec.extractLsb'_append_eq_of_le (by decide),
    BitVec.extractLsb'_zero]

/-! ### Where an access goes (10_state.md R46, R47) -/

theorem regAt_reserved {offset : Nat} (h : 0x34 ≤ offset) : regAt offset = .reserved := by
  unfold regAt
  split
  iterate 13 · omega
  · rfl

/-- An access that touches the window reaches a register if it is aligned and 32 bits wide. -/
theorem target_aligned {p : Params} {addr : Nat} (hin : addr < p.base + 256) (hb : p.base ≤ addr)
    (h4 : (addr - p.base) % 4 = 0) : target p addr 4 = .reg (regAt (addr - p.base)) := by
  unfold target
  rw [if_neg (by omega), if_pos ⟨rfl, hb, h4⟩]

/-- An access that touches the window and is not an aligned 32-bit one. -/
theorem target_malformed {p : Params} {addr bytes : Nat} (h0 : 0 < bytes) (hin : addr < p.base + 256)
    (hout : p.base < addr + bytes) (h : ¬(bytes = 4 ∧ p.base ≤ addr ∧ (addr - p.base) % 4 = 0)) :
    target p addr bytes = .malformed := by
  unfold target
  rw [if_neg (by omega), if_neg h]

/-- A malformed access, reset not asserted, is answered with a bus error and changes nothing. -/
theorem State.act_malformed {s : State} {addr bytes : Nat} (hl : s.resetLine = false)
    (ht : target s.params addr bytes = .malformed) (v : Word) :
    s.act (.regRead addr bytes) = .next { s with response := .busError } ∧
      s.act (.regWrite addr bytes v) = .next { s with response := .busError } := by
  simp [State.act, State.busRead, State.busWrite, hl, ht]

/-- The read `rd REG` of a host script (30_encoding.md R139). -/
theorem State.act_readRegister {s : State} (hl : s.resetLine = false) (r : Reg) :
    s.act (.regRead (s.params.base + r.offset) 4) = .next { s with response := .word (s.readReg r) } :=
  State.act_regRead hl (target_register s.params r)

/-- The write `wr REG, v` of a host script, as an action (30_encoding.md R139). -/
theorem State.act_writeRegister {s : State} (hl : s.resetLine = false) (r : Reg) (v : Word) :
    s.act (.regWrite (s.params.base + r.offset) 4 v) = .next { s.writeReg r v with response := .written } :=
  State.act_regWrite hl (target_register s.params r)

/-- A bus read changes nothing but the answer (10_state.md R48). -/
theorem State.busRead_eq (addr bytes : Nat) (s : State) : ∃ r, s.busRead addr bytes = { s with response := r } := by
  unfold State.busRead
  split
  · exact ⟨_, rfl⟩
  · split <;> exact ⟨_, rfl⟩

/-! ### The argument registers (10_state.md R44) -/

@[simp] theorem Args.get_set_same (x : Args) (n : ArgName) (v : Word) : (x.set n v).get n = v := by
  cases n <;> rfl

theorem Args.get_set_ne (x : Args) {m n : ArgName} (v : Word) (h : m ≠ n) : (x.set n v).get m = x.get m := by
  cases n <;> cases m <;> simp [Args.set, Args.get] at h ⊢

@[simp] theorem Args.get_zero (n : ArgName) : Args.zero.get n = 0#32 := by
  cases n <;> rfl

/-! ### What a register write leaves unchanged -/

/-- A CMD write issues the word or sets CMD_OVR (40_command.md R161, 10_state.md R39). -/
theorem State.writeCmd_cases (w : Word) (s : State) :
    (s.phase = .idle ∧ s.writeCmd w = s.issue w) ∨
      (s.phase = .busy ∧ s.writeCmd w = { s with cmdOvr := true }) := by
  have hp : s.phase = .idle ∨ s.phase = .busy := by cases s.phase <;> simp
  exact hp.imp (fun h => ⟨h, State.writeCmd_idle h⟩) fun h => ⟨h, State.writeCmd_busy h⟩

/-- A CTRL write resets the block or sets IE (70_reset_and_hazards.md R452). -/
theorem State.writeCtrl_cases (v : Word) (s : State) :
    (v.getLsbD 1 = true ∧ s.writeCtrl v = s.resetBlock) ∨
      (v.getLsbD 1 = false ∧ s.writeCtrl v = { s with ie := v.getLsbD 0 }) := by
  cases hv : v.getLsbD 1 with
  | true => exact .inl ⟨rfl, State.writeCtrl_reset hv⟩
  | false => exact .inr ⟨rfl, State.writeCtrl_enable hv⟩

/-- No register write changes the platform. -/
@[simp] theorem State.writeReg_params (r : Reg) (v : Word) (s : State) : (s.writeReg r v).params = s.params := by
  cases r with
  | ctrl => rcases s.writeCtrl_cases v with ⟨-, h⟩ | ⟨-, h⟩ <;> simp [State.writeReg, h]
  | cmd => rcases s.writeCmd_cases v with ⟨-, h⟩ | ⟨-, h⟩ <;> simp [State.writeReg, h]
  | _ => rfl

/-- A register write clears CMD_OVR only as a STATUS write with bit 2 set or as a soft reset (10_state.md R39). -/
theorem State.writeReg_clears_cmdOvr {r : Reg} {v : Word} {s : State} (h1 : s.cmdOvr = true)
    (h0 : (s.writeReg r v).cmdOvr = false) :
    r = .status ∧ v.getLsbD 2 = true ∨ r = .ctrl ∧ v.getLsbD 1 = true := by
  cases r with
  | status => exact .inl ⟨rfl, by simpa [State.writeReg, h1] using h0⟩
  | ctrl =>
    rcases s.writeCtrl_cases v with ⟨hv, -⟩ | ⟨-, h⟩
    · exact .inr ⟨rfl, hv⟩
    · simp [State.writeReg, h, h1] at h0
  | cmd => rcases s.writeCmd_cases v with ⟨-, h⟩ | ⟨-, h⟩ <;> simp [State.writeReg, h, h1] at h0
  | _ => simp [State.writeReg, h1] at h0

/-- Two words agree in every bit of a field on which they agree. -/
theorem getLsbD_eq_of_extractLsb'_eq {v w : Word} {start len : Nat}
    (h : v.extractLsb' start len = w.extractLsb' start len) {j : Nat} (hj : j < len) :
    v.getLsbD (start + j) = w.getLsbD (start + j) := by
  have := congrArg (·.getLsbD j) h
  simpa [BitVec.getLsbD_extractLsb', hj] using this

/-! ### What an action and a step leave unchanged -/

theorem State.act_params {s t : State} {a : HostAction} (h : s.act a = .next t) : t.params = s.params := by
  rcases State.act_cases h with ⟨r, rfl⟩ | ⟨addr, v, r, -, -, -, rfl⟩ | ⟨addr, -, -, rfl⟩ | ⟨addr, v, -, -, rfl⟩ |
    ⟨addr, output, -, -, rfl⟩ | ⟨-, rfl⟩ | ⟨-, rfl⟩
  · rfl
  · exact State.writeReg_params r v s
  · unfold State.agentRead; split <;> rfl
  all_goals rfl

/-- An action clears CMD_OVR only as the reset input, a STATUS write with bit 2 set, or a soft reset (10_state.md R39). -/
theorem State.act_clears_cmdOvr {s t : State} {a : HostAction} (h : s.act a = .next t) (h1 : s.cmdOvr = true)
    (h0 : t.cmdOvr = false) :
    a = .resetAssert ∨ ∃ addr bytes v, a = .regWrite addr bytes v ∧
      (target s.params addr bytes = .reg .status ∧ v.getLsbD 2 = true ∨
       target s.params addr bytes = .reg .ctrl ∧ v.getLsbD 1 = true) := by
  rcases State.act_cases h with ⟨r, rfl⟩ | ⟨addr, v, r, rfl, -, ht, rfl⟩ | ⟨addr, -, -, rfl⟩ | ⟨addr, v, -, -, rfl⟩ |
    ⟨addr, output, -, -, rfl⟩ | ⟨ha, -⟩ | ⟨-, rfl⟩
  · simp [h1] at h0
  · refine .inr ⟨addr, 4, v, rfl, ?_⟩
    rw [ht]
    simpa using State.writeReg_clears_cmdOvr h1 h0
  · unfold State.agentRead at h0; split at h0 <;> simp [h1] at h0
  · simp [h1] at h0
  · simp [h1] at h0
  · exact .inl ha
  · simp [h1] at h0

/-- However a command ends, the registers are kept, the block is idle, and DONE is set (40_command.md R170). -/
theorem State.runCommand_keepsRegisters (i : Instr) (body : State → Effect) (s : State) :
    KeepsRegisters s (s.runCommand i body) ∧ (s.runCommand i body).phase = .idle ∧
      (s.runCommand i body).done = true := by
  rcases s.runCommand_cases i body with ⟨e, -, h⟩ | ⟨-, -, h⟩ | ⟨-, -, h⟩ <;> rw [h] <;> simp [KeepsRegisters]

/-- The engine's step keeps the registers, and with a command in flight, an illegal word included, it sets DONE. -/
theorem engineStep_keepsRegisters {s t : State} (h : engineStep s = .next t) :
    KeepsRegisters s t ∧ (s.phase = .busy → t.phase = .idle ∧ t.done = true) := by
  rcases engineStep_cases s with ⟨hp, h'⟩ | ⟨-, -, h'⟩ | ⟨i, -, -, h'⟩ <;>
    (rw [h', Host.Outcome.next.injEq] at h; subst h)
  · simp [KeepsRegisters, hp]
  · simp [KeepsRegisters]
  · obtain ⟨hk, hi, hd⟩ := s.runCommand_keepsRegisters i (bodyOf i)
    exact ⟨hk, fun _ => ⟨hi, hd⟩⟩

theorem engineStep_params {s t : State} (h : engineStep s = .next t) : t.params = s.params := by
  obtain ⟨⟨hparams, -⟩, -⟩ := engineStep_keepsRegisters h
  exact hparams

theorem engineStep_ie {s t : State} (h : engineStep s = .next t) : t.ie = s.ie := by
  obtain ⟨⟨-, hie, -⟩, -⟩ := engineStep_keepsRegisters h
  exact hie

theorem engineStep_cmdOvr {s t : State} (h : engineStep s = .next t) : t.cmdOvr = s.cmdOvr := by
  obtain ⟨⟨-, -, hcmdOvr, -⟩, -⟩ := engineStep_keepsRegisters h
  exact hcmdOvr

/-- No step changes the platform (00_scope.md R12). -/
theorem step_params {s t : State} (h : step s = .next t) : t.params = s.params := by
  rcases step_cases h with ⟨-, rfl⟩ | ⟨ts, -, he⟩ | ⟨ts, -, rfl⟩ | ⟨a, ts, -, ha⟩ |
    ⟨a, ts, -, u, ha, ⟨-, rfl⟩ | ⟨-, he⟩⟩
  · rfl
  · exact engineStep_params (s := s.rest ts) he
  · rfl
  · exact State.act_params (s := s.rest ts) ha
  · exact State.act_params (s := s.rest ts) ha
  · exact (engineStep_params he).trans (State.act_params (s := s.rest ts) ha)

end Sys2Proof.Machine
end

section
/-! PROOFS. The obligations about the register window (10_state.md R32 to R50) and about reset (R70). -/

namespace Sys2Proof.Proofs

open Sys2Proof.Machine

/-- Settles O12: a bus read answers, and answering is all it does. -/
theorem registerReadsHaveNoSideEffects : Obligations.RegisterReadsHaveNoSideEffects := by
  intro s addr bytes
  obtain ⟨r, h⟩ := s.busRead_eq addr bytes
  exact ⟨r, congrArg Host.Outcome.next h⟩

/-- Settles O13: each offset is that of a register, whose read answers its value. -/
theorem registerMapReads : Obligations.RegisterMapReads := by
  intro s hl
  have read := State.act_readRegister hl
  exact ⟨read .id, read .ctrl, read .status, read .cmd, read (.arg .dst), read (.arg .src), read (.arg .len),
    read (.arg .key), read (.arg .nonce), read (.arg .ctr), read (.arg .aad), read (.arg .aadLen), read .result⟩

/-- Settles O14: the write is `Args.set` on the argument registers, which the latched arguments are no part of. -/
theorem argWriteChangesOneRegister : Obligations.ArgWriteChangesOneRegister := by
  intro s n v ts hl hts
  exact ⟨_, step_wr hl hts, s.args.get_set_same n v, fun m hm => s.args.get_set_ne v hm, rfl⟩

/-- Settles O7. A clear of CMD_OVR is traced to the step's access: the engine's part of a step keeps CMD_OVR. -/
theorem cmdOvrSetByDroppedWriteClearedByHost : Obligations.CmdOvrSetByDroppedWriteClearedByHost := by
  refine ⟨fun s w hp => State.writeCmd_busy hp, fun s v => ⟨fun hv => ?_, fun hv => ?_⟩, ?_, ?_⟩
  · simp [State.writeReg, hv]
  · simp [State.writeReg, State.writeCtrl_reset hv]
  · intro s t h
    cases h
    rfl
  · intro s t h h1 h0
    rcases step_cases h with ⟨-, rfl⟩ | ⟨ts, -, he⟩ | ⟨ts, -, rfl⟩ | ⟨a, ts, hts, ha⟩ |
      ⟨a, ts, hts, u, ha, ⟨-, rfl⟩ | ⟨-, he⟩⟩
    · simp [h1] at h0
    · simp [engineStep_cmdOvr he, h1] at h0
    · simp [h1] at h0
    · exact ⟨a, ts, .inl hts, State.act_clears_cmdOvr (s := s.rest ts) ha h1 h0⟩
    · exact ⟨a, ts, .inr hts, State.act_clears_cmdOvr (s := s.rest ts) ha h1 h0⟩
    · exact ⟨a, ts, .inr hts, State.act_clears_cmdOvr (s := s.rest ts) ha h1 (engineStep_cmdOvr he ▸ h0)⟩

/-- Settles O8, from the lemmas about the STATUS word's fields. -/
theorem statusRegister : Obligations.StatusRegister := by
  refine ⟨fun s => ⟨s.statusWord_busy, s.statusWord_done, s.statusWord_cmdOvr, s.statusWord_diag, ?_,
    s.statusWord_reservedLow, ?_, s.statusWord_reservedHigh⟩, fun s v ts hl hts => step_wr hl hts, by decide⟩
  · rw [s.statusWord_polyState]
    cases s.mac.pstate <;> rfl
  · rw [s.statusWord_err]
    cases s.err <;> rfl

/-- Settles O10: a reserved offset is register `reserved`, and CTRL and STATUS writes look at bits 1:0 and 2:1 alone. -/
theorem reservedReadsZeroIgnoresWrites : Obligations.ReservedReadsZeroIgnoresWrites := by
  refine ⟨fun s offset v hl hlo hhi h4 => ?_,
    fun s => ⟨s.ctrlWord_reserved, s.statusWord_reservedLow, s.statusWord_reservedHigh⟩,
    fun s v w => ⟨fun h => ?_, fun h => ?_⟩, fun s v hl => State.act_writeRegister hl .result v⟩
  · have ht : target s.params (s.params.base + offset) 4 = .reg .reserved := by
      rw [target_window s.params (by omega) h4, regAt_reserved hlo]
    exact ⟨State.act_regRead hl ht, State.act_regWrite hl ht⟩
  · have h0 : v.getLsbD 0 = w.getLsbD 0 := getLsbD_eq_of_extractLsb'_eq h (j := 0) (by decide)
    have h1 : v.getLsbD 1 = w.getLsbD 1 := getLsbD_eq_of_extractLsb'_eq h (j := 1) (by decide)
    simp only [State.writeReg, State.writeCtrl, h0, h1]
  · have h1 : v.getLsbD 1 = w.getLsbD 1 := getLsbD_eq_of_extractLsb'_eq h (j := 0) (by decide)
    have h2 : v.getLsbD 2 = w.getLsbD 2 := getLsbD_eq_of_extractLsb'_eq h (j := 1) (by decide)
    simp only [State.writeReg, State.writeStatus, h1, h2]

/-- Settles O11: an access that touches the window is malformed or reaches a register. -/
theorem malformedAccessGetsBusError : Obligations.MalformedAccessGetsBusError := by
  intro s addr bytes v hl h0 hin hout
  refine ⟨fun h => State.act_malformed hl (target_malformed h0 hin hout h) v, fun hb hlo h4 => ?_⟩
  subst hb
  have ht := target_aligned hin hlo h4
  exact ⟨⟨_, State.act_regRead hl ht⟩, _, State.act_regWrite hl ht, rfl⟩

/-- Settles O15: ID is a parameter, and no step changes the parameters. -/
theorem idNeverChanges : Obligations.IdNeverChanges :=
  ⟨fun _ _ => ⟨rfl, rfl⟩, rfl, fun _ _ h => congrArg Params.blockId (step_params h)⟩

/-- Settles O16: IRQ is `done && ie`, so each event says what it does to DONE and IE. -/
theorem interruptFollowsDoneAndEnable : Obligations.InterruptFollowsDoneAndEnable := by
  refine ⟨fun s => by simp [State.irq], fun s t hp h => ?_, fun s v h0 h1 => ?_, fun s v h1 => ?_, fun s w hp => ?_,
    fun s t h => ?_, fun s v h0 h1 => ?_⟩
  · have hie := engineStep_ie h
    have hdone := ((engineStep_keepsRegisters h).2 hp).2
    exact ⟨hdone, hie, by simp [State.irq, hdone, hie]⟩
  · simp only [State.writeReg, State.writeCtrl_enable h1, State.irq, h0, Bool.and_true]
  · simp [State.writeReg, State.irq, h1]
  · simp [State.writeReg, State.writeCmd_idle hp, State.irq]
  · cases h
    rfl
  · simp only [State.writeReg, State.writeCtrl_enable h1, State.irq, h0, Bool.and_false, and_self]

end Sys2Proof.Proofs
end

section
/-! PROOFS. The invariant (`State.Inv`): the reset state meets it, and every step keeps it. -/

namespace Sys2Proof.Machine

/-! ### The MAC context's part (10_state.md R57, 42_poly1305.md R240 to R259) -/

theorem MacContext.reset_ok : MacContext.reset.Ok where
  acc_lt       := by decide
  r_clamped    := by decide
  buf_short    := by decide
  buf_final    := fun _ => rfl
  final_pstate := by decide

theorem MacContext.discard_ok (c : MacContext) : c.discard.Ok where
  acc_lt       := MacContext.reset_ok.acc_lt
  r_clamped    := MacContext.reset_ok.r_clamped
  buf_short    := MacContext.reset_ok.buf_short
  buf_final    := fun _ => rfl
  final_pstate := fun _ => by simp [MacContext.discard, MacContext.reset]

theorem keyR_clamped (key : List Byte) : keyR key &&& clampMask = keyR key := by
  rw [keyR, BitVec.and_assoc, BitVec.and_self]

theorem MacContext.init_ok (key : List Byte) : (MacContext.init key).Ok where
  acc_lt       := MacContext.reset_ok.acc_lt
  r_clamped    := keyR_clamped key
  buf_short    := MacContext.reset_ok.buf_short
  buf_final    := fun _ => rfl
  final_pstate := fun h => by simp [MacContext.init] at h

/-- `final` is clear in ACCUM, and an update, which starts there, leaves it so. -/
theorem MacContext.Ok.update {c : MacContext} (h : c.Ok) (hp : c.pstate = .accum) (data : List Byte) :
    (c.update data).Ok where
  acc_lt       := absorbBlocks_lt _ _ _ h.acc_lt
  r_clamped    := h.r_clamped
  buf_short    := by simp only [MacContext.update, List.length_drop]; omega
  buf_final    := fun hf => by simp [MacContext.update] at hf
  final_pstate := fun hf => absurd hp (h.final_pstate hf)

theorem MacContext.Ok.finish {c : MacContext} (h : c.Ok) : c.finish.Ok where
  acc_lt       := by
    simp only [MacContext.finish]
    split
    · exact h.acc_lt
    · exact absorb_lt _ _ _
  r_clamped    := h.r_clamped
  buf_short    := MacContext.reset_ok.buf_short
  buf_final    := fun _ => rfl
  final_pstate := fun _ => by simp [MacContext.finish]

theorem macAfterBus_ok (i : Instr) {c : MacContext} (h : c.Ok) : (macAfterBus i c).Ok := by
  cases i with
  | polyInit | polyUpdate | polyFinish => exact c.discard_ok
  | _ => exact h

/-- A body whose sequence check has passed leaves a context that meets its part. -/
theorem bodyOf_mac_ok {i : Instr} {s : State} (h : s.mac.Ok) (hs : sequenceOk i s.mac = true) :
    (bodyOf i s).mac.Ok := by
  cases i with
  | polyInit => exact MacContext.init_ok _
  | polyUpdate =>
    have hu := h.update (by simpa [sequenceOk] using hs) (s.readOperand 0 (rangeAt s.x.src s.x.len.toNat))
    cases hr : s.racedIn (rangeAt s.x.src s.x.len.toNat) with
    | false => exact polyUpdateBody_mac_of_no_race hr ▸ hu
    | true => exact polyUpdateBody_mac_of_race hr ▸ { hu with acc_lt := s.freeAcc_lt }
  | polyFinish => exact h.finish
  | _ => exact h

/-! ### Completions -/

/-- Only X25519 has a diagnostic flag (10_state.md R40). -/
theorem eq_x25519_of_bodyOf_diag {i : Instr} {s : State} (h : (bodyOf i s).diag = true) : ∃ c, i = .x25519 c := by
  cases i with
  | x25519 c => exact ⟨c, rfl⟩
  | _ => simp [bodyOf, chachaXorBody, polyInitBody, polyUpdateBody, polyFinishBody, aeadSealBody, aeadOpenBody] at h

/-- The length check keeps every success result off the sentinel (40_command.md R164, R172). -/
theorem successResult_ne_sentinel {i : Instr} {x : Args} (h : lengthOk i x = true) :
    successResult i x ≠ sentinel := by
  cases i with
  | chachaXor | aeadSeal | aeadOpen =>
    simp only [lengthOk, decide_eq_true_eq] at h
    simp only [successResult, sentinel]
    bv_omega
  | _ => simp [successResult, sentinel]

/-- A failed check is an error (60_exceptions.md R404). -/
theorem State.preCheck_ne_ok {i : Instr} {s : State} {e : ErrCode} (h : s.preCheck i = some e) : e ≠ .ok := by
  rcases State.preCheck_code h with rfl | rfl | rfl | rfl <;> decide

/-- A completion meets the invariant, wherever it starts, if memory and the MAC context do, RESULT is not the sentinel on
success, and DIAG is X25519's (40_command.md R170, R172). -/
theorem State.complete_inv {code : ErrCode} {success : Word} {flag : Bool} {mac : MacContext} {s : State}
    (haddr : 1 ≤ s.params.addrW ∧ s.params.addrW ≤ 32) (hmem : s.memOk) (hmac : mac.Ok)
    (hresult : code = .ok → success ≠ sentinel)
    (hdiag : flag = true → ∃ c, decode s.cmdword = some (.x25519 c)) : (s.complete code success flag mac).Inv where
  addr_width       := haddr
  mem_ok           := hmem
  mac_ok           := hmac
  busy_clear       := by simp
  sentinel_iff     := by by_cases h : code = .ok <;> simp [h, hresult]
  diag_x25519      := by
    simp only [State.complete_diag, State.complete_err, State.complete_cmdword, Bool.and_eq_true, decide_eq_true_eq]
    exact fun ⟨hc, hf⟩ => ⟨hc, hdiag hf⟩
  transient_absent := rfl
  raced_inFlight   := by simp
  reset_idle       := fun _ => rfl

theorem State.Inv.raise {s : State} (h : s.Inv) {code : ErrCode} (hc : code ≠ .ok) : (s.raise code).Inv :=
  State.complete_inv h.addr_width h.mem_ok h.mac_ok (absurd · hc) (by simp)

/-- A command in flight ends in a state that meets the invariant, whichever way it ends. -/
theorem State.Inv.runCommand {s : State} (h : s.Inv) {i : Instr} (hd : decode s.cmdword = some i) :
    (s.runCommand i (bodyOf i)).Inv := by
  have hmem := State.runCommand_memOk (i := i) h.mem_ok
  rcases s.runCommand_cases i (bodyOf i) with ⟨e, hc, hr⟩ | ⟨hc, -, hr⟩ | ⟨hc, -, hr⟩ <;> rw [hr] at hmem ⊢
  · exact State.complete_inv h.addr_width hmem h.mac_ok (absurd · (State.preCheck_ne_ok hc)) (by simp)
  · exact State.complete_inv h.addr_width hmem (macAfterBus_ok i h.mac_ok) (by simp) (by simp)
  · obtain ⟨hseq, hlen, -, -⟩ := (s.preCheck_eq_none i).1 hc
    refine State.complete_inv h.addr_width hmem (bodyOf_mac_ok h.mac_ok hseq)
      (fun _ => successResult_ne_sentinel hlen) fun hf => ?_
    obtain ⟨c, rfl⟩ := eq_x25519_of_bodyOf_diag hf
    exact ⟨c, hd⟩

theorem State.Inv.engineStep {s t : State} (h : s.Inv) (he : engineStep s = .next t) : t.Inv := by
  rcases engineStep_cases s with ⟨-, h'⟩ | ⟨-, -, h'⟩ | ⟨i, -, hd, h'⟩ <;>
    (rw [h', Host.Outcome.next.injEq] at he; subst he)
  · exact h
  · exact h.raise (by decide)
  · exact h.runCommand hd

/-! ### Actions -/

/-- With no command in flight there are no races to remember. -/
theorem State.Inv.raced_idle {s : State} (h : s.Inv) (hp : s.phase = .idle) : s.raced = [] := by
  refine List.eq_nil_iff_forall_not_mem.2 fun a ha => ?_
  have hbusy := ((s.inFlightByte_iff a).1 (h.raced_inFlight a ha)).1
  rw [hp] at hbusy
  cases hbusy

/-- A reset meets the invariant, whatever the block was doing (70_reset_and_hazards.md R450 to R453). -/
theorem State.Inv.resetBlock {s : State} (h : s.Inv) : s.resetBlock.Inv where
  addr_width       := h.addr_width
  mem_ok           := State.memoryAfterReset_memOk h.mem_ok
  mac_ok           := MacContext.reset_ok
  busy_clear       := by simp
  sentinel_iff     := by simp [sentinel]
  diag_x25519      := by simp
  transient_absent := rfl
  raced_inFlight   := by simp
  reset_idle       := fun _ => rfl

theorem State.Inv.issue {s : State} (h : s.Inv) (hp : s.phase = .idle) (hl : s.resetLine = false) (w : Word) :
    (s.issue w).Inv where
  addr_width       := h.addr_width
  mem_ok           := h.mem_ok
  mac_ok           := h.mac_ok
  busy_clear       := by simp
  sentinel_iff     := by simp [sentinel]
  diag_x25519      := by simp
  transient_absent := h.transient_absent
  raced_inFlight   := by simp [h.raced_idle hp]
  reset_idle       := by simp [hl]

/-- A STATUS write only clears, so DONE stays clear while BUSY. -/
theorem State.Inv.writeStatus {s : State} (h : s.Inv) (v : Word) : (s.writeStatus v).Inv := by
  refine { h with busy_clear := fun hp => ?_ }
  obtain ⟨hdone, hrest⟩ := h.busy_clear hp
  exact ⟨by simp [hdone], hrest⟩

theorem State.Inv.writeReg {s : State} (h : s.Inv) (hl : s.resetLine = false) (r : Reg) (v : Word) :
    (s.writeReg r v).Inv := by
  cases r with
  | ctrl =>
    rcases s.writeCtrl_cases v with ⟨-, hw⟩ | ⟨-, hw⟩ <;> simp only [State.writeReg, hw]
    · exact h.resetBlock
    · exact { h with }
  | status => exact h.writeStatus v
  | cmd =>
    rcases s.writeCmd_cases v with ⟨hp, hw⟩ | ⟨-, hw⟩ <;> simp only [State.writeReg, hw]
    · exact h.issue hp hl v
    · exact { h with }
  | arg n => exact { h with }
  | id | result | reserved => exact h

/-- Every byte remembered as raced after a race is one of the command in flight. -/
theorem State.Inv.racedWith {s : State} (h : s.Inv) (a : Nat) : ∀ b ∈ s.racedWith a, s.inFlightByte b = true := by
  intro b hb
  rcases (s.mem_racedWith a b).1 hb with hb | ⟨rfl, hf⟩
  · exact h.raced_inFlight b hb
  · exact hf

theorem State.Inv.agentRead {s : State} (h : s.Inv) (a : Nat) : (s.agentRead a).Inv := by
  unfold State.agentRead
  split <;> exact { h with }

theorem State.Inv.agentWrite {s : State} (h : s.Inv) {a : Nat} (ha : a < 2 ^ s.params.addrW) (v : Byte) :
    (s.agentWrite a v).Inv :=
  { h with
    mem_ok         := ⟨Memory.wf_write h.mem_ok.1 a v, Memory.bounded_write h.mem_ok.2 ha⟩
    raced_inFlight := h.racedWith a }

theorem State.Inv.act {s t : State} {a : HostAction} (h : s.Inv) (ha : s.act a = .next t) : t.Inv := by
  rcases State.act_cases ha with ⟨r, rfl⟩ | ⟨addr, v, r, -, hl, -, rfl⟩ | ⟨addr, -, -, rfl⟩ | ⟨addr, v, -, hb, rfl⟩ |
    ⟨addr, output, -, -, rfl⟩ | ⟨-, rfl⟩ | ⟨-, rfl⟩
  · exact { h with }
  · exact { h.writeReg hl r v with }
  · exact h.agentRead addr
  · exact h.agentWrite hb v
  · exact { h with raced_inFlight := h.racedWith addr }
  · exact { h.resetBlock with reset_idle := fun _ => rfl }
  · exact { h with reset_idle := by simp }

theorem State.Inv.rest {s : State} (h : s.Inv) (ts : List Turn) : (s.rest ts).Inv := { h with }

theorem State.Inv.step {s t : State} (h : s.Inv) (hs : step s = .next t) : t.Inv := by
  rcases step_cases hs with ⟨-, rfl⟩ | ⟨ts, -, he⟩ | ⟨ts, -, rfl⟩ | ⟨a, ts, -, ha⟩ |
    ⟨a, ts, -, u, ha, ⟨-, rfl⟩ | ⟨-, he⟩⟩
  · exact h
  · exact (h.rest ts).engineStep he
  · exact h.rest ts
  · exact (h.rest ts).act ha
  · exact (h.rest ts).act ha
  · exact ((h.rest ts).act ha).engineStep he

end Sys2Proof.Machine
end

section
/-! PROOFS. The obligations about the invariant. -/

namespace Sys2Proof.Proofs

open Sys2Proof.Machine

/-- Settles O57: every condition is about a field that reset has set. -/
theorem resetMeetsInvariant : Obligations.ResetMeetsInvariant where
  addr_width       := by decide
  mem_ok           := ⟨by decide, by decide⟩
  mac_ok           := MacContext.reset_ok
  busy_clear       := by decide
  sentinel_iff     := by decide
  diag_x25519      := fun h => by simp [State.reset] at h
  transient_absent := rfl
  raced_inFlight   := by decide
  reset_idle       := fun _ => rfl

/-- Settles O58: each part of a step, the access and the engine's move, keeps the invariant. -/
theorem everyStepKeepsInvariant : Obligations.EveryStepKeepsInvariant :=
  fun _ _ h hs => h.step hs

end Sys2Proof.Proofs
end

section
/-! PROOFS. Resets and the persistent MAC context (10_state.md R41, R57, R70, 42_poly1305.md R258). -/

namespace Sys2Proof.Machine

/-! ### Resets -/

/-- Memory outside the output range of the command in flight survives a reset (70_reset_and_hazards.md R453). -/
theorem State.memoryAfterReset_read_outside {s : State} (hm : s.mem.wf) {b : Nat}
    (hb : ∀ i, decode s.cmdword = some i → inside (outputRange i s.x) b = false) :
    s.memoryAfterReset.read b = s.mem.read b := by
  rw [State.memoryAfterReset_read hm]
  split
  · rfl
  · next i hi =>
    have hd : decode s.cmdword = some i := by
      unfold State.inFlight at hi
      split at hi
      · cases hi
      · exact hi
    rw [if_neg (by simp [hb i hd])]

theorem State.memoryAfterReset_idle {s : State} (hp : s.phase = .idle) : s.memoryAfterReset = s.mem := by
  unfold State.memoryAfterReset
  rw [hp]

/-- A command whose sequence check fails ends with STATE: that check comes first (40_command.md R163, R167). -/
theorem State.runCommand_err_state {i : Instr} {s : State} (h : sequenceOk i s.mac = false)
    (body : State → Effect) : (s.runCommand i body).err = .state := by
  have hc : s.preCheck i = some .state := by simp [State.preCheck, h]
  rw [State.runCommand_failed hc, State.reject_err]

/-! ### A context in UNINIT (42_poly1305.md R258) -/

/-- Which checks a command passes depends on the context's pstate alone (40_command.md R163). -/
theorem sequenceOk_congr (i : Instr) {c d : MacContext} (h : c.pstate = d.pstate) :
    sequenceOk i c = sequenceOk i d := by
  cases i with
  | polyUpdate | polyFinish => simp only [sequenceOk, h]
  | _ => rfl

/-- In UNINIT a body that runs looks at nothing of the context: another context in UNINIT changes only the context it
leaves, which is again alike in pstate, and for POLY_INIT in everything. -/
theorem bodyOf_withMac {i : Instr} {s : State} {m : MacContext} (hs : s.mac.pstate = .uninit)
    (hm : m.pstate = .uninit) (hseq : sequenceOk i s.mac = true) :
    ∃ c, bodyOf i { s with mac := m } = { bodyOf i s with mac := c } ∧ c.pstate = (bodyOf i s).mac.pstate ∧
      (i = .polyInit → c = (bodyOf i s).mac) := by
  cases i with
  | polyInit => exact ⟨_, rfl, rfl, fun _ => rfl⟩
  | polyUpdate | polyFinish => simp [sequenceOk, hs] at hseq
  | _ => exact ⟨m, rfl, hm.trans hs.symm, nofun⟩

/-- After BUS the context is in UNINIT if it was before. -/
theorem macAfterBus_uninit (i : Instr) {c : MacContext} (h : c.pstate = .uninit) :
    (macAfterBus i c).pstate = .uninit := by
  cases i with
  | polyInit | polyUpdate | polyFinish => rfl
  | _ => exact h

/-! ### What changes the context -/

/-- A command that changes the context is one of the three MAC commands (10_state.md R57, 43_aead.md R293). -/
theorem State.runCommand_mac {i : Instr} {s : State} (h : (s.runCommand i (bodyOf i)).mac ≠ s.mac) :
    i = .polyInit ∨ i = .polyUpdate ∨ i = .polyFinish := by
  cases i with
  | polyInit => exact .inl rfl
  | polyUpdate => exact .inr (.inl rfl)
  | polyFinish => exact .inr (.inr rfl)
  | _ =>
    rcases State.runCommand_cases _ (bodyOf _) s with ⟨e, -, hr⟩ | ⟨-, -, hr⟩ | ⟨-, -, hr⟩ <;>
      exact absurd (congrArg State.mac hr) h

/-- A body other than POLY_INIT's keeps the mark of a freed accumulator (20_memory.md R113). -/
theorem bodyOf_anyTag {i : Instr} {s : State} (hi : i ≠ .polyInit) (h : s.mac.anyTag = true) :
    (bodyOf i s).mac.anyTag = true := by
  cases i with
  | polyInit => exact absurd rfl hi
  | polyUpdate =>
    simp only [bodyOf, polyUpdateBody]
    split
    · rfl
    · exact h
  | _ => exact h

/-- The mark outlives every command but POLY_INIT, or BUS leaves a context that gives no tag. -/
theorem State.runCommand_anyTag {i : Instr} {s : State} (hi : i ≠ .polyInit) (h : s.mac.anyTag = true) :
    (s.runCommand i (bodyOf i)).mac.anyTag = true ∨ (s.runCommand i (bodyOf i)).mac.pstate = .uninit := by
  rcases s.runCommand_cases i (bodyOf i) with ⟨e, -, hr⟩ | ⟨-, -, hr⟩ | ⟨-, -, hr⟩ <;> rw [hr]
  · exact .inl h
  · cases i with
    | polyInit | polyUpdate | polyFinish => exact .inr rfl
    | _ => exact .inl h
  · exact .inl (bodyOf_anyTag hi h)

/-- An action resets the context, leaving the block idle, or else keeps the context and the command in flight. -/
theorem State.act_mac {s t : State} {a : HostAction} (h : s.act a = .next t) :
    (a.resets s = true ∧ t.phase = .idle ∧ t.mac = MacContext.reset) ∨
      (t.mac = s.mac ∧ (s.phase = .busy → t.phase = .busy ∧ t.cmdword = s.cmdword)) := by
  rcases State.act_cases h with ⟨r, rfl⟩ | ⟨addr, v, r, rfl, -, ht, rfl⟩ | ⟨addr, -, -, rfl⟩ | ⟨addr, v, -, -, rfl⟩ |
    ⟨addr, output, -, -, rfl⟩ | ⟨rfl, rfl⟩ | ⟨-, rfl⟩
  · exact .inr ⟨rfl, fun hp => ⟨hp, rfl⟩⟩
  · cases r with
    | ctrl =>
      rcases s.writeCtrl_cases v with ⟨hv, hw⟩ | ⟨-, hw⟩ <;> rw [State.writeReg, hw]
      · exact .inl ⟨by simp [HostAction.resets, ht, hv], rfl, rfl⟩
      · exact .inr ⟨rfl, fun hp => ⟨hp, rfl⟩⟩
    | cmd =>
      rcases s.writeCmd_cases v with ⟨hi, hw⟩ | ⟨-, hw⟩ <;> rw [State.writeReg, hw]
      · exact .inr ⟨rfl, fun hp => by simp [hi] at hp⟩
      · exact .inr ⟨rfl, fun hp => ⟨hp, rfl⟩⟩
    | _ => exact .inr ⟨rfl, fun hp => ⟨hp, rfl⟩⟩
  · unfold State.agentRead
    split <;> exact .inr ⟨rfl, fun hp => ⟨hp, rfl⟩⟩
  · exact .inr ⟨rfl, fun hp => ⟨hp, rfl⟩⟩
  · exact .inr ⟨rfl, fun hp => ⟨hp, rfl⟩⟩
  · exact .inl ⟨rfl, rfl, rfl⟩
  · exact .inr ⟨rfl, fun hp => ⟨hp, rfl⟩⟩

/-- The engine's step changes the context only by a MAC command in flight. -/
theorem engineStep_mac {s t : State} (h : engineStep s = .next t) (hne : t.mac ≠ s.mac) :
    s.phase = .busy ∧ (decode s.cmdword = some .polyInit ∨ decode s.cmdword = some .polyUpdate ∨
      decode s.cmdword = some .polyFinish) := by
  rcases engineStep_cases s with ⟨-, h'⟩ | ⟨-, -, h'⟩ | ⟨i, hp, hd, h'⟩ <;>
    (rw [h', Host.Outcome.next.injEq] at h; subst h)
  · exact absurd rfl hne
  · exact absurd rfl hne
  · simpa [hp, hd] using State.runCommand_mac hne

/-- The engine's step keeps the mark of a freed accumulator, but for POLY_INIT's and BUS's. -/
theorem engineStep_anyTag {s t : State} (h : engineStep s = .next t) (hm : s.mac.anyTag = true) :
    t.mac.anyTag = true ∨ (s.phase = .busy ∧ decode s.cmdword = some .polyInit) ∨ t.mac.pstate = .uninit := by
  rcases engineStep_cases s with ⟨-, h'⟩ | ⟨-, -, h'⟩ | ⟨i, hp, hd, h'⟩ <;>
    (rw [h', Host.Outcome.next.injEq] at h; subst h)
  · exact .inl hm
  · exact .inl hm
  · by_cases hi : i = .polyInit
    · exact .inr (.inl ⟨hp, hi ▸ hd⟩)
    · exact (State.runCommand_anyTag hi hm).imp_right .inr

end Sys2Proof.Machine
end

section
/-! PROOFS. The obligations about resets and the persistent MAC context. -/

namespace Sys2Proof.Proofs

open Sys2Proof.Machine

/-- Settles O17. Both resets give `State.reset` but for the platform, memory and the host's side, none of which the table
names; its context is in UNINIT, where the sequence check stops POLY_UPDATE and POLY_FINISH. -/
theorem resetLeavesTheTableValues : Obligations.ResetLeavesTheTableValues := by
  unfold Obligations.ResetLeavesTheTableValues
  intro table
  have htable (p : Params) (m : Memory) (l : Bool) (ts : List Turn) (r : Response) (d : Nat) : table
      { State.reset with params := p, mem := m, resetLine := l, turns := ts, response := r, draw := d } :=
    ⟨rfl, State.ctrlWord_srst _, rfl, rfl, rfl, rfl, rfl, rfl, rfl, fun n => ⟨Args.get_zero n, Args.get_zero n⟩,
      rfl, rfl, rfl, rfl, rfl, rfl, rfl, rfl, rfl, rfl⟩
  refine ⟨htable _ _ _ _ _ _, fun s a hm ha => ?_⟩
  obtain ⟨l, r, hact⟩ : ∃ l r, s.act a = .next { s.resetBlock with resetLine := l, response := r } := by
    rcases ha with rfl | ⟨hl, v, rfl, hv⟩
    · exact ⟨true, s.response, rfl⟩
    · refine ⟨s.resetLine, .written, (State.act_writeRegister hl .ctrl v).trans ?_⟩
      rw [State.writeReg, State.writeCtrl_reset hv]
      rfl
  refine ⟨_, hact, htable _ _ _ _ _ _, rfl, State.memoryAfterReset_idle,
    fun _ b hb => State.memoryAfterReset_read_outside hm hb, fun i u v hi hmac hv => ?_⟩
  have hseq : sequenceOk i u.mac = false := by
    rw [hmac]
    rcases hi with rfl | rfl <;> rfl
  rw [eq_runCommand_of_exec hv, State.runCommand_err_state hseq]

/-- Settles O43: the checks see no difference between the two contexts, and the three ways a command ends put none of
their values into the rest of the state. -/
theorem uninitMacValuesUnobservable : Obligations.UninitMacValuesUnobservable := by
  intro i s t u m hs hm ht hu
  have hc : State.preCheck i { s with mac := m } = s.preCheck i :=
    State.preCheck_withMac (sequenceOk_congr i (hm.trans hs.symm))
  rw [eq_runCommand_of_exec ht, eq_runCommand_of_exec hu]
  rcases s.runCommand_cases i (bodyOf i) with ⟨e, he, hr⟩ | ⟨hn, hb, hr⟩ | ⟨hn, hb, hr⟩ <;> rw [hr]
  · rw [State.runCommand_failed (hc.trans he)]
    exact ⟨rfl, hm.trans hs.symm, fun _ hok => absurd hok (State.preCheck_ne_ok he)⟩
  · rw [State.runCommand_bus (hc.trans hn) hb]
    exact ⟨rfl, (macAfterBus_uninit i hm).trans (macAfterBus_uninit i hs).symm, fun _ hok => by simp at hok⟩
  · have hseq := ((s.preCheck_eq_none i).1 hn).1
    obtain ⟨c, hbody, hstate, hinit⟩ := bodyOf_withMac hs hm hseq
    rw [State.runCommand_ok (hc.trans hn) hb, hbody]
    exact ⟨rfl, hstate, fun hi _ => hinit hi⟩

/-- Settles O59: an action changes the context only as a reset, after which the block is idle; else the engine finds the
command that was in flight before the step. -/
theorem macContextChangesOnlyByMacCommandsAndReset : Obligations.MacContextChangesOnlyByMacCommandsAndReset := by
  intro s t h
  rcases step_cases h with ⟨-, rfl⟩ | ⟨ts, -, he⟩ | ⟨ts, -, rfl⟩ | ⟨a, ts, hts, ha⟩ |
    ⟨a, ts, hts, u, ha, hu⟩
  · exact ⟨absurd rfl, fun h1 h0 => by simp [h1] at h0⟩
  · exact ⟨fun hne => .inl (engineStep_mac (s := s.rest ts) he hne),
      fun h1 h0 => (engineStep_anyTag (s := s.rest ts) he h1).resolve_left (by simp [h0])⟩
  · exact ⟨absurd rfl, fun h1 h0 => by simp [h1] at h0⟩
  · rcases State.act_mac ha with ⟨hr, -, hm⟩ | ⟨hm, -⟩
    · exact ⟨fun _ => .inr ⟨a, ts, .inl hts, hr⟩, fun _ _ => .inr (by rw [hm]; rfl)⟩
    · exact ⟨absurd hm, fun h1 h0 => by simp [hm, h1] at h0⟩
  · rcases State.act_mac ha with ⟨hr, hp, hm⟩ | ⟨hm, hkeep⟩
    · have ht : t = u := by
        rcases hu with ⟨-, rfl⟩ | ⟨-, he⟩
        · rfl
        · simpa [engineStep_idle hp] using he.symm
      subst ht
      exact ⟨fun _ => .inr ⟨a, ts, .inr hts, hr⟩, fun _ _ => .inr (by rw [hm]; rfl)⟩
    · rcases hu with ⟨-, rfl⟩ | ⟨hp, he⟩
      · exact ⟨absurd hm, fun h1 h0 => by simp [hm, h1] at h0⟩
      · have hcmd : u.cmdword = s.cmdword := (hkeep hp).2
        have hmac : u.mac = s.mac := hm
        refine ⟨fun hne => .inl ⟨hp, hcmd ▸ (engineStep_mac he (hmac ▸ hne)).2⟩, fun h1 h0 => ?_⟩
        rcases engineStep_anyTag he (hmac ▸ h1) with hkept | ⟨-, hinit⟩ | huninit
        · simp [hkept] at h0
        · exact .inl ⟨hp, hcmd ▸ hinit⟩
        · exact .inr huninit

end Sys2Proof.Proofs
end

section
/-! PROOFS. System memory and the accesses of other agents (20_memory.md R90, R112, R113, R119): canonical memories are
determined by what they read, and what a race or a free output byte is. -/

namespace Sys2Proof.Machine

/-! ### The canonical form (20_memory.md R90) -/

/-- A canonical memory lists exactly the bytes that do not read as an unlisted one, each with its value. -/
theorem Memory.mem_iff_read {m : Memory} (hm : m.wf) (c : Host.Cell) :
    c ∈ m ↔ m.read c.1 = c.2 ∧ c.2 ≠ Memory.unlisted := by
  refine ⟨fun hc => ⟨Memory.read_eq_of_mem hm hc, hm.2 c hc⟩, ?_⟩
  rintro ⟨hread, hne⟩
  clear hm
  induction m with
  | nil => exact absurd hread.symm hne
  | cons d m ih =>
    obtain ⟨b, w⟩ := d
    obtain ⟨a, v⟩ := c
    simp only [Memory.read] at hread
    split at hread
    · next hab => simp [hab, hread]
    · next hab => exact List.mem_cons_of_mem _ (ih hread)

/-! ### Which bytes are a command's -/

theorem touches_of_output {i : Instr} {x : Args} {a : Nat} (h : inside (outputRange i x) a = true) :
    touches i x a = true := by
  simp only [touches, handedRanges, List.any_cons, h, Bool.true_or]

theorem touches_of_read {i : Instr} {x : Args} {r : Range} {a : Nat} (hr : r ∈ readRanges i x)
    (ha : inside r a = true) : touches i x a = true :=
  List.any_eq_true.2 (handed_of_accessed (List.mem_cons_of_mem _ hr) ha)

/-! ### Accesses of other agents (20_memory.md R112, R113, R119) -/

theorem State.agentRead_of_output {s : State} {a : Nat} (h : s.inFlightOutput a = true) :
    s.agentRead a = { s with response := .byte (Config.freeByte s.draw .hostRead a), draw := s.draw + 1 } :=
  if_pos h

theorem State.agentRead_of_not {s : State} {a : Nat} (h : ¬s.inFlightOutput a = true) :
    s.agentRead a = { s with response := .byte (s.mem.read a) } :=
  if_neg h

/-- A byte that another block's command has in flight changes nothing but the races. -/
theorem State.peerByte_eq (a : Nat) (output : Bool) (s : State) :
    s.peerByte a output = { s with raced := (s.peerByte a output).raced } := by
  unfold State.peerByte
  split <;> rfl

/-- It is a race exactly when it is this command's byte and an output byte of one of the two commands. -/
theorem State.mem_peerByte_raced (a : Nat) (output : Bool) (s : State) (b : Nat) :
    b ∈ (s.peerByte a output).raced ↔
      b ∈ s.raced ∨ b = a ∧ (output = true ∨ s.inFlightOutput a = true) ∧ s.inFlightByte a = true := by
  unfold State.peerByte
  split <;> next h =>
    rw [Bool.or_eq_true] at h
    simp [h, s.mem_racedWith]

/-! ### Output bytes that are any value (20_memory.md R103, R113 (b)) -/

theorem State.settledByte_of_any {s : State} {anyValue : Bool} {a : Nat}
    (h : a ∈ s.raced ∨ anyValue = true) (v : Byte) :
    s.settledByte anyValue a v = Config.freeByte s.draw .output a :=
  if_pos (by simpa [or_comm] using h)

theorem State.settledByte_of_not_raced {s : State} {a : Nat} (h : a ∉ s.raced) (v : Byte) :
    s.settledByte false a v = v :=
  if_neg (by simpa using h)

/-- A byte whose command rule gives the free byte is that free byte, raced or not. -/
theorem State.settledByte_free (s : State) (anyValue : Bool) (a : Nat) :
    s.settledByte anyValue a (Config.freeByte s.draw .output a) = Config.freeByte s.draw .output a :=
  ite_self _

end Sys2Proof.Machine
end

section
/-! PROOFS. The obligations about canonical memories, other agents' accesses and BUS (20_memory.md R90, R98, R112, R113,
R119). -/

namespace Sys2Proof.Proofs

open Sys2Proof.Machine

/-- Settles O56: both memories list exactly the cells that read as more than an unlisted byte, in rising order. -/
theorem canonicalMemoriesThatReadAlikeAreEqual : Obligations.CanonicalMemoriesThatReadAlikeAreEqual :=
  fun _ _ hm hn h => hm.1.eq_of_mem_iff hn.1 fun c => by rw [Memory.mem_iff_read hm, Memory.mem_iff_read hn, h]

/-- Settles O22: a byte in flight is one of the decoded command's while the phase is busy, and its output bytes are
among its bytes. -/
theorem agentMemoryAccesses : Obligations.AgentMemoryAccesses := by
  intro s a v hm
  refine ⟨fun ha => ⟨fun i hp hd hi => ?_, fun hn => ?_, s.agentWrite a v, if_pos ha,
      (Memory.read_write hm a · v), fun b => ?_, rfl⟩,
    fun output => ⟨_, rfl, s.peerByte_eq a output, fun b => ?_⟩, fun ha => ⟨if_neg (by omega), if_neg (by omega)⟩⟩
  · exact (if_pos ha).trans (congrArg _ (State.agentRead_of_output ((s.inFlightOutput_iff a).2 ⟨hp, i, hd, hi⟩)))
  · exact (if_pos ha).trans (congrArg _ (State.agentRead_of_not (mt (s.inFlightOutput_iff a).1 hn)))
  · rw [State.agentWrite_raced, s.mem_racedWith, s.inFlightByte_iff]
  · rw [s.mem_peerByte_raced, s.inFlightOutput_iff, s.inFlightByte_iff]
    refine or_congr_right (and_congr_right fun _ => ⟨?_, ?_⟩)
    · rintro ⟨ho | ⟨hp, i, hd, hi⟩, hb, k, hk, ht⟩
      · exact ⟨hb, k, hk, .inr ⟨ho, ht⟩⟩
      · exact ⟨hp, i, hd, .inl hi⟩
    · rintro ⟨hp, i, hd, hi | ⟨ho, ht⟩⟩
      · exact ⟨.inr ⟨hp, i, hd, hi⟩, hp, i, hd, touches_of_output hi⟩
      · exact ⟨.inl ho, hp, i, hd, ht⟩

/-- Settles O30: the inadmissible byte is a BUS hit, and a bus error frees exactly the output range. -/
theorem busErrorFreesOutputRange : Obligations.BusErrorFreesOutputRange := by
  intro i s r a hm hc hr ha hn
  have hrun := State.runCommand_bus hc ((s.busHit_iff i).2 ⟨r, hr, a, ha, hn⟩) (bodyOf i)
  obtain ⟨hkeeps, -⟩ := s.runCommand_keepsRegisters i (bodyOf i)
  have hmem := fun b hb => State.runCommand_mem_outside (i := i) (s := s) hm (a := b) hb
  rw [hrun] at hkeeps hmem
  refine ⟨s.busError i, by rw [exec_eq, hrun], by simp [CompletesWith, sentinel], hkeeps, fun b hb => ?_,
    fun b hb => State.busError_read_inside hm hb⟩
  exact hmem b (by rwa [← Bool.not_eq_true, inside_iff])

end Sys2Proof.Proofs
end

section
/-! PROOFS. What a successful command computes from its operands as drawn (20_memory.md R96, R103, R113). -/

namespace Sys2Proof.Machine

/-! ### Operands as drawn -/

/-- On idempotent memory an operand is memory's bytes, each raced one free (20_memory.md R113 (a)). -/
theorem State.readOperand_of_idempotent {s : State} (hid : ∀ a, idempotent s.params a = true) (k : Nat) (p : Word)
    (n : Nat) : s.readOperand k (rangeAt p n) = (List.range n).map fun j =>
      if p.toNat + j ∈ s.raced then Config.freeByte s.draw (.operand k) (p.toNat + j) else s.mem.read (p.toNat + j) := by
  simp [State.readOperand, State.engineByte, rangeAt, hid]

theorem State.not_touchesSideEffects {s : State} (hid : ∀ a, idempotent s.params a = true) (i : Instr) :
    s.touchesSideEffects i = false := by
  rw [← Bool.not_eq_true, s.touchesSideEffects_iff]
  rintro ⟨r, -, a, -, ha⟩
  simp [hid] at ha

theorem State.racedIn_rangeAt (s : State) (p : Word) (n : Nat) :
    s.racedIn (rangeAt p n) = true ↔ ∃ j, j < n ∧ p.toNat + j ∈ s.raced := by
  simp only [s.racedIn_iff, inside_iff, rangeAt]
  constructor
  · rintro ⟨a, ha, hlo, hhi⟩
    exact ⟨a - p.toNat, by omega, by rwa [Nat.add_sub_cancel' hlo]⟩
  · rintro ⟨j, hj, hr⟩
    exact ⟨_, hr, by omega, by omega⟩

theorem State.freeAcc_eq (s : State) :
    s.freeAcc = leNat ((List.range 17).map fun j => Config.freeByte s.draw .accumulator j) % (2 ^ 130 - 5) := by
  simp only [State.freeAcc, freeBytes, p130, Nat.zero_add]

/-! ### Outputs of a successful command -/

/-- An output byte after a success: the body's byte, settled. -/
theorem State.exec_ok_read {i : Instr} {s t : State} (hm : s.mem.wf) (h : exec i s = .next t) (he : t.err = .ok)
    {a : Nat} (ha : inside (outputRange i s.x) a = true) :
    t.mem.read a = s.settledByte (s.touchesSideEffects i) a
      ((bodyOf i s).out.getD (a - (outputRange i s.x).start) 0) := by
  obtain ⟨hc, -, rfl⟩ := State.finish_of_exec_ok h he
  exact State.finish_read_inside hm (bodyOf_out_length i s ((s.preCheck_eq_none i).1 hc).2.1) ha

/-- Byte j of the output after a success, by its place in the body's output. -/
theorem State.exec_ok_read_getD {i : Instr} {s t : State} (hm : s.mem.wf) (h : exec i s = .next t) (he : t.err = .ok)
    {j : Nat} (hj : j < (bodyOf i s).out.length) :
    t.mem.read ((outputRange i s.x).start + j) = s.settledByte (s.touchesSideEffects i) ((outputRange i s.x).start + j)
      ((bodyOf i s).out.getD j 0) := by
  obtain ⟨hc, -, -⟩ := State.finish_of_exec_ok h he
  have hl := bodyOf_out_length i s ((s.preCheck_eq_none i).1 hc).2.1
  rw [State.exec_ok_read hm h he (by simp only [inside_iff]; omega), Nat.add_sub_cancel_left]

theorem State.exec_ok_mac {i : Instr} {s t : State} (h : exec i s = .next t) (he : t.err = .ok) :
    t.mac = (bodyOf i s).mac := by
  obtain ⟨-, -, rfl⟩ := State.finish_of_exec_ok h he
  rfl

theorem State.exec_ok_diag {i : Instr} {s t : State} (h : exec i s = .next t) (he : t.err = .ok) :
    t.diag = (bodyOf i s).diag := by
  obtain ⟨-, -, rfl⟩ := State.finish_of_exec_ok h he
  exact State.finish_diag i _ s

/-- Byte j of an input xored with a keystream: the block is j / 64, the byte j mod 64 (41_chacha20.md R210). -/
theorem xorBytes_keystream_getD {input key nonce : List Byte} {c : Word} {n j : Nat} (hl : input.length = n)
    (hj : j < n) : (xorBytes input (keystream key nonce c n)).getD j 0 =
      input.getD j 0 ^^^ (chachaBlock key (c + BitVec.ofNat 32 (j / 64)) nonce).getD (j % 64) 0 := by
  rw [List.getD_eq_getElem _ _ (by simp [hl, hj]), xorBytes_getElem, keystream_getElem,
    List.getD_eq_getElem input _ (hl ▸ hj)]

end Sys2Proof.Machine
end

section
/-! PROOFS. The obligation about raced and side-effecting bytes (20_memory.md R103, R113). -/

namespace Sys2Proof.Proofs

open Sys2Proof.Machine

/-- Settles O23: the operands as drawn are what each body reads, so every clause is the body's own effect, its output
bytes settled. -/
theorem racedAndSideEffectingBytesTakeAnyValue : Obligations.RacedAndSideEffectingBytesTakeAnyValue := by
  refine ⟨fun i s t a hm h he ha hany => ?_, fun s t hm he hid => ?_⟩
  · rw [State.exec_ok_read hm h he ha]
    exact State.settledByte_of_any (hany.imp_right (s.touchesSideEffects_iff i).2) _
  intro drawn
  have hdrawn : drawn = fun k p n => s.readOperand k (rangeAt p n) := by
    funext k p n
    exact (State.readOperand_of_idempotent hid k p n).symm
  clear_value drawn
  subst hdrawn
  intro writes n key nonce
  have hwrites (i : Instr) (h : exec i s = .next t) (hdst : (outputRange i s.x).start = s.x.dst.toNat) :
      writes (bodyOf i s).out := fun j hj hr => by
    rw [← hdst] at hr ⊢
    rw [State.exec_ok_read_getD hm h he hj, State.not_touchesSideEffects hid, State.settledByte_of_not_raced hr]
  refine ⟨fun h j hj hr => ?_, fun h => State.exec_ok_mac h he, fun h => ⟨fun hnone => ?_, fun hsome => ?_⟩,
    fun h => ⟨State.exec_ok_mac h he, fun hspecified => ?_, fun hany j hj => ?_⟩, fun h => hwrites .aeadSeal h rfl,
    fun h => hwrites .aeadOpen h rfl, fun c h => ⟨hwrites (.x25519 c) h rfl, State.exec_ok_diag h he⟩⟩
  · rw [← xorBytes_keystream_getD (by simp [rangeAt, n]) hj]
    exact hwrites .chachaXor h rfl j (by simpa [bodyOf, chachaXorBody, rangeAt] using hj) hr
  · refine (State.exec_ok_mac h he).trans (polyUpdateBody_mac_of_no_race ?_)
    rw [← Bool.not_eq_true, s.racedIn_rangeAt]
    exact fun ⟨j, hj, hr⟩ => hnone j hj hr
  · rw [← s.freeAcc_eq]
    exact (State.exec_ok_mac h he).trans (polyUpdateBody_mac_of_race ((s.racedIn_rangeAt _ _).2 hsome))
  · exact State.finishTag_of_specified hspecified ▸ hwrites .polyFinish h rfl
  · have hout : (bodyOf .polyFinish s).out = freeBytes s.draw .output s.x.dst.toNat 16 := State.finishTag_of_any hany
    refine (State.exec_ok_read_getD (j := j) hm h he (by simpa [hout] using hj)).trans ?_
    rw [hout, List.getD_eq_getElem _ _ (by simpa using hj), freeBytes_getElem _ _ _ _ _ hj]
    exact s.settledByte_free _ _

end Sys2Proof.Proofs
end

section
/-! PROOFS. Accesses that keep the host's obligations leave the command in flight as it was (20_memory.md R96, R111,
40_command.md R174, 70_reset_and_hazards.md R460, R461, R464). -/

namespace Sys2Proof.Machine

/-- In `t` the command `i` that is in flight in `s` is in flight too, on the same operands: the two states differ at most
in what the host may change meanwhile, and in memory bytes that are not the command's. -/
structure InFlightAlike (i : Instr) (s t : State) : Prop where
  phase     : t.phase = s.phase
  cmdword   : t.cmdword = s.cmdword
  params    : t.params = s.params
  x         : t.x = s.x
  mac       : t.mac = s.mac
  raced     : t.raced = s.raced
  draw      : t.draw = s.draw
  canonical : t.mem.wf
  read      : ∀ a, touches i s.x a = true → t.mem.read a = s.mem.read a

theorem InFlightAlike.refl (i : Instr) {s : State} (hm : s.mem.wf) : InFlightAlike i s s :=
  ⟨rfl, rfl, rfl, rfl, rfl, rfl, rfl, hm, fun _ _ => rfl⟩

theorem InFlightAlike.trans {i : Instr} {s t u : State} (h : InFlightAlike i s t) (k : InFlightAlike i t u) :
    InFlightAlike i s u where
  phase     := k.phase.trans h.phase
  cmdword   := k.cmdword.trans h.cmdword
  params    := k.params.trans h.params
  x         := k.x.trans h.x
  mac       := k.mac.trans h.mac
  raced     := k.raced.trans h.raced
  draw      := k.draw.trans h.draw
  canonical := k.canonical
  read      := fun a ha => (k.read a (h.x.symm ▸ ha)).trans (h.read a ha)

/-! ### What an obeying access keeps -/

/-- With a command in flight, a register write other than to CMD or a soft reset reaches nothing the command uses. -/
theorem InFlightAlike.writeReg (i : Instr) {s : State} (hm : s.mem.wf) {r : Reg} {v : Word} (hcmd : r ≠ .cmd)
    (hreset : r = .ctrl → v.getLsbD 1 = false) : InFlightAlike i s (s.writeReg r v) := by
  cases r with
  | cmd => exact absurd rfl hcmd
  | ctrl =>
    rw [State.writeReg, State.writeCtrl_enable (hreset rfl)]
    exact { InFlightAlike.refl i hm with }
  | _ => exact { InFlightAlike.refl i hm with }

/-- A write to a byte that is not the command's is no race, and the command's bytes stay. -/
theorem InFlightAlike.agentWrite {i : Instr} {s : State} (hm : s.mem.wf) (hp : s.phase = .busy)
    (hd : decode s.cmdword = some i) {a : Nat} (ha : s.inFlightByte a = false) (v : Byte) :
    InFlightAlike i s (s.agentWrite a v) :=
  { InFlightAlike.refl i hm with
    raced     := State.racedWith_of_not ha
    canonical := Memory.wf_write hm a v
    read      := fun b hb => by
      have hne : b ≠ a := by
        rintro rfl
        simp [(s.inFlightByte_iff b).2 ⟨hp, i, hd, hb⟩] at ha
      rw [State.agentWrite_mem, Memory.read_write hm, if_neg hne] }

/-- An action that keeps the host's obligations and is no reset leaves the command in flight alike. -/
theorem InFlightAlike.act {i : Instr} {s t : State} {a : HostAction} (hm : s.mem.wf) (hp : s.phase = .busy)
    (hd : decode s.cmdword = some i) (hobeys : a.obeys s = true) (hreset : a.resets s = false)
    (h : s.act a = .next t) : InFlightAlike i s t := by
  rcases State.act_cases h with ⟨r, rfl⟩ | ⟨addr, v, r, rfl, -, ht, rfl⟩ | ⟨addr, rfl, -, rfl⟩ | ⟨addr, v, rfl, -, rfl⟩ |
    ⟨addr, output, rfl, ho, rfl⟩ | ⟨rfl, rfl⟩ | ⟨-, rfl⟩
  · exact { InFlightAlike.refl i hm with }
  · have hcmd : r ≠ .cmd := by
      rintro rfl
      simp [HostAction.obeys, State.busy, hp, ht] at hobeys
    have hctrl : r = .ctrl → v.getLsbD 1 = false := by
      rintro rfl
      simpa [HostAction.resets, ht] using hreset
    exact { InFlightAlike.writeReg i hm hcmd hctrl with }
  · rw [State.agentRead_of_not (by simpa [HostAction.obeys] using hobeys)]
    exact { InFlightAlike.refl i hm with }
  · exact InFlightAlike.agentWrite hm hp hd (by simpa [HostAction.obeys] using hobeys) v
  · have hraced : s.inFlightByte addr = false := by
      have hout : (output || s.inFlightOutput addr) = true := (Bool.or_eq_true _ _).mpr ho
      simpa [HostAction.obeys, hout] using hobeys
    exact { InFlightAlike.refl i hm with raced := State.racedWith_of_not hraced }
  · simp [HostAction.resets] at hreset
  · exact { InFlightAlike.refl i hm with }

/-- So does any number of them. -/
theorem ObeyingAccesses.inFlightAlike {i : Instr} {s t : State} (h : ObeyingAccesses s t) (hm : s.mem.wf)
    (hp : s.phase = .busy) (hd : decode s.cmdword = some i) : InFlightAlike i s t := by
  induction h with
  | none => exact InFlightAlike.refl i hm
  | more a _ hobeys hreset hact ih =>
    exact ih.trans (InFlightAlike.act ih.canonical (ih.phase.trans hp) (ih.cmdword.symm ▸ hd) hobeys hreset hact)

/-! ### What the engine does with the command -/

/-- A body depends on the latched arguments, the MAC context, the platform, the races, the drawing event and the operands
as read, and on nothing else. -/
theorem bodyOf_congr {i : Instr} {s t : State} (hx : t.x = s.x) (hmac : t.mac = s.mac) (hparams : t.params = s.params)
    (hraced : t.raced = s.raced) (hdraw : t.draw = s.draw)
    (hread : ∀ r ∈ readRanges i s.x, ∀ k, t.readOperand k r = s.readOperand k r) : bodyOf i t = bodyOf i s := by
  cases i <;> simp only [readRanges, List.forall_mem_cons, List.not_mem_nil, false_implies, implies_true, and_true] at hread
  case chachaXor => simp only [bodyOf, chachaXorBody, hx, hmac, hread]
  case polyInit => simp only [bodyOf, polyInitBody, hx, hread]
  case polyUpdate =>
    have hracedIn (r : Range) : t.racedIn r = s.racedIn r := by rw [State.racedIn, hraced, State.racedIn]
    have hacc : t.freeAcc = s.freeAcc := by rw [State.freeAcc, hdraw, State.freeAcc]
    simp only [bodyOf, polyUpdateBody, hx, hmac, hracedIn, hacc, hread]
  case polyFinish => simp only [bodyOf, polyFinishBody, State.finishTag, hx, hmac, hdraw]
  case aeadSeal => simp only [bodyOf, aeadSealBody, hx, hmac, hread]
  case aeadOpen => simp only [bodyOf, aeadOpenBody, hx, hmac, hread]
  case x25519 c => simp only [bodyOf, x25519Body, hx, hmac, hparams, hread]

section
variable {i : Instr} {s t : State} (h : InFlightAlike i s t)
include h

theorem InFlightAlike.preCheck : t.preCheck i = s.preCheck i := by
  simp only [State.preCheck, h.x, h.mac, h.params]

theorem InFlightAlike.busHit : t.busHit i = s.busHit i := by
  simp only [State.busHit, h.x, h.params]

theorem InFlightAlike.touchesSideEffects : t.touchesSideEffects i = s.touchesSideEffects i := by
  simp only [State.touchesSideEffects, h.x, h.params]

theorem InFlightAlike.readOperand {r : Range} (hr : r ∈ readRanges i s.x) (k : Nat) :
    t.readOperand k r = s.readOperand k r := by
  refine List.map_congr_left fun j hj => ?_
  have hj : j < r.len := List.mem_range.1 hj
  have hread := h.read (r.start + j) (touches_of_read hr (by simp only [inside_iff]; omega))
  simp only [State.engineByte, h.raced, h.params, h.draw, hread]

theorem InFlightAlike.bodyOf : bodyOf i t = bodyOf i s :=
  bodyOf_congr h.x h.mac h.params h.raced h.draw fun _ hr => h.readOperand hr

theorem InFlightAlike.settledByte (a : Nat) (v : Byte) :
    t.settledByte (t.touchesSideEffects i) a v = s.settledByte (s.touchesSideEffects i) a v := by
  rw [State.settledByte, State.settledByte, h.touchesSideEffects, h.raced, h.draw]

/-- The command ends in both states the same way: the same registers and context, and the same output bytes. -/
theorem InFlightAlike.runCommand (hm : s.mem.wf) :
    let u := s.runCommand i (Machine.bodyOf i)
    let v := t.runCommand i (Machine.bodyOf i)
    v.err = u.err ∧ v.result = u.result ∧ v.diag = u.diag ∧ v.mac = u.mac ∧
      ∀ a, inside (outputRange i s.x) a = true → v.mem.read a = u.mem.read a := by
  intro u v
  have hout {a : Nat} (ha : inside (outputRange i s.x) a = true) : inside (outputRange i t.x) a = true := h.x.symm ▸ ha
  rcases s.runCommand_cases i (Machine.bodyOf i) with ⟨e, hc, hu⟩ | ⟨hc, hb, hu⟩ | ⟨hc, hb, hu⟩
  · have hv : v = t.reject i e := State.runCommand_failed (h.preCheck.trans hc) _
    rw [hv, show u = s.reject i e from hu]
    refine ⟨rfl, by simp, by simp, h.mac, fun a ha => ?_⟩
    rw [State.reject_mem, State.reject_mem, State.racedOutput_read h.canonical, State.racedOutput_read hm, h.raced, h.x,
      h.params, h.draw, h.read a (touches_of_output ha)]
  · have hv : v = t.busError i := State.runCommand_bus (h.preCheck.trans hc) (h.busHit.trans hb) _
    rw [hv, show u = s.busError i from hu]
    refine ⟨rfl, rfl, rfl, congrArg (macAfterBus i) h.mac, fun a ha => ?_⟩
    rw [State.busError_read_inside hm ha, State.busError_read_inside h.canonical (hout ha), h.draw]
  · have hv : v = t.finish i (Machine.bodyOf i s) :=
      h.bodyOf ▸ State.runCommand_ok (h.preCheck.trans hc) (h.busHit.trans hb) _
    rw [hv, show u = s.finish i (Machine.bodyOf i s) from hu]
    have hl := bodyOf_out_length i s ((s.preCheck_eq_none i).1 hc).2.1
    refine ⟨rfl, congrArg (successResult i) h.x, rfl, rfl, fun a ha => ?_⟩
    rw [State.finish_read_inside hm hl ha, State.finish_read_inside h.canonical (h.x.symm ▸ hl) (hout ha), h.settledByte,
      h.x]

end

end Sys2Proof.Machine
end

section
/-! PROOFS. The obligation about accesses that keep the host's obligations (20_memory.md R96, 40_command.md R174). -/

namespace Sys2Proof.Proofs

open Sys2Proof.Machine

/-- Settles O60, by induction on the accesses: each leaves the command in flight alike, and the engine ends alike commands
alike. -/
theorem obeyingAccessesDoNotChangeTheResult : Obligations.ObeyingAccessesDoNotChangeTheResult := by
  intro s t u v i hm hp hd hacc hu hv
  have h : InFlightAlike i s t := hacc.inFlightAlike hm hp hd
  have hu := eq_runCommand_of_exec (engineStep_exec hp hd ▸ hu)
  have hv := eq_runCommand_of_exec (engineStep_exec (h.phase.trans hp) (h.cmdword.symm ▸ hd) ▸ hv)
  obtain ⟨-, hidle, hdone⟩ := t.runCommand_keepsRegisters i (bodyOf i)
  obtain ⟨herr, hresult, hdiag, hmac, hout⟩ := h.runCommand hm
  subst hu hv
  exact ⟨herr, hresult, hdiag, hmac, hdone, hidle, hout,
    fun a ha => State.runCommand_mem_outside h.canonical (h.x.symm ▸ ha)⟩

end Sys2Proof.Proofs
end

section
/-! PROOFS. The decoder (30_encoding.md R130 to R136): the legal field triples are those of the commands, so decoding a
word is finding the command whose fields it has. -/

namespace Sys2Proof

/-- The per-command lemmas of `Laws.EncodingLegal`, for every command. -/
theorem encoding_legal (i : Instr) : Laws.EncodingLegal.Statement i :=
  match i with
  | .chachaXor  => Laws.EncodingLegal.chachaXor
  | .polyInit   => Laws.EncodingLegal.polyInit
  | .polyUpdate => Laws.EncodingLegal.polyUpdate
  | .polyFinish => Laws.EncodingLegal.polyFinish
  | .aeadSeal   => Laws.EncodingLegal.aeadSeal
  | .aeadOpen   => Laws.EncodingLegal.aeadOpen
  | .x25519 c   => Laws.EncodingLegal.x25519 c

@[simp] theorem fieldsOf_encode (i : Instr) : fieldsOf (encode i) = i.fields := (encoding_legal i).1

@[simp] theorem Instr.fields_legal (i : Instr) : i.fields.legal = true := (encoding_legal i).2

/-- The opcode map of 30_encoding.md R133 finds each command by its opcode and its CLAMP bit. -/
@[simp] theorem instrOfOpcode_fields (i : Instr) : instrOfOpcode i.fields.opc i.fields.clamp = some i := by
  cases i <;> rfl

theorem Instr.fields_injective {i j : Instr} (h : i.fields = j.fields) : i = j :=
  Option.some.inj (by rw [← instrOfOpcode_fields i, h, instrOfOpcode_fields])

/-- The fields that pass the checks of 30_encoding.md R135 are those of the commands: every command but X25519 has
CLAMP = 0, and X25519 has either. -/
theorem CommandWord.legal_iff_fields (f : CommandWord) : f.legal = true ↔ ∃ i : Instr, i.fields = f := by
  constructor
  · obtain ⟨opc, clamp, rsv⟩ := f
    rw [CommandWord.legal_iff]
    rintro ⟨⟨hopc, rfl : rsv = 0#23⟩, hclamp | rfl⟩
    · obtain rfl : clamp = false := hclamp
      rcases hopc with rfl | rfl | rfl | rfl | rfl | rfl | rfl
      · exact ⟨.chachaXor, rfl⟩
      · exact ⟨.polyInit, rfl⟩
      · exact ⟨.polyUpdate, rfl⟩
      · exact ⟨.polyFinish, rfl⟩
      · exact ⟨.aeadSeal, rfl⟩
      · exact ⟨.aeadOpen, rfl⟩
      · exact ⟨.x25519 false, rfl⟩
    · exact ⟨.x25519 clamp, rfl⟩
  · rintro ⟨i, rfl⟩
    exact i.fields_legal

/-- A word decodes to the command whose fields it has, and to no other. -/
theorem decode_eq_some_iff {w : Word} {i : Instr} : decode w = some i ↔ i.fields = fieldsOf w := by
  unfold decode
  split
  · next hlegal =>
    obtain ⟨j, hj⟩ := (CommandWord.legal_iff_fields _).1 hlegal
    rw [← hj, instrOfOpcode_fields, Option.some.injEq]
    exact ⟨fun hji => hji ▸ rfl, fun hij => (Instr.fields_injective hij).symm⟩
  · next hillegal =>
    have hno : i.fields ≠ fieldsOf w := fun hi => hillegal ((CommandWord.legal_iff_fields _).2 ⟨i, hi⟩)
    simp [hno]

@[simp] theorem decode_encode (i : Instr) : decode (encode i) = some i :=
  decode_eq_some_iff.2 (fieldsOf_encode i).symm

theorem decode_isSome_iff (w : Word) : (decode w).isSome = true ↔ (fieldsOf w).legal = true := by
  simp only [Option.isSome_iff_exists, decode_eq_some_iff, CommandWord.legal_iff_fields]

end Sys2Proof
end

section
/-! PROOFS. The obligations about the encoding of commands (30_encoding.md R130 to R136). -/

namespace Sys2Proof.Proofs

/-- Settles O1: decoding gives the command with the word's fields, and a word is determined by its fields. -/
theorem decodeEncodeRoundTrip : Obligations.DecodeEncodeRoundTrip :=
  ⟨decode_encode, fun _ i h => fieldsOf_injective ((fieldsOf_encode i).trans (decode_eq_some_iff.1 h))⟩

/-- Settles O2: a word decodes iff its fields pass the three checks. -/
theorem wordDecodesIffLegal : Obligations.WordDecodesIffLegal := by
  intro w
  rw [decode_isSome_iff, CommandWord.legal_iff, and_assoc]
  simp [fieldsOf]

/-- Settles O3: the eight words are the encodings of the commands. -/
theorem commandWordsDecode : Obligations.CommandWordsDecode :=
  ⟨decode_encode .chachaXor, decode_encode .polyInit, decode_encode .polyUpdate, decode_encode .polyFinish,
    decode_encode .aeadSeal, decode_encode .aeadOpen, decode_encode (.x25519 false), decode_encode (.x25519 true)⟩

end Sys2Proof.Proofs
end

section
/-! PROOFS. Host scripts, run (30_encoding.md R139, R140): the first write of a script, and a command script's argument
writes followed by its CMD write. -/

namespace Sys2Proof.Machine

/-- A run whose first step goes through is the run of the rest from the state it leaves. -/
theorem run_succ {s t : Sys2Proof.core.State} (h : step s = .next t) (n : Nat) :
    Host.Core.run Sys2Proof.core (n + 1) s = Host.Core.run Sys2Proof.core n t := by
  have hstep : Sys2Proof.core.step s = .next t := h
  rw [Host.Core.run, hstep]

/-- A script's first line, run, is its register write; the rest of the run goes on from there. -/
theorem run_wr {s : State} (hl : s.resetLine = false) (r : Reg) (v : Word) (ts : List Turn) (n : Nat) :
    Host.Core.run Sys2Proof.core (n + 1) { s with turns := wr s.params r v :: ts } =
      Host.Core.run Sys2Proof.core n { State.writeReg r v { s with turns := ts } with response := .written } := by
  have hstep := step_wr (s := { s with turns := wr s.params r v :: ts }) hl rfl
  exact run_succ hstep n

/-- A script of one write leaves what the write leaves, and the answer. -/
theorem run_single_wr {s t : State} (hl : s.resetLine = false) (r : Reg) (v : Word) {ts : List Turn}
    (h : State.writeReg r v { s with turns := ts } = t) :
    Host.Core.run Sys2Proof.core 1 { s with turns := wr s.params r v :: ts } =
      .next { t with response := .written } :=
  h ▸ run_wr hl r v ts 0

/-- Writing 0x2 to STATUS clears DONE alone (10_state.md R36). -/
theorem State.writeStatus_clearDone (s : State) : s.writeStatus 0x00000002#32 = { s with done := false } := by
  simp [State.writeStatus]

/-- Writing 0x4 to STATUS clears CMD_OVR alone (10_state.md R36). -/
theorem State.writeStatus_clearCmdOvr (s : State) : s.writeStatus 0x00000004#32 = { s with cmdOvr := false } := by
  simp [State.writeStatus]

/-- The argument registers after a list of writes, the first one first. -/
def Args.setAll (x : Args) : List (ArgName × Word) → Args
  | []          => x
  | (n, v) :: l => (x.set n v).setAll l

/-- The lines of a command script of 30_encoding.md R140: its argument writes, then its command word. -/
def commandScript (p : Params) (l : List (ArgName × Word)) (w : Word) : List Turn :=
  l.map (fun nv => wr p (.arg nv.1) nv.2) ++ [wr p .cmd w]

/-- A command script, run from an idle block out of reset, writes its arguments and issues its word. -/
theorem run_commandScript {s : State} (hp : s.phase = .idle) (hl : s.resetLine = false) (l : List (ArgName × Word))
    (w : Word) (ts : List Turn) :
    Host.Core.run Sys2Proof.core (commandScript s.params l w).length
        { s with turns := commandScript s.params l w ++ ts } =
      .next { State.issue w { s with args := s.args.setAll l } with turns := ts, response := .written } := by
  induction l generalizing s with
  | nil => exact run_single_wr hl .cmd w (State.writeCmd_idle (s := { s with turns := ts }) hp)
  | cons nv l ih =>
    refine (run_wr hl (.arg nv.1) nv.2 (commandScript s.params l w ++ ts) _).trans ?_
    exact ih (s := { s with args := s.args.set nv.1 nv.2, response := .written }) hp hl

end Sys2Proof.Machine
end

section
/-! PROOFS. The obligation about the pseudo-instructions (30_encoding.md R140). -/

namespace Sys2Proof.Proofs

open Sys2Proof.Machine

/-- Settles O54: the first eight scripts are command scripts, and each of the other five is one register write. -/
theorem hostScriptsExpand : Obligations.HostScriptsExpand := by
  intro s a b c d e f g cl ts hp hl run issued
  have command := fun l w => run_commandScript hp hl l w ts
  have write := fun r v {t : State} => run_single_wr (t := t) (ts := ts) hl r v
  refine ⟨command [(.dst, a), (.src, b), (.len, c), (.key, d), (.nonce, e), (.ctr, f)] _, command [(.key, a)] _,
    command [(.src, a), (.len, b)] _, command [(.dst, a)] _,
    command [(.dst, a), (.src, b), (.len, c), (.key, d), (.nonce, e), (.aad, f), (.aadLen, g)] _,
    command [(.dst, a), (.src, b), (.len, c), (.key, d), (.nonce, e)] _, ?_,
    command [(.dst, a), (.src, c), (.key, b)] _,
    write .status 0x00000002#32 (State.writeStatus_clearDone _),
    write .status 0x00000004#32 (State.writeStatus_clearCmdOvr _),
    write .ctrl 0x00000001#32 (State.writeCtrl_enable rfl), write .ctrl 0x00000000#32 (State.writeCtrl_enable rfl),
    write .ctrl 0x00000002#32 (State.writeCtrl_reset rfl)⟩
  cases cl with
  | false => exact command [(.dst, a), (.src, b), (.key, c)] _
  | true => exact command [(.dst, a), (.src, b), (.key, c)] _

end Sys2Proof.Proofs
end

section
/-! PROOFS. Which error a command ends with (40_command.md R163 to R167): the checks in their order, then BUS, then OK. -/

namespace Sys2Proof.Machine

/-! ### The checks in their order (40_command.md R167) -/

/-- The error of the checks is that of the first one that fails. -/
theorem State.preCheck_eq_some (i : Instr) (s : State) (e : ErrCode) :
    s.preCheck i = some e ↔
      (sequenceOk i s.mac = false ∧ e = .state) ∨
      (sequenceOk i s.mac = true ∧ lengthOk i s.x = false ∧ e = .length) ∨
      (sequenceOk i s.mac = true ∧ lengthOk i s.x = true ∧ rangesOk i s.x s.params = false ∧ e = .range) ∨
      (sequenceOk i s.mac = true ∧ lengthOk i s.x = true ∧ rangesOk i s.x s.params = true ∧
        overlapOk i s.x = false ∧ e = .overlap) := by
  unfold State.preCheck
  cases sequenceOk i s.mac with
  | false => simp [@eq_comm _ e]
  | true => cases lengthOk i s.x with
    | false => simp [@eq_comm _ e]
    | true => cases rangesOk i s.x s.params with
      | false => simp [@eq_comm _ e]
      | true => cases overlapOk i s.x <;> simp [@eq_comm _ e]

/-- ERR is the checks' error, or BUS, or OK. -/
theorem State.runCommand_err (i : Instr) (body : State → Effect) (s : State) (e : ErrCode) :
    (s.runCommand i body).err = e ↔
      s.preCheck i = some e ∨ (s.preCheck i = none ∧ s.busHit i = true ∧ e = .bus) ∨
        (s.preCheck i = none ∧ s.busHit i = false ∧ e = .ok) := by
  rcases s.runCommand_cases i body with ⟨c, hc, hr⟩ | ⟨hc, hb, hr⟩ | ⟨hc, hb, hr⟩ <;> rw [hr]
  · simp [hc]
  · simp [hc, hb, @eq_comm _ e]
  · simp [hc, hb, @eq_comm _ e]

section
variable {i : Instr} {s t : State} (h : exec i s = .next t)
include h

theorem exec_err (e : ErrCode) :
    t.err = e ↔ s.preCheck i = some e ∨ (s.preCheck i = none ∧ s.busHit i = true ∧ e = .bus) ∨
      (s.preCheck i = none ∧ s.busHit i = false ∧ e = .ok) := by
  rw [eq_runCommand_of_exec h, s.runCommand_err]

theorem exec_err_state : t.err = .state ↔ sequenceOk i s.mac = false := by
  simp [exec_err h, State.preCheck_eq_some]

theorem exec_err_length : t.err = .length ↔ sequenceOk i s.mac = true ∧ lengthOk i s.x = false := by
  simp [exec_err h, State.preCheck_eq_some]

theorem exec_err_range : t.err = .range ↔
    sequenceOk i s.mac = true ∧ lengthOk i s.x = true ∧ rangesOk i s.x s.params = false := by
  simp [exec_err h, State.preCheck_eq_some]

theorem exec_err_overlap : t.err = .overlap ↔
    sequenceOk i s.mac = true ∧ lengthOk i s.x = true ∧ rangesOk i s.x s.params = true ∧ overlapOk i s.x = false := by
  simp [exec_err h, State.preCheck_eq_some]

theorem exec_err_bus : t.err = .bus ↔ s.preCheck i = none ∧ s.busHit i = true := by
  simp [exec_err h, State.preCheck_eq_some]

theorem exec_err_ok : t.err = .ok ↔ s.preCheck i = none ∧ s.busHit i = false := by
  simp [exec_err h, State.preCheck_eq_some]

theorem exec_err_ne_illegal : t.err ≠ .illegal := by
  simp [exec_err h, State.preCheck_eq_some]

/-- Past the sequence and length checks, RANGE says that some buffer of the command is non-empty and not inside system
memory (40_command.md R165). -/
theorem exec_err_range_of_passed (hseq : sequenceOk i s.mac = true) (hlen : lengthOk i s.x = true) :
    t.err = .range ↔ ¬∀ r ∈ handedRanges i s.x, r.len = 0 ∨ r.start + r.len ≤ 2 ^ s.params.addrW := by
  rw [exec_err_range h, ← Bool.not_eq_true, rangesOk, List.all_eq_true]
  simp only [hseq, hlen, true_and, inRange_iff, handedRanges]

/-- Past the checks before it, OVERLAP says that the overlap check fails (40_command.md R166). -/
theorem exec_err_overlap_of_passed (hseq : sequenceOk i s.mac = true) (hlength : t.err ≠ .length)
    (hrange : t.err ≠ .range) : t.err = .overlap ↔ overlapOk i s.x = false := by
  have hlen : lengthOk i s.x = true := by simpa [exec_err_length h, hseq] using hlength
  have hranges : rangesOk i s.x s.params = true := by simpa [exec_err_range h, hseq, hlen] using hrange
  simp [exec_err_overlap h, hseq, hlen, hranges]

end

/-! ### What the checks look at -/

/-- The sequence check is one of POLY_UPDATE and POLY_FINISH only (40_command.md R163). -/
theorem sequenceOk_of_ne {i : Instr} (hu : i ≠ .polyUpdate) (hf : i ≠ .polyFinish) (m : MacContext) :
    sequenceOk i m = true := by
  cases i with
  | polyUpdate => exact absurd rfl hu
  | polyFinish => exact absurd rfl hf
  | _ => rfl

/-- The length and overlap checks are those of CHACHA_XOR, AEAD_SEAL and AEAD_OPEN only (40_command.md R164, R166). -/
theorem lengthOk_overlapOk_of_ne {i : Instr} (hx : i ≠ .chachaXor) (hs : i ≠ .aeadSeal) (ho : i ≠ .aeadOpen)
    (x : Args) : lengthOk i x = true ∧ overlapOk i x = true := by
  cases i with
  | chachaXor => exact absurd rfl hx
  | aeadSeal => exact absurd rfl hs
  | aeadOpen => exact absurd rfl ho
  | _ => exact ⟨rfl, rfl⟩

/-- `Intersect` as 20_memory.md R100 writes it. -/
theorem intersect_iff_lt (r t : Range) :
    intersect r t = true ↔ 0 < r.len ∧ 0 < t.len ∧ r.start < t.start + t.len ∧ t.start < r.start + r.len := by
  simp only [intersect, Bool.and_eq_true, decide_eq_true_eq, and_assoc]

/-- Only POLY_UPDATE and POLY_FINISH read the persistent context: with another one in its place any other body gives the
same but for the context it leaves. -/
theorem bodyOf_withMac_of_ne {i : Instr} (hu : i ≠ .polyUpdate) (hf : i ≠ .polyFinish) (s : State) (m : MacContext) :
    ∃ c, bodyOf i { s with mac := m } = { bodyOf i s with mac := c } := by
  cases i with
  | polyUpdate => exact absurd rfl hu
  | polyFinish => exact absurd rfl hf
  | _ => exact ⟨_, rfl⟩

/-- So its whole command gives the same but for the context. -/
theorem State.runCommand_withMac_of_ne {i : Instr} (hu : i ≠ .polyUpdate) (hf : i ≠ .polyFinish) (s : State)
    (m : MacContext) : ∃ c,
      State.runCommand i (bodyOf i) { s with mac := m } = { s.runCommand i (bodyOf i) with mac := c } := by
  have hc : State.preCheck i { s with mac := m } = s.preCheck i :=
    State.preCheck_withMac (by rw [sequenceOk_of_ne hu hf, sequenceOk_of_ne hu hf])
  rcases s.runCommand_cases i (bodyOf i) with ⟨e, he, hr⟩ | ⟨hn, hb, hr⟩ | ⟨hn, hb, hr⟩ <;> rw [hr]
  · exact ⟨_, State.runCommand_failed (hc.trans he) _⟩
  · exact ⟨_, State.runCommand_bus (hc.trans hn) hb _⟩
  · obtain ⟨c, hbody⟩ := bodyOf_withMac_of_ne hu hf s m
    exact ⟨c, by rw [State.runCommand_ok (hc.trans hn) hb, hbody]; rfl⟩

end Sys2Proof.Machine
end

section
/-! PROOFS. The obligations about the checks (40_command.md R163 to R167). -/

namespace Sys2Proof.Proofs

open Sys2Proof.Machine

/-- Settles O24, a code at a time; that a byte is inadmissible is what `busHit` looks for. -/
theorem firstFailingCheckIsTheError : Obligations.FirstFailingCheckIsTheError := by
  intro i s
  have h := exec_eq i s
  refine ⟨_, h, exec_err_state h, exec_err_length h, exec_err_range h, exec_err_overlap h, ?_, ?_, exec_err_ne_illegal h⟩
  · rw [exec_err_bus h, s.preCheck_eq_none, s.busHit_iff]
    simp only [and_assoc]
  · rw [exec_err_ok h, s.preCheck_eq_none, ← Bool.not_eq_true, s.busHit_iff]
    simp only [and_assoc]

/-- Settles O25: STATE is the sequence check's error, and a command without that check does not read the context. -/
theorem macSequenceCheck : Obligations.MacSequenceCheck := by
  refine ⟨fun i s t hi h => ?_, fun i s t u p hu hf ht h => ⟨?_, ?_⟩⟩
  · rcases hi with rfl | rfl <;> simp [exec_err_state h, sequenceOk]
  · simp [exec_err_state ht, sequenceOk_of_ne hu hf]
  · obtain ⟨c, hc⟩ := State.runCommand_withMac_of_ne hu hf s { s.mac with pstate := p }
    rw [eq_runCommand_of_exec h, hc, ← eq_runCommand_of_exec ht]

/-- Settles O26: LENGTH is the length check's error where the command has no sequence check; the commands that have one
have no length check. -/
theorem lengthLimits : Obligations.LengthLimits := by
  refine fun s t => ⟨fun h => (exec_err_length h).trans ?_, fun h => (exec_err_length h).trans ?_,
    fun h => (exec_err_length h).trans ?_, fun i hx hs ho h => ?_⟩
  iterate 3 · simp [sequenceOk, lengthOk]
  · simp [exec_err_length h, lengthOk_overlapOk_of_ne hx hs ho]

/-- Settles O27: the buffers of each command, one by one. -/
theorem rangeCheck : Obligations.RangeCheck := by
  intro s t fits n
  have hfits (p : Word) (k : Nat) :
      ((rangeAt p k).len = 0 ∨ (rangeAt p k).start + (rangeAt p k).len ≤ 2 ^ s.params.addrW) ↔ fits p k := Iff.rfl
  have passed {i : Instr} (h : exec i s = .next t) (hseq : sequenceOk i s.mac = true)
      (hlen : lengthOk i s.x = true) := exec_err_range_of_passed h hseq hlen
  refine ⟨fun h hn => (passed h rfl (decide_eq_true hn)).trans ?_, fun h => (passed h rfl rfl).trans ?_,
    fun h hp => (passed h (by simp [sequenceOk, hp]) rfl).trans ?_,
    fun h hp => (passed h (by simp [sequenceOk, hp]) rfl).trans ?_,
    fun h hn => (passed h rfl (decide_eq_true hn)).trans ?_,
    fun h hn => (passed h rfl (decide_eq_true hn)).trans ?_, fun c h => (passed h rfl rfl).trans ?_⟩
  all_goals simp [handedRanges, outputRange, inputRanges, hfits, n, and_left_comm]

/-- Settles O28: the comparisons of each command that has some, as 20_memory.md R100 writes them. -/
theorem overlapCheck : Obligations.OverlapCheck := by
  intro s t meet n src dst
  refine ⟨fun h hl hr => ?_, fun h hl hr => ?_, fun h hl hr => ?_, fun i hx hs ho h => ?_⟩
  · rw [exec_err_overlap_of_passed h rfl hl hr, overlapOk, Bool.not_eq_false', overlap_iff]
    rfl
  · rw [exec_err_overlap_of_passed h rfl hl hr, overlapOk, Bool.and_eq_false_iff, Bool.not_eq_false',
      Bool.not_eq_false', overlap_iff, intersect_iff_lt]
    rfl
  · rw [exec_err_overlap_of_passed h rfl hl hr, overlapOk, Bool.not_eq_false', overlap_iff]
    rfl
  · simp [exec_err_overlap h, lengthOk_overlapOk_of_ne hx hs ho]

end Sys2Proof.Proofs
end

section
/-! PROOFS. How a command ends (40_command.md R168, R170, R172): the completion fields, and what a failed check leaves. -/

namespace Sys2Proof.Machine

/-- Every command ends idle, with DONE set, no transient state and no race left (40_command.md R170). -/
theorem State.runCommand_completesWith (i : Instr) (body : State → Effect) (s : State) :
    CompletesWith (s.runCommand i body).err (s.runCommand i body).result (s.runCommand i body).diag
      (s.runCommand i body) := by
  rcases s.runCommand_cases i body with ⟨e, -, h⟩ | ⟨-, -, h⟩ | ⟨-, -, h⟩ <;> rw [h] <;> simp [CompletesWith]

/-- DIAG is set by an X25519 that ended with OK only (10_state.md R40). -/
theorem State.runCommand_diag {i : Instr} {s : State} (h : (s.runCommand i (bodyOf i)).diag = true) :
    (s.runCommand i (bodyOf i)).err = .ok ∧ ∃ c, i = .x25519 c := by
  rcases s.runCommand_cases i (bodyOf i) with ⟨e, -, hr⟩ | ⟨-, -, hr⟩ | ⟨-, -, hr⟩ <;> rw [hr] at h ⊢
  · simp at h
  · simp at h
  · exact ⟨rfl, eq_x25519_of_bodyOf_diag h⟩

/-- RESULT is the sentinel exactly with an error: a success value is below it (40_command.md R172). -/
theorem State.runCommand_sentinel (i : Instr) (body : State → Effect) (s : State) :
    (s.runCommand i body).result = sentinel ↔ (s.runCommand i body).err ≠ .ok := by
  rcases s.runCommand_cases i body with ⟨e, hc, h⟩ | ⟨-, -, h⟩ | ⟨hc, -, h⟩ <;> rw [h]
  · simp [State.preCheck_ne_ok hc]
  · simp
  · simp [successResult_ne_sentinel ((s.preCheck_eq_none i).1 hc).2.1]

/-- A word other than the sentinel is below it. -/
theorem toNat_le_of_ne_sentinel {w : Word} (h : w ≠ sentinel) : w.toNat ≤ 0xFFFFFFFE := by
  unfold sentinel at h
  bv_omega

/-- A command that ends with an error other than BUS has failed a check, and is rejected. -/
theorem eq_reject_of_exec {i : Instr} {s t : State} (h : exec i s = .next t) (hok : t.err ≠ .ok)
    (hbus : t.err ≠ .bus) : t = s.reject i t.err := by
  have hc : s.preCheck i = some t.err := by simpa [hok, hbus] using (exec_err h t.err).1 rfl
  rw [eq_runCommand_of_exec h, State.runCommand_failed hc, State.reject_err]

end Sys2Proof.Machine
end

section
/-! PROOFS. The obligations about how a command ends (40_command.md R168, R170, R172). -/

namespace Sys2Proof.Proofs

open Sys2Proof.Machine

/-- Settles O29: a rejected command is completed with its error, and frees the raced output bytes that exist. -/
theorem failedCheckChangesNothingElse : Obligations.FailedCheckChangesNothingElse := by
  intro i s t hm h hok hbus
  have ht := eq_reject_of_exec h hok hbus
  generalize t.err = e at ht
  subst ht
  exact ⟨by simp [CompletesWith, sentinel], State.reject_mac i e s, by simp [KeepsRegisters],
    fun hr => State.racedOutput_of_no_race hr i, State.racedOutput_read hm i⟩

/-- Settles O39, from the lemmas about the end of a command. -/
theorem everyCommandCompletesInItsFrame : Obligations.EveryCommandCompletesInItsFrame := by
  intro i s hm
  obtain ⟨hkeeps, -⟩ := s.runCommand_keepsRegisters i (bodyOf i)
  refine ⟨_, exec_eq i s, hkeeps, s.runCommand_completesWith i (bodyOf i), fun a ha => ?_, State.runCommand_diag⟩
  exact State.runCommand_mem_outside hm (by rwa [← Bool.not_eq_true, inside_iff])

/-- Settles O40: a success value is not the sentinel, which is the greatest word. -/
theorem sentinelMarksFailedCommands : Obligations.SentinelMarksFailedCommands := by
  intro i s t h
  have hs : t.result = sentinel ↔ t.err ≠ .ok := eq_runCommand_of_exec h ▸ s.runCommand_sentinel i (bodyOf i)
  exact ⟨hs, fun hok => toNat_le_of_ne_sentinel (mt hs.1 (not_not_intro hok))⟩

end Sys2Proof.Proofs
end

section
/-! PROOFS. The command in the step (40_command.md R161, R162, R171, R174): what each turn does to it. -/

namespace Sys2Proof.Machine

theorem step_engine {s : State} {ts : List Turn} (h : s.turns = .engine :: ts) : step s = engineStep (s.rest ts) := by
  simp only [step, h]

theorem step_memoryWait {s : State} {ts : List Turn} (h : s.turns = .memoryWait :: ts) :
    step s = .next (s.rest ts) := by
  simp only [step, h]

theorem step_none {s : State} (h : s.turns = []) : step s = .next s := by
  simp only [step, h]

/-- A line `wr REG, v` of a host script leaves what its register write leaves, and the answer (30_encoding.md R139). -/
theorem step_wr_of_eq {s t : State} {r : Reg} {v : Word} {ts : List Turn} (hl : s.resetLine = false)
    (h : s.turns = wr s.params r v :: ts) (hw : (s.rest ts).writeReg r v = t) :
    step s = .next { t with response := .written } :=
  hw ▸ step_wr hl h

/-- A CMD write taken while idle issues its word (40_command.md R161). -/
theorem step_cmdWrite_idle {s : State} {w : Word} {ts : List Turn} (hl : s.resetLine = false) (hp : s.phase = .idle)
    (h : s.turns = wr s.params .cmd w :: ts) : step s = .next { (s.rest ts).issue w with response := .written } :=
  step_wr_of_eq hl h (State.writeCmd_idle (s := s.rest ts) hp)

/-- A CMD write taken while BUSY is dropped (10_state.md R39). -/
theorem step_cmdWrite_busy {s : State} {w : Word} {ts : List Turn} (hl : s.resetLine = false) (hp : s.phase = .busy)
    (h : s.turns = wr s.params .cmd w :: ts) :
    step s = .next { s.rest ts with cmdOvr := true, response := .written } :=
  step_wr_of_eq hl h (State.writeCmd_busy (s := s.rest ts) hp)

/-- With a command in flight, an illegal word included, the engine's step completes it. -/
theorem engineStep_completes {s : State} (hp : s.phase = .busy) :
    ∃ t, engineStep s = .next t ∧ KeepsRegisters s t ∧ t.phase = .idle ∧ t.done = true := by
  obtain ⟨t, ht⟩ : ∃ t, engineStep s = .next t := by
    rcases engineStep_cases s with ⟨-, h⟩ | ⟨-, -, h⟩ | ⟨i, -, -, h⟩ <;> exact ⟨_, h⟩
  obtain ⟨hkeeps, hends⟩ := engineStep_keepsRegisters ht
  exact ⟨t, ht, hkeeps, hends hp⟩

/-- Waits for the memory change nothing but the list of turns (40_command.md R171). -/
theorem run_memoryWaits {n : Nat} {s : State} {ts : List Turn} (h : s.turns = List.replicate n .memoryWait ++ ts) :
    Host.Core.run Sys2Proof.core n s = .next (s.rest ts) := by
  induction n generalizing s with
  | zero =>
    obtain rfl : s.turns = ts := h
    rfl
  | succ n ih => exact (run_succ (step_memoryWait h) n).trans (ih (s := s.rest _) rfl)

/-- With no turn listed nothing moves, however long the run (70_reset_and_hazards.md R471). -/
theorem run_noTurns {s : State} (h : s.turns = []) (n : Nat) : Host.Core.run Sys2Proof.core n s = .next s := by
  induction n with
  | zero => rfl
  | succ n ih => exact (run_succ (step_none h) n).trans ih

end Sys2Proof.Machine
end

section
/-! PROOFS. The obligations about the command in the step (40_command.md R161, R162, R171, R174). -/

namespace Sys2Proof.Proofs

open Sys2Proof.Machine

/-- Settles O4: the engine's turn is the engine's step, which with a legal word in flight is `exec`. -/
theorem stepRunsDecodedCommand : Obligations.StepRunsDecodedCommand :=
  fun s _ ts hp hd hts => (step_engine hts).trans (engineStep_exec (s := s.rest ts) hp hd)

/-- Settles O5: the CMD write issues, and the engine raises ILLEGAL on the word that does not decode. -/
theorem illegalWordCompletesWithIllegal : Obligations.IllegalWordCompletesWithIllegal := by
  intro s w ts hd hp hl hts
  exact ⟨_, step_cmdWrite_idle hl hp hts, rfl, (step_engine rfl).trans (engineStep_illegal rfl hd)⟩

/-- Settles O6, by the phase. -/
theorem cmdWriteIssuesOrIsDropped : Obligations.CmdWriteIssuesOrIsDropped :=
  fun _ _ _ hl hts => ⟨fun hp => step_cmdWrite_idle hl hp hts, fun hp => step_cmdWrite_busy hl hp hts⟩

/-- Settles O20: waits and an empty list of turns leave the command, the engine's turn completes it. -/
theorem unansweredCommandStaysInFlight : Obligations.UnansweredCommandStaysInFlight := by
  refine ⟨fun n s ts _ hts => run_memoryWaits hts, fun n s hts => run_noTurns hts n, fun s ts hp hts => ?_⟩
  obtain ⟨t, ht, ⟨-, -, -, -, -, -, -, hturns, -⟩, hidle, hdone⟩ := engineStep_completes (s := s.rest ts) hp
  exact ⟨t, (step_engine hts).trans ht, hidle, hdone, hturns⟩

end Sys2Proof.Proofs
end

section
/-! PROOFS. What CHACHA_XOR writes (41_chacha20.md R205, R206, R210): its output bytes as one string, a function of the
input, key and nonce strings, the counter and the length. -/

namespace Sys2Proof.Machine

theorem Memory.bytes_getD (m : Memory) (a : Nat) {n j : Nat} (hj : j < n) : (m.bytes a n).getD j 0 = m.read (a + j) := by
  rw [List.getD_eq_getElem _ _ (by simpa using hj), Memory.bytes_getElem]

/-- Xoring twice with one string cancels (41_chacha20.md R211). -/
theorem xorBytes_xorBytes_cancel {a b : List Byte} (h : a.length = b.length) : xorBytes (xorBytes a b) b = a := by
  refine List.ext_getElem (by simp [h]) fun j _ _ => ?_
  rw [xorBytes_getElem, xorBytes_getElem, BitVec.xor_assoc, BitVec.xor_self, BitVec.xor_zero]

/-- An undisturbed command that ends with OK leaves its body's output in its output range (20_memory.md R93). -/
theorem State.Undisturbed.exec_ok_bytes {i : Instr} {s t : State} (h : s.Undisturbed i) (hm : s.mem.wf)
    (hx : exec i s = .next t) (he : t.err = .ok) :
    t.mem.bytes (outputRange i s.x).start (outputRange i s.x).len = (bodyOf i s).out := by
  obtain ⟨hc, -, rfl⟩ := State.finish_of_exec_ok hx he
  rw [← bodyOf_out_length i s ((s.preCheck_eq_none i).1 hc).2.1]
  exact Memory.bytes_eq_of_read _ _ _ fun j hj => h.finish_read hm _ hj

/-- Every byte outside a command's output range reads after as before (20_memory.md R93, R98 (c)). -/
theorem exec_memoryKeptOutside {i : Instr} {s t : State} (hm : s.mem.wf) (hx : exec i s = .next t) :
    MemoryKeptOutside (outputRange i s.x) s t := by
  intro a ha
  rw [eq_runCommand_of_exec hx]
  exact State.runCommand_mem_outside hm (by rwa [← Bool.not_eq_true, inside_iff])

/-- CHACHA_XOR's operands are memory's bytes, so its output is the input string xored with the keystream. -/
theorem State.Undisturbed.chachaXor_out {s : State} (h : s.Undisturbed .chachaXor) :
    (bodyOf .chachaXor s).out = xorBytes (s.mem.bytes s.x.src.toNat s.x.len.toNat)
      (keystream (s.mem.bytes s.x.key.toNat 32) (s.mem.bytes s.x.nonce.toNat 12) s.x.ctr s.x.len.toNat) := by
  simp only [bodyOf, chachaXorBody]
  rw [h.readOperand, h.readOperand, h.readOperand]
  · rfl
  all_goals simp [accessedRanges, readRanges]

/-- The output string of an undisturbed CHACHA_XOR that ends with OK (41_chacha20.md R210). -/
theorem State.Undisturbed.chachaXor_bytes {s t : State} (h : s.Undisturbed .chachaXor) (hm : s.mem.wf)
    (hx : exec .chachaXor s = .next t) (he : t.err = .ok) :
    t.mem.bytes s.x.dst.toNat s.x.len.toNat = xorBytes (s.mem.bytes s.x.src.toNat s.x.len.toNat)
      (keystream (s.mem.bytes s.x.key.toNat 32) (s.mem.bytes s.x.nonce.toNat 12) s.x.ctr s.x.len.toNat) :=
  (h.exec_ok_bytes hm hx he).trans h.chachaXor_out

/-- CHACHA_XOR's checks: length, the four ranges, and partial overlap of input and output (40_command.md R164 to R166). -/
theorem State.preCheck_chachaXor_eq_none (s : State) :
    s.preCheck .chachaXor = none ↔ s.x.len.toNat ≤ 0xFFFFFFFE ∧
      inRange s.params (rangeAt s.x.dst s.x.len.toNat) = true ∧ inRange s.params (rangeAt s.x.src s.x.len.toNat) = true ∧
      inRange s.params (rangeAt s.x.key 32) = true ∧ inRange s.params (rangeAt s.x.nonce 12) = true ∧
      overlap (rangeAt s.x.src s.x.len.toNat) (rangeAt s.x.dst s.x.len.toNat) = false := by
  simp only [s.preCheck_eq_none, sequenceOk, lengthOk, rangesOk, overlapOk, outputRange, inputRanges, List.all_cons,
    List.all_nil, Bool.and_eq_true, decide_eq_true_eq, Bool.not_eq_true', true_and, and_true, and_assoc]

end Sys2Proof.Machine
end

section
/-! PROOFS. The obligations about CHACHA_XOR (41_chacha20.md R205, R206, R210 to R212). -/

namespace Sys2Proof.Proofs

open Sys2Proof.Machine

/-- Settles O32: the hypotheses are the command's checks, so it finishes its body; a byte of the output string is the
input's xor the keystream's, and the frame is every command's. -/
theorem chachaXorResult : Obligations.ChachaXorResult := by
  intro s hm h hlen hsrc hdst hkey hnonce hover
  have hx := h.exec_eq_finish (s.preCheck_chachaXor_eq_none.2 ⟨hlen, hdst, hsrc, hkey, hnonce, hover⟩)
  have hbytes := h.chachaXor_bytes hm hx (State.finish_err _ _ _)
  refine ⟨_, hx, fun j hj => ?_, exec_memoryKeptOutside hm hx, ?_, rfl, ?_⟩
  · rw [← Memory.bytes_getD _ _ hj, hbytes, xorBytes_keystream_getD (Memory.bytes_length _ _ _) hj,
      Memory.bytes_getD _ _ hj]
  · simp [CompletesWith, successResult, bodyOf, chachaXorBody]
  · simp [KeepsRegisters]

/-- Settles O46: both commands xor with one keystream, which cancels. -/
theorem chachaXorTwiceRestoresInput : Obligations.ChachaXorTwiceRestoresInput := by
  intro s t u v hms hs hst ht hmu hu hinput hkey hnonce hctr hlen huv hv
  rw [hu.chachaXor_bytes hmu huv hv, hinput, hs.chachaXor_bytes hms hst ht, hkey, hnonce, hctr, hlen]
  exact xorBytes_xorBytes_cancel (by simp)

/-- Settles O47: the output string is a function of the input, key and nonce strings, the counter and the length. -/
theorem chachaXorDeterminedByItsInputs : Obligations.ChachaXorDeterminedByItsInputs := by
  intro s t u v hms hmu hs hu hst huv ht hv hlen hctr hkey hnonce hinput
  rw [hs.chachaXor_bytes hms hst ht, hu.chachaXor_bytes hmu huv hv, hinput, hkey, hnonce, hctr, hlen]

end Sys2Proof.Proofs
end

section
/-! PROOFS. What the MAC commands do (42_poly1305.md R240 to R258): when their checks pass, the contexts their bodies
leave on undisturbed memory, and what BUS makes of the context. -/

namespace Sys2Proof.Machine

/-! ### The checks of the MAC commands (40_command.md R163, R165) -/

theorem State.preCheck_polyInit_eq_none (s : State) :
    s.preCheck .polyInit = none ↔ inRange s.params (rangeAt s.x.key 32) = true := by
  simp [s.preCheck_eq_none, sequenceOk, lengthOk, rangesOk, overlapOk, outputRange, inputRanges]

theorem State.preCheck_polyUpdate_eq_none (s : State) :
    s.preCheck .polyUpdate = none ↔
      s.mac.pstate = .accum ∧ inRange s.params (rangeAt s.x.src s.x.len.toNat) = true := by
  simp [s.preCheck_eq_none, sequenceOk, lengthOk, rangesOk, overlapOk, outputRange, inputRanges]

theorem State.preCheck_polyFinish_eq_none (s : State) :
    s.preCheck .polyFinish = none ↔ s.mac.pstate = .accum ∧ inRange s.params (rangeAt s.x.dst 16) = true := by
  simp [s.preCheck_eq_none, sequenceOk, lengthOk, rangesOk, overlapOk, outputRange, inputRanges]

/-- POLY_UPDATE and POLY_FINISH fail the sequence check exactly outside ACCUM (40_command.md R163). -/
theorem sequenceOk_eq_false_iff {i : Instr} (hi : i = .polyUpdate ∨ i = .polyFinish) (m : MacContext) :
    sequenceOk i m = false ↔ m.pstate ≠ .accum := by
  rcases hi with rfl | rfl <;> simp [sequenceOk]

/-- Outside ACCUM, POLY_UPDATE and POLY_FINISH end with STATE and leave the context (42_poly1305.md R240). -/
theorem exec_outside_accum {i : Instr} {s t : State} (hi : i = .polyUpdate ∨ i = .polyFinish)
    (h : exec i s = .next t) (hp : s.mac.pstate ≠ .accum) : t.err = .state ∧ t.mac = s.mac := by
  have he : t.err = .state := (exec_err_state h).2 ((sequenceOk_eq_false_iff hi s.mac).2 hp)
  have ht := eq_reject_of_exec h (by simp [he]) (by simp [he])
  exact ⟨he, by rw [ht, State.reject_mac]⟩

/-! ### How a MAC command ends -/

/-- A command that ended with BUS is the bus error of its state (20_memory.md R98). -/
theorem eq_busError_of_exec {i : Instr} {s t : State} (h : exec i s = .next t) (he : t.err = .bus) :
    t = s.busError i := by
  obtain ⟨hc, hb⟩ := (exec_err_bus h).1 he
  rw [eq_runCommand_of_exec h, State.runCommand_bus hc hb]

/-- BUS discards the context of a MAC command (42_poly1305.md R258). -/
theorem macAfterBus_of_mac {i : Instr} (hi : i = .polyInit ∨ i = .polyUpdate ∨ i = .polyFinish) (m : MacContext) :
    (macAfterBus i m).pstate = .uninit := by
  rcases hi with rfl | rfl | rfl <;> rfl

theorem State.finish_completesWith (i : Instr) (e : Effect) (s : State) :
    CompletesWith .ok (successResult i s.x) e.diag (s.finish i e) := by
  simp [CompletesWith]

theorem State.finish_keepsRegisters (i : Instr) (e : Effect) (s : State) : KeepsRegisters s (s.finish i e) := by
  simp [KeepsRegisters]

/-- A body without output bytes writes no memory (20_memory.md R93). -/
theorem State.finish_mem_of_no_output {e : Effect} (h : e.out = []) (i : Instr) (s : State) :
    (s.finish i e).mem = s.mem := by
  simp [State.writeOutput, State.settledBytes, Memory.writeBytes, h]

/-! ### The contexts the bodies leave -/

/-- POLY_UPDATE leaves ACCUM, with or without a race (42_poly1305.md R250). -/
theorem polyUpdateBody_pstate (s : State) : (polyUpdateBody s).mac.pstate = .accum := by
  cases hr : s.racedIn (rangeAt s.x.src s.x.len.toNat) with
  | false => rw [polyUpdateBody_mac_of_no_race hr]; rfl
  | true => rw [polyUpdateBody_mac_of_race hr]; rfl

theorem State.Undisturbed.polyInit_mac {s : State} (h : s.Undisturbed .polyInit) :
    (bodyOf .polyInit s).mac = MacContext.init (s.mem.bytes s.x.key.toNat 32) := by
  simp only [bodyOf, polyInitBody]
  rw [h.readOperand (by simp [accessedRanges, readRanges])]
  rfl

theorem State.Undisturbed.polyUpdate_mac {s : State} (h : s.Undisturbed .polyUpdate) :
    (bodyOf .polyUpdate s).mac = s.mac.update (s.mem.bytes s.x.src.toNat s.x.len.toNat) := by
  rw [bodyOf, polyUpdateBody_mac_of_no_race (by simp [State.racedIn, h.1]),
    h.readOperand (by simp [accessedRanges, readRanges])]
  rfl

/-- The tag an undisturbed POLY_FINISH writes for a context that no race has touched (42_poly1305.md R255). -/
theorem State.Undisturbed.polyFinish_bytes {s t : State} (h : s.Undisturbed .polyFinish) (hm : s.mem.wf)
    (hspec : s.mac.anyTag = false) (hx : exec .polyFinish s = .next t) (he : t.err = .ok) :
    t.mem.bytes s.x.dst.toNat 16 = s.mac.finish.tag :=
  (h.exec_ok_bytes hm hx he).trans (State.finishTag_of_specified hspec)

/-- A string in memory is cut at byte n, as the key of R241 at byte 16. -/
theorem Memory.take_bytes (m : Memory) (a n k : Nat) : (m.bytes a (n + k)).take n = m.bytes a n := by
  refine List.ext_getElem (by simp) fun j _ _ => ?_
  rw [List.getElem_take, Memory.bytes_getElem, Memory.bytes_getElem]

theorem Memory.drop_bytes (m : Memory) (a n k : Nat) : (m.bytes a (n + k)).drop n = m.bytes (a + n) k := by
  refine List.ext_getElem (by simp) fun j _ _ => ?_
  rw [List.getElem_drop, Memory.bytes_getElem, Memory.bytes_getElem, Nat.add_assoc]

theorem keyR_bytes (m : Memory) (a : Nat) :
    keyR (m.bytes a 32) = BitVec.ofNat 128 (leNat (m.bytes a 16)) &&& clampMask := by
  rw [keyR, m.take_bytes a 16 16]

theorem keyPad_bytes (m : Memory) (a : Nat) :
    keyPad (m.bytes a 32) = BitVec.ofNat 128 (leNat (m.bytes (a + 16) 16)) := by
  rw [keyPad, m.drop_bytes a 16 16, List.take_of_length_le (by simp)]

/-- The context of POLY_FINISH, its cases as propositions (42_poly1305.md R255, R259). -/
theorem MacContext.finish_eq (c : MacContext) : c.finish = { c with
    pstate := .final
    acc    := if c.buf = [] then c.acc else absorb c.r c.acc (partialBlockValue c.buf)
    buf    := []
    final  := c.final || decide (c.buf ≠ []) } := by
  cases hb : c.buf <;> simp [MacContext.finish, hb]

/-! ### Blocks (42_poly1305.md R250) -/

/-- Block i of a string starts at byte 16 i. -/
theorem blocks16_eq_map (q : Nat) (m : List Byte) :
    blocks16 q m = (List.range q).map fun i => (m.drop (16 * i)).take 16 := by
  induction q generalizing m with
  | zero => rfl
  | succ q ih =>
    rw [blocks16, ih, List.range_succ_eq_map]
    simp [Function.comp_def, Nat.mul_add, Nat.add_comm]

/-- Absorbing full blocks, in the terms of R242 and R243. -/
theorem absorbBlocks_eq_foldl (r : BitVec 128) (q : Nat) (m : List Byte) (acc : Nat) :
    absorbBlocks r q m acc = (List.range q).foldl (fun acc i =>
      ((acc + leNat ((m.drop (16 * i)).take 16) + 2 ^ 128) * r.toNat) % (2 ^ 130 - 5)) acc := by
  simp only [absorbBlocks, blocks16_eq_map, List.foldl_map, absorb, fullBlockValue, p130, Nat.add_assoc]

end Sys2Proof.Machine
end

section
/-! PROOFS. The obligations about the MAC commands one by one (42_poly1305.md R240 to R258). -/

namespace Sys2Proof.Proofs

open Sys2Proof.Machine

/-- Settles O31: BUS discards the context, which is then not in ACCUM, so the sequence check rejects both commands. -/
theorem busErrorDiscardsMacContext : Obligations.BusErrorDiscardsMacContext := by
  intro i s t hi hm h he
  obtain rfl := eq_busError_of_exec h he
  have hp : (s.busError i).mac.pstate = .uninit := macAfterBus_of_mac hi s.mac
  refine ⟨hp, ?_, fun k u hk hu => ?_⟩
  · rintro rfl j hj
    exact State.busError_read_inside hm (by simp [outputRange, rangeAt, hj])
  · exact ⟨_, exec_eq k u, exec_outside_accum hk (exec_eq k u) (by rw [hu, hp]; decide)⟩

/-- Settles O41: each row of the state machine is one way a command can end. -/
theorem polyStateTransitions : Obligations.PolyStateTransitions := by
  intro s t
  refine ⟨fun h he => ?_, fun h => ⟨fun _ he => ?_, exec_outside_accum (.inl rfl) h⟩,
    fun h => ⟨fun _ he => ?_, exec_outside_accum (.inr rfl) h⟩, fun i hi h => ⟨fun he => ?_, fun hb hok => ?_⟩⟩
  · simp [State.exec_ok_mac h he, bodyOf, polyInitBody, MacContext.init]
  · rw [State.exec_ok_mac h he]
    exact polyUpdateBody_pstate s
  · rw [State.exec_ok_mac h he]
    rfl
  · rw [eq_busError_of_exec h he]
    exact macAfterBus_of_mac hi s.mac
  · rw [eq_reject_of_exec h hok hb, State.reject_mac]

/-- Settles O33: the range is the command's only check, so it finishes its body, whose operand is the key in memory. -/
theorem polyInitResult : Obligations.PolyInitResult := by
  intro s h hkey
  have hmac := h.polyInit_mac
  refine ⟨_, h.exec_eq_finish (s.preCheck_polyInit_eq_none.2 hkey), ?_⟩
  rw [State.finish_mac, hmac]
  refine ⟨rfl, rfl, rfl, rfl, rfl, keyR_bytes _ _, keyPad_bytes _ _, fun a => ?_,
    State.finish_completesWith .polyInit _ s, State.finish_keepsRegisters _ _ s⟩
  rw [State.finish_mem_of_no_output rfl]

/-- Settles O34: the command finishes its body, whose operand is the data in memory; its blocks are cut at 16 i. -/
theorem polyUpdateResult : Obligations.PolyUpdateResult := by
  intro s h hp hsrc m q
  have hmac := h.polyUpdate_mac
  refine ⟨_, h.exec_eq_finish (s.preCheck_polyUpdate_eq_none.2 ⟨hp, hsrc⟩), ?_⟩
  rw [State.finish_mac, hmac]
  refine ⟨?_, rfl, rfl, rfl, rfl, rfl, rfl, fun a => ?_,
    State.finish_completesWith .polyUpdate _ s, State.finish_keepsRegisters _ _ s⟩
  · exact absorbBlocks_eq_foldl s.mac.r q m s.mac.acc
  · rw [State.finish_mem_of_no_output rfl]

/-- Settles O35: the command finishes its body; the bytes at x[0] are the finished context's tag, or free ones. -/
theorem polyFinishResult : Obligations.PolyFinishResult := by
  intro s hm h hp hdst acc
  have hx := h.exec_eq_finish (s.preCheck_polyFinish_eq_none.2 ⟨hp, hdst⟩)
  have hmac : s.mac.finish.acc = acc := by rw [MacContext.finish_eq]; rfl
  refine ⟨_, hx, fun hspec => ?_, fun hany j hj => ?_, exec_memoryKeptOutside hm hx, s.mac.finish_eq,
    State.finish_completesWith .polyFinish _ s, State.finish_keepsRegisters _ _ s⟩
  · rw [← hmac]
    exact h.polyFinish_bytes hm hspec hx rfl
  · have hout : (bodyOf .polyFinish s).out = freeBytes s.draw .output s.x.dst.toNat 16 := State.finishTag_of_any hany
    have hread := h.finish_read hm (bodyOf .polyFinish s) (j := j) (by simp [hout, hj])
    simp only [hout, freeBytes_getElem _ _ _ _ _ hj] at hread
    exact hread

end Sys2Proof.Proofs
end

section
/-! PROOFS. Streaming the MAC (42_poly1305.md R250, R260): an update with two strings one after the other is an update
with both, and finishing one update of a fresh context gives the one-shot function. -/

namespace Sys2Proof.Machine

/-! ### Cutting a string into blocks -/

theorem blocks16_add (p q : Nat) (m : List Byte) :
    blocks16 (p + q) m = blocks16 p m ++ blocks16 q (m.drop (16 * p)) := by
  simp only [blocks16_eq_map, List.range_add, List.map_append, List.map_map, List.drop_drop, Function.comp_def,
    Nat.mul_add]

/-- Bytes after the first q blocks are no part of them. -/
theorem blocks16_append {q : Nat} {m : List Byte} (h : 16 * q ≤ m.length) (d : List Byte) :
    blocks16 q (m ++ d) = blocks16 q m := by
  simp only [blocks16_eq_map]
  refine List.map_congr_left fun i hi => ?_
  have hi : i < q := List.mem_range.1 hi
  rw [List.drop_append_of_le_length (by omega), List.take_append_of_le_length (by rw [List.length_drop]; omega)]

/-- Absorbing the blocks of `m ++ d`: those of `m`, then those of its rest with `d`. -/
theorem absorbBlocks_append {p : Nat} {m : List Byte} (h : 16 * p ≤ m.length) (r : BitVec 128) (q : Nat)
    (d : List Byte) (acc : Nat) : absorbBlocks r (p + q) (m ++ d) acc =
      absorbBlocks r q (m.drop (16 * p) ++ d) (absorbBlocks r p m acc) := by
  simp only [absorbBlocks, blocks16_add, List.foldl_append, blocks16_append h, List.drop_append_of_le_length h]

/-! ### Updates -/

/-- Two updates are one update with both strings (42_poly1305.md R250). -/
theorem MacContext.update_update (c : MacContext) (d e : List Byte) :
    (c.update d).update e = c.update (d ++ e) := by
  have hq : 16 * ((c.buf ++ d).length / 16) ≤ (c.buf ++ d).length := Nat.mul_div_le _ _
  have hrest := List.drop_append_of_le_length (l₂ := e) hq
  have hcount : (c.buf ++ d ++ e).length / 16 = (c.buf ++ d).length / 16 +
      ((c.buf ++ d).drop (16 * ((c.buf ++ d).length / 16)) ++ e).length / 16 := by
    simp only [List.length_append, List.length_drop]
    omega
  simp only [MacContext.update, ← List.append_assoc, hcount, absorbBlocks_append hq, Nat.mul_add, ← List.drop_drop,
    hrest]

/-- A fresh context is its own update with no data. -/
theorem MacContext.init_update_nil (key : List Byte) : (MacContext.init key).update [] = MacContext.init key := by
  simp [MacContext.update, MacContext.init]

/-- Finishing one update of a fresh context with the whole message is the one-shot function (42_poly1305.md R261). -/
theorem MacContext.finish_tag_update_init (key m : List Byte) :
    ((MacContext.init key).update m).finish.tag = poly1305 key m := by
  simp [MacContext.tag, MacContext.finish, MacContext.update, MacContext.init, poly1305]

/-- A streaming computation is, in its context, one update with all its data (42_poly1305.md R260). -/
theorem MacStream.eq_update_init {key m : List Byte} {c : MacContext} (h : MacStream key c m) :
    c = (MacContext.init key).update m := by
  induction h with
  | init undisturbed runs ok =>
    rw [State.exec_ok_mac runs ok, undisturbed.polyInit_mac, MacContext.init_update_nil]
  | update before same undisturbed runs ok ih =>
    rw [State.exec_ok_mac runs ok, undisturbed.polyUpdate_mac, same, ih, MacContext.update_update]

end Sys2Proof.Machine
end

section
/-! PROOFS. The obligation about the chunking of a streaming MAC computation (42_poly1305.md R260, R261). -/

namespace Sys2Proof.Proofs

open Sys2Proof.Machine

/-- Settles O44: the context is one update with the whole message, whatever the chunks were. -/
theorem tagIndependentOfChunking : Obligations.TagIndependentOfChunking := by
  intro key m c s t hstream hc hm h hx he
  have hmac : s.mac = (MacContext.init key).update m := hc.trans hstream.eq_update_init
  rw [h.polyFinish_bytes hm (by rw [hmac]; rfl) hx he, hmac, MacContext.finish_tag_update_init]

end Sys2Proof.Proofs
end

section
/-! PROOFS. The limb realisation of the MAC (42_poly1305.md R262 to R265): the number that five limbs stand for,
followed through each of its operations, and the bounds that keep the carries small. -/

namespace Sys2Proof.Machine

/-! ### Words of a byte string -/

theorem le32word_toNat (b : List Byte) (i : Nat) : (le32word b i).toNat = leNat b / 256 ^ i % 2 ^ 32 := by
  rw [le32word, leNat_take, leNat_drop, BitVec.toNat_ofNat]
  exact Nat.mod_mod _ _

/-- A shifted and masked word is a masked piece of the string's number. -/
theorem le32word_shift_mask (b : List Byte) (i : Nat) {s n : Nat} {mask : Word} (hs : s + n ≤ 32)
    (hmask : mask.toNat < 2 ^ n) :
    ((le32word b i >>> s) &&& mask).toNat = (leNat b / 2 ^ (8 * i + s) % 2 ^ n) &&& mask.toNat := by
  have h256 : (256 : Nat) ^ i = 2 ^ (8 * i) := by rw [Nat.pow_mul]
  refine Nat.eq_of_testBit_eq fun j => ?_
  simp only [BitVec.toNat_and, BitVec.toNat_ushiftRight, le32word_toNat, h256, Nat.testBit_and, Nat.testBit_shiftRight,
    Nat.testBit_mod_two_pow, Nat.testBit_div_two_pow]
  by_cases hj : j < n
  · simp [hj, show s + j < 32 by omega, show s + j + 8 * i = j + (8 * i + s) by omega]
  · simp [Nat.testBit_eq_false_of_lt (hmask.trans_le (Nat.pow_le_pow_right (by decide) (Nat.le_of_not_lt hj)))]

/-- Writing a string's number gives the string back (00_scope.md R15). -/
theorem leBytes_leNat (b : List Byte) : leBytes b.length (leNat b) = b := by
  induction b with
  | nil => rfl
  | cons x b ih =>
    have hx := x.isLt
    rw [List.length_cons, leBytes, leNat, show (x.toNat + 256 * leNat b) / 256 = leNat b by omega, ih]
    congr 1
    exact BitVec.eq_of_toNat_eq (by rw [BitVec.toNat_ofNat]; omega)

/-- A string is determined by its number and its length (00_scope.md R15). -/
theorem eq_of_leNat_eq {a b : List Byte} (hlen : a.length = b.length) (h : leNat a = leNat b) : a = b := by
  rw [← leBytes_leNat a, ← leBytes_leNat b, hlen, h]

/-! ### Numbers in 26-bit pieces -/

/-- The low 128 bits of a number in 26-bit radix. -/
def limbsOf (n : Nat) : Limbs where
  l0 := n % 2 ^ 26
  l1 := n / 2 ^ 26 % 2 ^ 26
  l2 := n / 2 ^ 52 % 2 ^ 26
  l3 := n / 2 ^ 78 % 2 ^ 26
  l4 := n / 2 ^ 104 % 2 ^ 24

/-- Limb by limb and. -/
def Limbs.and (h g : Limbs) : Limbs := ⟨h.l0 &&& g.l0, h.l1 &&& g.l1, h.l2 &&& g.l2, h.l3 &&& g.l3, h.l4 &&& g.l4⟩

/-- Every limb is below `n`. -/
def Limbs.Below (n : Nat) (h : Limbs) : Prop := h.l0 < n ∧ h.l1 < n ∧ h.l2 < n ∧ h.l3 < n ∧ h.l4 < n

theorem Limbs.value_eq_horner (h : Limbs) :
    h.value = 2 ^ 26 * (2 ^ 26 * (2 ^ 26 * (2 ^ 26 * h.l4 + h.l3) + h.l2) + h.l1) + h.l0 := by
  rw [Limbs.value]
  omega

theorem limbsOf_value (n : Nat) : (limbsOf n).value = n % 2 ^ 128 := by
  simp only [limbsOf, Limbs.value]
  omega

theorem limbsOf_below (n : Nat) : (limbsOf n).Below (2 ^ 26) := by
  simp only [limbsOf, Limbs.Below]
  omega

/-- And of two numbers, by a low piece of each and the rest. -/
theorem and_two_pow_mul_add {i a c : Nat} (b d : Nat) (ha : a < 2 ^ i) (hc : c < 2 ^ i) :
    (2 ^ i * b + a) &&& (2 ^ i * d + c) = 2 ^ i * (b &&& d) + (a &&& c) := by
  refine Nat.eq_of_testBit_eq fun j => ?_
  simp only [Nat.testBit_and, Nat.testBit_two_pow_mul_add _ ha, Nat.testBit_two_pow_mul_add _ hc,
    Nat.testBit_two_pow_mul_add _ (Nat.and_lt_two_pow a hc)]
  split <;> rfl

theorem Limbs.and_value {h g : Limbs} (hh : h.Below (2 ^ 26)) (hg : g.Below (2 ^ 26)) :
    (h.and g).value = h.value &&& g.value := by
  obtain ⟨h0, h1, h2, h3, -⟩ := hh
  obtain ⟨g0, g1, g2, g3, -⟩ := hg
  simp only [Limbs.value_eq_horner, and_two_pow_mul_add _ _ h0 g0, and_two_pow_mul_add _ _ h1 g1,
    and_two_pow_mul_add _ _ h2 g2, and_two_pow_mul_add _ _ h3 g3, Limbs.and]

theorem Limbs.Below.and {h : Limbs} {n : Nat} (hh : h.Below n) (g : Limbs) : (h.and g).Below n := by
  obtain ⟨h0, h1, h2, h3, h4⟩ := hh
  exact ⟨Nat.and_le_left.trans_lt h0, Nat.and_le_left.trans_lt h1, Nat.and_le_left.trans_lt h2,
    Nat.and_le_left.trans_lt h3, Nat.and_le_left.trans_lt h4⟩

/-! ### Loading the key and a block -/

/-- The masks of R263 are the pieces of the clamp mask of R241. -/
theorem limbR_eq (k : List Byte) : limbR k = (limbsOf (leNat k)).and (limbsOf clampMask.toNat) := by
  have h0 := le32word_shift_mask k 0 (s := 0) (n := 26) (mask := 0x3ffffff#32) (by decide) (by decide)
  have h1 := le32word_shift_mask k 3 (s := 2) (n := 26) (mask := 0x3ffff03#32) (by decide) (by decide)
  have h2 := le32word_shift_mask k 6 (s := 4) (n := 26) (mask := 0x3ffc0ff#32) (by decide) (by decide)
  have h3 := le32word_shift_mask k 9 (s := 6) (n := 26) (mask := 0x3f03fff#32) (by decide) (by decide)
  have h4 := le32word_shift_mask k 12 (s := 8) (n := 24) (mask := 0x00fffff#32) (by decide) (by decide)
  rw [BitVec.ushiftRight_zero] at h0
  rw [limbR, h0, h1, h2, h3, h4]
  simp [limbsOf, Limbs.and, clampMask]

theorem limbR_value (k : List Byte) : (limbR k).value = (keyR k).toNat := by
  rw [limbR_eq, Limbs.and_value (limbsOf_below _) (limbsOf_below _), limbsOf_value, limbsOf_value, keyR,
    BitVec.toNat_and, BitVec.toNat_ofNat, leNat_take, Nat.mod_eq_of_lt clampMask.isLt]
  congr 1
  exact (Nat.mod_mod _ _).symm

theorem limbR_below (k : List Byte) : (limbR k).Below (2 ^ 26) := limbR_eq k ▸ (limbsOf_below _).and _

/-- A word masked to 26 bits is a piece of the string's number. -/
theorem le32word_shift_low (b : List Byte) (i : Nat) {s : Nat} (hs : s ≤ 6) :
    ((le32word b i >>> s) &&& 0x3ffffff#32).toNat = leNat b / 2 ^ (8 * i + s) % 2 ^ 26 := by
  rw [le32word_shift_mask b i (n := 26) (by omega) (by decide)]
  exact (Nat.and_two_pow_sub_one_eq_mod _ 26).trans (Nat.mod_mod _ _)

/-- A block is added piece by piece; `hibit` is bit 24 of the top limb, or nothing. -/
theorem limbAdd_eq (h : Limbs) (b : List Byte) (c : Nat) : limbAdd h b (2 ^ 24 * c) =
    let n := limbsOf (leNat b)
    ⟨h.l0 + n.l0, h.l1 + n.l1, h.l2 + n.l2, h.l3 + n.l3, h.l4 + (2 ^ 24 * c + n.l4)⟩ := by
  have h0 := le32word_shift_low b 0 (s := 0) (by decide)
  have h4 : (le32word b 12 >>> 8).toNat = leNat b / 2 ^ 104 % 2 ^ 24 := by
    rw [BitVec.toNat_ushiftRight, le32word_toNat, Nat.shiftRight_eq_div_pow]
    omega
  rw [BitVec.ushiftRight_zero] at h0
  rw [limbAdd, h0, le32word_shift_low b 3 (by decide), le32word_shift_low b 6 (by decide),
    le32word_shift_low b 9 (by decide), h4, Nat.lor_comm, ← Nat.two_pow_add_eq_or_of_lt (Nat.mod_lt _ (by decide))]
  simp [limbsOf]

theorem limbAdd_value (h : Limbs) {b : List Byte} (hb : b.length ≤ 16) (c : Nat) :
    (limbAdd h b (2 ^ 24 * c)).value = h.value + (leNat b + 2 ^ 128 * c) := by
  have hlt : leNat b < 2 ^ 128 := (leNat_lt b).trans_le (Nat.pow_le_pow_right (by decide) hb)
  have hn := limbsOf_value (leNat b)
  rw [Nat.mod_eq_of_lt hlt] at hn
  simp only [limbAdd_eq, Limbs.value] at hn ⊢
  omega

/-! ### Product and carries -/

/-- What a carry leaves: limb 1 may keep the last carry, which no limb takes on (42_poly1305.md R265). -/
def Limbs.Carried (h : Limbs) : Prop :=
  h.l0 < 2 ^ 26 ∧ h.l1 < 2 ^ 27 ∧ h.l2 < 2 ^ 26 ∧ h.l3 < 2 ^ 26 ∧ h.l4 < 2 ^ 26

/-- One limb of a product. -/
def Limbs.dot (h g : Limbs) : Nat := h.l0 * g.l0 + h.l1 * g.l1 + h.l2 * g.l2 + h.l3 * g.l3 + h.l4 * g.l4

theorem limbProduct_eq (h r : Limbs) : limbProduct h r =
    { l0 := h.dot ⟨r.l0, 5 * r.l4, 5 * r.l3, 5 * r.l2, 5 * r.l1⟩
      l1 := h.dot ⟨r.l1, r.l0, 5 * r.l4, 5 * r.l3, 5 * r.l2⟩
      l2 := h.dot ⟨r.l2, r.l1, r.l0, 5 * r.l4, 5 * r.l3⟩
      l3 := h.dot ⟨r.l3, r.l2, r.l1, r.l0, 5 * r.l4⟩
      l4 := h.dot ⟨r.l4, r.l3, r.l2, r.l1, r.l0⟩ } := rfl

theorem Limbs.Below.dot_lt {h g : Limbs} (hh : h.Below (2 ^ 28)) (hg : g.Below (2 ^ 29)) : h.dot g < 2 ^ 60 := by
  obtain ⟨h0, h1, h2, h3, h4⟩ := hh
  obtain ⟨g0, g1, g2, g3, g4⟩ := hg
  have m0 := Nat.mul_le_mul h0.le g0.le
  have m1 := Nat.mul_le_mul h1.le g1.le
  have m2 := Nat.mul_le_mul h2.le g2.le
  have m3 := Nat.mul_le_mul h3.le g3.le
  have m4 := Nat.mul_le_mul h4.le g4.le
  rw [Limbs.dot]
  omega

theorem limbProduct_below {h r : Limbs} (hh : h.Below (2 ^ 28)) (hr : r.Below (2 ^ 26)) :
    (limbProduct h r).Below (2 ^ 60) := by
  obtain ⟨r0, r1, r2, r3, r4⟩ := hr
  rw [limbProduct_eq]
  refine ⟨hh.dot_lt ?_, hh.dot_lt ?_, hh.dot_lt ?_, hh.dot_lt ?_, hh.dot_lt ?_⟩ <;> simp only [Limbs.Below] <;> omega

/-- The part of a product that the five-fold limbs fold back: the terms of 2^130 and up, divided by 2^130. -/
def limbFolded (h r : Limbs) : Nat :=
  (h.l1 * r.l4 + h.l2 * r.l3 + h.l3 * r.l2 + h.l4 * r.l1) + 2 ^ 26 * (h.l2 * r.l4 + h.l3 * r.l3 + h.l4 * r.l2) +
    2 ^ 52 * (h.l3 * r.l4 + h.l4 * r.l3) + 2 ^ 78 * (h.l4 * r.l4)

/-- Since 2^130 is 5 modulo p130, the product's limbs stand for the product (42_poly1305.md R263). -/
theorem limbProduct_value (h r : Limbs) : (limbProduct h r).value ≡ h.value * r.value [MOD p130] := by
  have hterms : h.value * r.value + 5 * limbFolded h r = (limbProduct h r).value + 2 ^ 130 * limbFolded h r := by
    simp only [Limbs.value, limbProduct, limbFolded]
    ring
  have hfold : h.value * r.value = (limbProduct h r).value + p130 * limbFolded h r := by
    rw [show 2 ^ 130 = p130 + 5 from rfl, Nat.add_mul] at hterms
    omega
  rw [hfold]
  exact (Nat.add_mul_mod_self_left _ _ _).symm

/-- A carry chain takes the number of 2^130s from the top and brings it back five-fold. -/
theorem limbCarry_value (d : Limbs) : (limbCarry d).value + p130 * (d.value / 2 ^ 130) = d.value := by
  simp only [limbCarry, limbLow, limbHigh, Limbs.value, p130]
  omega

theorem limbCarry_carried {d : Limbs} (h : d.Below (2 ^ 60)) : (limbCarry d).Carried := by
  simp only [Limbs.Below] at h
  simp only [Limbs.Carried, limbCarry, limbLow, limbHigh]
  omega

/-! ### Finish -/

theorem limbFullCarry_value {h : Limbs} (hh : h.Carried) :
    (limbFullCarry h).value + p130 * (h.value / 2 ^ 130) = h.value := by
  simp only [Limbs.Carried] at hh
  simp only [limbFullCarry, limbLow, limbHigh, Limbs.value, p130]
  omega

/-- After the full carry the number is below 2^130: limb 1 takes a last carry only when the limbs above it are 0. -/
theorem limbFullCarry_lt {h : Limbs} (hh : h.Carried) : (limbFullCarry h).value < 2 ^ 130 := by
  simp only [Limbs.Carried] at hh
  simp only [limbFullCarry, limbLow, limbHigh, Limbs.value]
  omega

/-- Below 2^130 one subtraction of p130 is enough, and g's top limb says whether it is due (42_poly1305.md R264). -/
theorem limbCanonical_value {h : Limbs} (hh : h.value < 2 ^ 130) : (limbCanonical h).value = h.value % p130 := by
  unfold limbCanonical
  extract_lets g0 g1 g2 g3 g4
  have hg4 : g4 = (h.value + 5) / 2 ^ 104 := by
    simp only [g4, g3, g2, g1, g0, limbHigh, Limbs.value]
    omega
  split
  · next hge =>
    simp only [Limbs.value, limbLow, g4, g3, g2, g1, g0, limbHigh, p130] at hh hge ⊢
    omega
  · next hlt =>
    rw [Nat.mod_eq_of_lt]
    simp only [p130]
    omega

/-! ### The tag -/

/-- The number of four 32-bit words. -/
def fourWords (w : Nat → Nat) : Nat := w 0 + 2 ^ 32 * w 1 + 2 ^ 64 * w 2 + 2 ^ 96 * w 3

theorem fourWords_of (n : Nat) : fourWords (fun i => n / 2 ^ (32 * i) % 2 ^ 32) = n % 2 ^ 128 := by
  simp only [fourWords]
  omega

/-- Adding word by word, each carry into the next word and the last one dropped, adds modulo 2^128. -/
theorem leNat_carriedWords (a b : Nat → Nat) :
    let f0 := a 0 + b 0
    let f1 := a 1 + b 1 + f0 / 2 ^ 32
    let f2 := a 2 + b 2 + f1 / 2 ^ 32
    let f3 := a 3 + b 3 + f2 / 2 ^ 32
    leNat (leBytes 4 f0 ++ leBytes 4 f1 ++ leBytes 4 f2 ++ leBytes 4 f3) = (fourWords a + fourWords b) % 2 ^ 128 := by
  simp only [leNat_append, leNat_leBytes, leBytes_length, List.length_append, fourWords]
  omega

theorem keyPad_toNat (k : List Byte) : (keyPad k).toNat = fourWords fun i => (le32word k (16 + 4 * i)).toNat := by
  have hpow (i : Nat) : 256 ^ (16 + 4 * i) = 2 ^ 128 * 2 ^ (32 * i) := by
    rw [Nat.pow_add, Nat.pow_mul, Nat.pow_mul]
    rfl
  simp only [le32word_toNat, hpow, ← Nat.div_div_eq_div_mul, fourWords_of]
  rw [keyPad, BitVec.toNat_ofNat, leNat_take, leNat_drop]
  exact Nat.mod_mod _ _

/-- The tag words are those of the sum with the pad (42_poly1305.md R244). -/
theorem limbTagWords_eq (h : Limbs) (k : List Byte) : limbTagWords h k = tagOf h.value (keyPad k) := by
  refine eq_of_leNat_eq (by simp [limbTagWords]) ?_
  have hsum := leNat_carriedWords (fun i => h.value / 2 ^ (32 * i) % 2 ^ 32) fun i => (le32word k (16 + 4 * i)).toNat
  rw [fourWords_of, ← keyPad_toNat, Nat.mod_add_mod] at hsum
  rw [tagOf, leNat_leBytes]
  exact hsum.trans (Nat.mod_mod _ _).symm

/-! ### The accumulator in limbs -/

/-- The limbs are carried and stand for the accumulator modulo p130. -/
def Limbs.Represents (h : Limbs) (acc : Nat) : Prop := h.Carried ∧ h.value % p130 = acc

theorem limbAdd_below {h : Limbs} (hh : h.Carried) (b : List Byte) {c : Nat} (hc : c ≤ 1) :
    (limbAdd h b (2 ^ 24 * c)).Below (2 ^ 28) := by
  obtain ⟨n0, n1, n2, n3, n4⟩ := limbsOf_below (leNat b)
  obtain ⟨h0, h1, h2, h3, h4⟩ := hh
  simp only [limbAdd_eq, Limbs.Below]
  omega

/-- A block in limbs is a block absorbed (42_poly1305.md R243, R263), with 2^128 (`c = 1`) or without. -/
theorem Limbs.Represents.block {h : Limbs} {acc : Nat} (hh : h.Represents acc) (k : List Byte) {b : List Byte}
    (hb : b.length ≤ 16) {c : Nat} (hc : c ≤ 1) :
    (limbBlock (limbR k) h b (2 ^ 24 * c)).Represents (absorb (keyR k) acc (leNat b + 2 ^ 128 * c)) := by
  obtain ⟨hcarried, rfl⟩ := hh
  refine ⟨limbCarry_carried (limbProduct_below (limbAdd_below hcarried b hc) (limbR_below k)), ?_⟩
  have hcarry := limbCarry_value (limbProduct (limbAdd h b (2 ^ 24 * c)) (limbR k))
  calc (limbBlock (limbR k) h b (2 ^ 24 * c)).value % p130
      = (limbProduct (limbAdd h b (2 ^ 24 * c)) (limbR k)).value % p130 := by
        rw [← hcarry, Nat.add_mul_mod_self_left]
        rfl
    _ = (h.value + (leNat b + 2 ^ 128 * c)) * (keyR k).toNat % p130 := by
        rw [limbProduct_value, limbAdd_value h hb, limbR_value]
    _ = absorb (keyR k) (h.value % p130) (leNat b + 2 ^ 128 * c) := by
        rw [absorb, Nat.mul_mod, Nat.mul_mod (_ % p130 + _), Nat.mod_add_mod]

theorem Limbs.Represents.fullBlock {h : Limbs} {acc : Nat} (hh : h.Represents acc) (k : List Byte) {b : List Byte}
    (hb : b.length ≤ 16) : (limbBlock (limbR k) h b (2 ^ 24)).Represents (absorb (keyR k) acc (fullBlockValue b)) :=
  hh.block k hb (c := 1) le_rfl

theorem Limbs.Represents.partialBlock {h : Limbs} {acc : Nat} (hh : h.Represents acc) (k : List Byte) {b : List Byte}
    (hb : b.length ≤ 15) : (limbBlock (limbR k) h (b ++ 0x01#8 :: List.replicate (15 - b.length) 0#8) 0).Represents
      (absorb (keyR k) acc (partialBlockValue b)) :=
  hh.block k (by simp; omega) (c := 0) (Nat.zero_le 1)

theorem limbBlocks_succ (r : Limbs) (q : Nat) (m : List Byte) (h : Limbs) :
    limbBlocks r (q + 1) m h = limbBlocks r q (m.drop 16) (limbBlock r h (m.take 16) (2 ^ 24)) := by
  rw [limbBlocks, blocks16, List.foldl_cons, limbBlocks]

theorem Limbs.Represents.blocks {h : Limbs} {acc : Nat} (hh : h.Represents acc) (k : List Byte) (q : Nat)
    (m : List Byte) : (limbBlocks (limbR k) q m h).Represents (absorbBlocks (keyR k) q m acc) := by
  induction q generalizing m h acc with
  | zero => exact hh
  | succ q ih =>
    rw [limbBlocks_succ, absorbBlocks_succ]
    exact ih (hh.fullBlock k (by simp)) _

/-- The finish gives the accumulator's tag (42_poly1305.md R244, R263). -/
theorem Limbs.Represents.tag {h : Limbs} {acc : Nat} (hh : h.Represents acc) (k : List Byte) :
    limbTagWords (limbCanonical (limbFullCarry h)) k = tagOf acc (keyPad k) := by
  obtain ⟨hcarried, rfl⟩ := hh
  rw [limbTagWords_eq, limbCanonical_value (limbFullCarry_lt hcarried), ← limbFullCarry_value hcarried,
    Nat.add_mul_mod_self_left]

end Sys2Proof.Machine
end

section
/-! PROOFS. The obligation about the limb realisation of the MAC (42_poly1305.md R263). -/

namespace Sys2Proof.Proofs

open Sys2Proof.Machine

/-- Settles O45: the limbs represent the accumulator at the start, after every block and after the padded rest, and the
finish gives the represented accumulator's tag. -/
theorem limbRealisationConforms : Obligations.LimbRealisationConforms := by
  intro key m
  have hzero : Limbs.Represents ⟨0, 0, 0, 0, 0⟩ 0 := by
    simp [Limbs.Represents, Limbs.Carried, Limbs.value]
  have hblocks := hzero.blocks key (m.length / 16) m
  unfold limbPoly1305 poly1305
  extract_lets r q h tail h' acc
  refine Limbs.Represents.tag ?_ key
  simp only [h']
  split
  · exact hblocks
  · exact hblocks.partialBlock key (by simp only [tail, q, List.length_drop]; omega)

end Sys2Proof.Proofs
end

section
/-! PROOFS. What AEAD_SEAL and AEAD_OPEN write (43_aead.md R290 to R297): the output string of each, a function of the
operand strings, and when their checks pass. -/

namespace Sys2Proof.Machine

/-! ### The payload cipher (43_aead.md R292) -/

theorem payloadXor_getD {key nonce p : List Byte} {j : Nat} (hj : j < p.length) : (payloadXor key nonce p).getD j 0 =
    p.getD j 0 ^^^ (chachaBlock key (1#32 + BitVec.ofNat 32 (j / 64)) nonce).getD (j % 64) 0 :=
  xorBytes_keystream_getD rfl hj

/-- Encryption and decryption are the same function (43_aead.md R292). -/
theorem payloadXor_payloadXor (key nonce p : List Byte) : payloadXor key nonce (payloadXor key nonce p) = p := by
  rw [payloadXor, payloadXor_length]
  exact xorBytes_xorBytes_cancel (by simp)

/-- One keystream byte over two bytes keeps their difference (43_aead.md R299). -/
theorem xor_xor_xor_cancel_right (a b k : Byte) : (a ^^^ k) ^^^ (b ^^^ k) = a ^^^ b := by
  rw [BitVec.xor_comm b k, BitVec.xor_assoc, ← BitVec.xor_assoc k k b, BitVec.xor_self, BitVec.zero_xor]

/-! ### The authenticated string (43_aead.md R291) -/

/-- The zero buffer is long enough for every padding. -/
theorem padded_eq (b : List Byte) : padded b = b ++ List.replicate ((16 - b.length % 16) % 16) 0#8 := by
  have hpad : pad16 b.length ≤ 16 := (Nat.mod_lt _ (by decide)).le
  rw [padded, zeroBuffer, List.take_replicate, Nat.min_eq_left hpad, pad16]

theorem macData_eq (a c : List Byte) : macData a c =
    a ++ List.replicate ((16 - a.length % 16) % 16) 0#8 ++ c ++ List.replicate ((16 - c.length % 16) % 16) 0#8 ++
      leBytes 8 a.length ++ leBytes 8 c.length := by
  simp only [macData, padded_eq, List.append_assoc]

/-! ### The checks (40_command.md R164 to R166) -/

theorem State.preCheck_aeadSeal_eq_none (s : State) :
    s.preCheck .aeadSeal = none ↔ s.x.len.toNat ≤ 0xFFFFFFEE ∧
      inRange s.params (rangeAt s.x.dst (s.x.len.toNat + 16)) = true ∧
      inRange s.params (rangeAt s.x.src s.x.len.toNat) = true ∧
      inRange s.params (rangeAt s.x.key 32) = true ∧ inRange s.params (rangeAt s.x.nonce 12) = true ∧
      inRange s.params (rangeAt s.x.aad s.x.aadLen.toNat) = true ∧
      overlap (rangeAt s.x.src s.x.len.toNat) (rangeAt s.x.dst (s.x.len.toNat + 16)) = false ∧
      intersect (rangeAt s.x.aad s.x.aadLen.toNat) (rangeAt s.x.dst (s.x.len.toNat + 16)) = false := by
  simp only [s.preCheck_eq_none, sequenceOk, lengthOk, rangesOk, overlapOk, outputRange, inputRanges, List.all_cons,
    List.all_nil, Bool.and_eq_true, decide_eq_true_eq, Bool.not_eq_true', true_and, and_true, and_assoc]

theorem State.preCheck_aeadOpen_eq_none (s : State) :
    s.preCheck .aeadOpen = none ↔ 16 ≤ s.x.len.toNat ∧
      inRange s.params (rangeAt s.x.dst (s.x.len.toNat - 16)) = true ∧
      inRange s.params (rangeAt s.x.src s.x.len.toNat) = true ∧
      inRange s.params (rangeAt s.x.key 32) = true ∧ inRange s.params (rangeAt s.x.nonce 12) = true ∧
      overlap (rangeAt s.x.src s.x.len.toNat) (rangeAt s.x.dst (s.x.len.toNat - 16)) = false := by
  simp only [s.preCheck_eq_none, sequenceOk, lengthOk, rangesOk, overlapOk, outputRange, inputRanges, List.all_cons,
    List.all_nil, Bool.and_eq_true, decide_eq_true_eq, Bool.not_eq_true', true_and, and_true, and_assoc]

/-! ### RESULT and the output strings (30_encoding.md R134, 43_aead.md R294, R297) -/

theorem State.exec_ok_result {i : Instr} {s t : State} (h : exec i s = .next t) (he : t.err = .ok) :
    t.result = successResult i s.x := by
  obtain ⟨-, -, rfl⟩ := State.finish_of_exec_ok h he
  rfl

/-- AEAD_SEAL's operands are memory's bytes. -/
theorem State.Undisturbed.aeadSeal_out {s : State} (h : s.Undisturbed .aeadSeal) :
    (bodyOf .aeadSeal s).out = sealBytes (s.mem.bytes s.x.key.toNat 32) (s.mem.bytes s.x.nonce.toNat 12)
      (s.mem.bytes s.x.aad.toNat s.x.aadLen.toNat) (s.mem.bytes s.x.src.toNat s.x.len.toNat) := by
  simp only [bodyOf, aeadSealBody]
  rw [h.readOperand, h.readOperand, h.readOperand, h.readOperand]
  · rfl
  all_goals simp [accessedRanges, readRanges]

/-- AEAD_OPEN's operands are memory's bytes, the tag not among them. -/
theorem State.Undisturbed.aeadOpen_out {s : State} (h : s.Undisturbed .aeadOpen) :
    (bodyOf .aeadOpen s).out = payloadXor (s.mem.bytes s.x.key.toNat 32) (s.mem.bytes s.x.nonce.toNat 12)
      (s.mem.bytes s.x.src.toNat (s.x.len.toNat - 16)) := by
  simp only [bodyOf, aeadOpenBody]
  rw [h.readOperand, h.readOperand, h.readOperand]
  · rfl
  all_goals simp [accessedRanges, readRanges]

section
variable {s t : State} (h : s.Undisturbed .aeadSeal) (hm : s.mem.wf) (hx : exec .aeadSeal s = .next t)
  (he : t.err = .ok)
include h hm hx he

theorem State.Undisturbed.aeadSeal_bytes : t.mem.bytes s.x.dst.toNat (s.x.len.toNat + 16) =
    sealBytes (s.mem.bytes s.x.key.toNat 32) (s.mem.bytes s.x.nonce.toNat 12)
      (s.mem.bytes s.x.aad.toNat s.x.aadLen.toNat) (s.mem.bytes s.x.src.toNat s.x.len.toNat) :=
  (h.exec_ok_bytes hm hx he).trans h.aeadSeal_out

/-- The first n output bytes are the ciphertext. -/
theorem State.Undisturbed.aeadSeal_ciphertext : t.mem.bytes s.x.dst.toNat s.x.len.toNat =
    payloadXor (s.mem.bytes s.x.key.toNat 32) (s.mem.bytes s.x.nonce.toNat 12)
      (s.mem.bytes s.x.src.toNat s.x.len.toNat) := by
  rw [← Memory.take_bytes _ _ _ 16, h.aeadSeal_bytes hm hx he, sealBytes]
  exact List.take_left' (by simp)

/-- The 16 bytes after them are the tag over the ciphertext written. -/
theorem State.Undisturbed.aeadSeal_tag : t.mem.bytes (s.x.dst.toNat + s.x.len.toNat) 16 =
    poly1305 (oneTimeKey (s.mem.bytes s.x.key.toNat 32) (s.mem.bytes s.x.nonce.toNat 12))
      (macData (s.mem.bytes s.x.aad.toNat s.x.aadLen.toNat) (t.mem.bytes s.x.dst.toNat s.x.len.toNat)) := by
  rw [h.aeadSeal_ciphertext hm hx he, ← Memory.drop_bytes, h.aeadSeal_bytes hm hx he, sealBytes]
  exact List.drop_left' (by simp)

end

section
variable {s t : State} (h : s.Undisturbed .aeadOpen) (hm : s.mem.wf) (hx : exec .aeadOpen s = .next t)
  (he : t.err = .ok)
include h hm hx he

theorem State.Undisturbed.aeadOpen_bytes : t.mem.bytes s.x.dst.toNat (s.x.len.toNat - 16) =
    payloadXor (s.mem.bytes s.x.key.toNat 32) (s.mem.bytes s.x.nonce.toNat 12)
      (s.mem.bytes s.x.src.toNat (s.x.len.toNat - 16)) :=
  (h.exec_ok_bytes hm hx he).trans h.aeadOpen_out

/-- Output byte j is input byte j xor the keystream from block counter 1 (43_aead.md R297). -/
theorem State.Undisturbed.aeadOpen_read {j : Nat} (hj : j < s.x.len.toNat - 16) :
    t.mem.read (s.x.dst.toNat + j) = s.mem.read (s.x.src.toNat + j) ^^^
      (chachaBlock (s.mem.bytes s.x.key.toNat 32) (1#32 + BitVec.ofNat 32 (j / 64))
        (s.mem.bytes s.x.nonce.toNat 12)).getD (j % 64) 0 := by
  rw [← Memory.bytes_getD _ _ hj, h.aeadOpen_bytes hm hx he, payloadXor_getD (by simpa using hj),
    Memory.bytes_getD _ _ hj]

end

end Sys2Proof.Machine
end

section
/-! PROOFS. The obligations about AEAD_SEAL and AEAD_OPEN (43_aead.md R290 to R299). -/

namespace Sys2Proof.Proofs

open Sys2Proof.Machine

/-- Settles O42: the context is the one component in which the two runs may differ, and each run keeps its own. -/
theorem aeadIsolatesMacContext : Obligations.AeadIsolatesMacContext := by
  intro i s t hi hu hf ht
  obtain rfl := eq_runCommand_of_exec ht
  have hkeeps (u : State) : (u.runCommand i (bodyOf i)).mac = u.mac := by
    by_contra hne
    exact (State.runCommand_mac hne).elim hi fun h => h.elim hu hf
  refine ⟨hkeeps s, fun m => ?_⟩
  obtain ⟨c, hc⟩ := State.runCommand_withMac_of_ne hu hf s m
  obtain rfl : c = m := (congrArg State.mac hc).symm.trans (hkeeps _)
  rw [exec_eq, hc]

/-- Settles O36: the hypotheses are the command's checks, so it finishes its body; the output string is the ciphertext,
then its tag. -/
theorem aeadSealResult : Obligations.AeadSealResult := by
  intro s hm h hlen hsrc hdst hkey hnonce haad hover hinter n key nonce aad zeros
  have hx := h.exec_eq_finish (s.preCheck_aeadSeal_eq_none.2 ⟨hlen, hdst, hsrc, hkey, hnonce, haad, hover, hinter⟩)
  have hcipher := h.aeadSeal_ciphertext hm hx rfl
  have htag := h.aeadSeal_tag hm hx rfl
  refine ⟨_, hx, fun j hj => ?_, ?_, exec_memoryKeptOutside hm hx, State.finish_completesWith .aeadSeal _ s, rfl,
    State.finish_keepsRegisters _ _ s⟩
  · rw [← Memory.bytes_getD _ _ hj, hcipher, payloadXor_getD (by simpa using hj), Memory.bytes_getD _ _ hj]
  · rw [htag, macData_eq, Memory.bytes_length _ s.x.dst.toNat]
    rfl

/-- Settles O37: the hypotheses are the command's checks, so it finishes its body, which reads no tag byte. -/
theorem aeadOpenResult : Obligations.AeadOpenResult := by
  intro s hm h hlen hsrc hdst hkey hnonce hover
  have hx := h.exec_eq_finish (s.preCheck_aeadOpen_eq_none.2 ⟨hlen, hdst, hsrc, hkey, hnonce, hover⟩)
  exact ⟨_, hx, fun j hj => h.aeadOpen_read hm hx rfl hj, exec_memoryKeptOutside hm hx,
    State.finish_completesWith .aeadOpen _ s, rfl, State.finish_keepsRegisters _ _ s⟩

/-- Settles O48: the length check keeps n + 16 a word, so AEAD_OPEN's input is the ciphertext and the tag, and the payload
cipher undoes itself. -/
theorem openAfterSealRestoresPlaintext : Obligations.OpenAfterSealRestoresPlaintext := by
  intro s t u v hms hs hst ht hmu hu hlen hinput hkey hnonce huv hv
  obtain ⟨hseal, -, -⟩ := State.finish_of_exec_ok hst ht
  obtain ⟨hn, -⟩ := s.preCheck_aeadSeal_eq_none.1 hseal
  rw [State.exec_ok_result hst ht, successResult] at hlen
  have hL : u.x.len.toNat = s.x.len.toNat + 16 := by bv_omega
  have hsrc : u.mem.bytes u.x.src.toNat s.x.len.toNat = t.mem.bytes s.x.dst.toNat s.x.len.toNat := by
    rw [← Memory.take_bytes _ _ _ 16, ← hL, hinput, Memory.take_bytes]
  have hout := hu.aeadOpen_bytes hmu huv hv
  rw [hL, Nat.add_sub_cancel, hsrc, hs.aeadSeal_ciphertext hms hst ht, hkey, hnonce, payloadXor_payloadXor] at hout
  refine ⟨hout, ?_⟩
  rw [State.exec_ok_result huv hv, successResult, hlen, BitVec.add_sub_cancel]

/-- Settles O49: both outputs are xored with one keystream byte, which cancels. -/
theorem openIsTamperInsensitive : Obligations.OpenIsTamperInsensitive := by
  intro s t u v hms hmu hs hu hst huv ht hv hlen hkey hnonce
  refine ⟨?_, fun j hj => ?_⟩
  · rw [State.exec_ok_result hst ht, State.exec_ok_result huv hv, successResult, successResult, hlen]
  · rw [hs.aeadOpen_read hms hst ht hj, hu.aeadOpen_read hmu huv hv (hlen ▸ hj), hkey, hnonce,
      xor_xor_xor_cancel_right]

end Sys2Proof.Proofs
end

section
/-! PROOFS. Scalars, points and field elements of X25519 (44_x25519.md R340 to R347): the bits of a clamped scalar, what
the field operations read of their operands, and the ladder as a function of its point modulo p255 and of scalar bits
254 to 0 alone. -/

namespace Sys2Proof.Machine

/-! ### Clamping (44_x25519.md R344) -/

/-- Clamping changes bytes 0 and 31 only. -/
theorem clampScalar_getD {k : List Byte} (hk : k.length = 32) (j : Nat) :
    (clampScalar k).getD j 0#8 =
      if j = 0 then k.getD 0 0#8 &&& 0xF8#8
      else if j = 31 then (k.getD 31 0#8 &&& 0x7F#8) ||| 0x40#8
      else k.getD j 0#8 := by
  simp only [clampScalar, List.getD_eq_getElem?_getD, List.getElem?_modify]
  rcases eq_or_ne j 0 with rfl | h0
  · simp [hk]
  rcases eq_or_ne j 31 with rfl | h31
  · simp [hk]
  · simp [h0, h31, h0.symm, h31.symm]

theorem getLsbD_and_0xF8 (x : Byte) {i : Nat} (hi : i < 8) :
    (x &&& 0xF8#8).getLsbD i = if i < 3 then false else x.getLsbD i := by
  have hmask : ∀ i < 8, (0xF8#8).getLsbD i = decide (3 ≤ i) := by decide
  rw [BitVec.getLsbD_and, hmask i hi]
  rcases lt_or_ge i 3 with hlow | hhigh
  · simp [hlow]
  · simp [hhigh, Nat.not_lt.2 hhigh]

theorem getLsbD_and_0x7F_or_0x40 (x : Byte) {i : Nat} (hi : i < 8) :
    ((x &&& 0x7F#8) ||| 0x40#8).getLsbD i = if i = 7 then false else if i = 6 then true else x.getLsbD i := by
  have hclear : ∀ i < 8, (0x7F#8).getLsbD i = decide (i ≠ 7) := by decide
  have hset : ∀ i < 8, (0x40#8).getLsbD i = decide (i = 6) := by decide
  rw [BitVec.getLsbD_or, BitVec.getLsbD_and, hclear i hi, hset i hi]
  rcases eq_or_ne i 7 with rfl | h7
  · simp
  rcases eq_or_ne i 6 with rfl | h6
  · simp
  · simp [h7, h6]

/-- The bits of a clamped scalar: bits 0 to 2 and 255 cleared, bit 254 set, the rest its own. -/
theorem leNat_clampScalar_testBit {k : List Byte} (hk : k.length = 32) (b : Nat) :
    (leNat (clampScalar k)).testBit b =
      if b < 3 ∨ 255 ≤ b then false else if b = 254 then true else (leNat k).testBit b := by
  have hb : b % 8 < 8 := Nat.mod_lt _ (by decide)
  rw [leNat_testBit, leNat_testBit, clampScalar_getD hk]
  rcases eq_or_ne (b / 8) 0 with h0 | h0
  · have hclear : b % 8 < 3 ↔ b < 3 ∨ 255 ≤ b := by omega
    have hset : b ≠ 254 := by omega
    simp only [h0, if_true, getLsbD_and_0xF8 _ hb, hclear, if_neg hset]
  rcases eq_or_ne (b / 8) 31 with h31 | h31
  · have hclear : b % 8 = 7 ↔ b < 3 ∨ 255 ≤ b := by omega
    have hset : b % 8 = 6 ↔ b = 254 := by omega
    rw [if_neg h0, if_pos h31, h31, getLsbD_and_0x7F_or_0x40 _ hb]
    simp only [hclear, hset]
  rw [if_neg h0, if_neg h31]
  rcases lt_or_ge b 256 with hlow | hhigh
  · rw [if_neg (by omega), if_neg (by omega)]
  · rw [if_pos (by omega), List.getD_eq_default _ _ (by omega)]
    simp

/-! ### Field operations (44_x25519.md R340, R341) -/

theorem fAdd_congr {a a' b b' : Nat} (ha : a ≡ a' [MOD p255]) (hb : b ≡ b' [MOD p255]) : fAdd a b = fAdd a' b' :=
  ha.add hb

theorem fSub_congr {a a' b b' : Nat} (ha : a ≡ a' [MOD p255]) (hb : b ≡ b' [MOD p255]) : fSub a b = fSub a' b' := by
  have hneg : p255 - b % p255 = p255 - b' % p255 := congrArg (p255 - ·) hb
  rw [fSub, fSub, hneg]
  exact ha.add_right _

theorem fMul_congr {a a' b b' : Nat} (ha : a ≡ a' [MOD p255]) (hb : b ≡ b' [MOD p255]) : fMul a b = fMul a' b' :=
  ha.mul hb

/-- Squaring and multiplying computes the power. -/
theorem powMod_eq (m : Nat) {k e : Nat} (b : Nat) (he : e < 2 ^ k) : powMod m k b e = b ^ e % m := by
  induction k generalizing b e with
  | zero =>
    obtain rfl : e = 0 := by simpa using he
    rfl
  | succ k ih =>
    have hhalf : powMod m k (b * b % m) (e / 2) = b ^ (2 * (e / 2)) % m := by
      rw [ih _ (by omega), ← Nat.pow_mod, pow_mul, pow_two]
    rw [powMod, hhalf]
    split
    · rename_i hodd
      rw [Nat.mod_mul_mod, ← pow_succ, show 2 * (e / 2) + 1 = e by omega]
    · rw [show 2 * (e / 2) = e by omega]

theorem fInv_eq (z : Nat) : fInv z = z ^ (2 ^ 255 - 21) % (2 ^ 255 - 19) :=
  powMod_eq p255 z (by decide)

theorem fInv_congr {z z' : Nat} (h : z ≡ z' [MOD p255]) : fInv z = fInv z' := by
  rw [fInv_eq, fInv_eq]
  exact h.pow _

/-- `inv` is 0 at every multiple of p255 (44_x25519.md R341). -/
theorem fInv_of_dvd {z : Nat} (h : p255 ∣ z) : fInv z = 0 := by
  rw [fInv_eq]
  exact Nat.mod_eq_zero_of_dvd (dvd_pow h (by decide))

/-! ### The result (44_x25519.md R347) -/

theorem LadderState.encoded_eq (L : LadderState) :
    L.encoded = leBytes 32 ((L.x2 * fInv L.z2) % (2 ^ 255 - 19)) := rfl

/-- The number of the 32 bytes is the field element: nothing is lost to their length. -/
theorem LadderState.leNat_encoded (L : LadderState) : leNat L.encoded = (L.x2 * fInv L.z2) % (2 ^ 255 - 19) := by
  have hlt : (L.x2 * fInv L.z2) % (2 ^ 255 - 19) < 2 ^ 255 - 19 := Nat.mod_lt _ (by decide)
  rw [L.encoded_eq, leNat_leBytes, Nat.mod_eq_of_lt (by omega)]

theorem LadderState.leNat_encoded_lt (L : LadderState) : leNat L.encoded < 2 ^ 255 - 19 := by
  rw [L.leNat_encoded]
  exact Nat.mod_lt _ (by decide)

/-- A point at infinity gives 32 zero bytes, as `inv(0) = 0` (44_x25519.md R341). -/
theorem LadderState.encoded_of_dvd {L : LadderState} (h : p255 ∣ L.z2) : L.encoded = List.replicate 32 0#8 := by
  rw [L.encoded_eq, fInv_of_dvd h, Nat.mul_zero, Nat.zero_mod]
  rfl

/-! ### The ladder reads its point modulo p255 and its scalar bit by bit (44_x25519.md R345, R346) -/

/-- Two ladder states with the same swap flag and the same field elements modulo p255; their scalars may differ. -/
structure LadderState.Congr (L M : LadderState) : Prop where
  x1   : L.x1 ≡ M.x1 [MOD p255]
  x2   : L.x2 ≡ M.x2 [MOD p255]
  z2   : L.z2 ≡ M.z2 [MOD p255]
  x3   : L.x3 ≡ M.x3 [MOD p255]
  z3   : L.z3 ≡ M.z3 [MOD p255]
  swap : L.swap = M.swap

section
variable {L M : LadderState}

theorem LadderState.Congr.swapped (h : L.Congr M) (s : Bool) : (L.swapped s).Congr (M.swapped s) := by
  cases s
  · exact h
  · exact ⟨h.x1, h.x3, h.z3, h.x2, h.z2, h.swap⟩

theorem LadderState.Congr.addDouble (h : L.Congr M) : L.addDouble.Congr M.addDouble := by
  have hA  := fAdd_congr h.x2 h.z2
  have hB  := fSub_congr h.x2 h.z2
  have hC  := fAdd_congr h.x3 h.z3
  have hD  := fSub_congr h.x3 h.z3
  have hz3 (d : Nat) : fMul L.x1 d = fMul M.x1 d := fMul_congr h.x1 rfl
  refine ⟨h.x1, ?_, ?_, ?_, ?_, h.swap⟩ <;>
    simp only [LadderState.addDouble, hA, hB, hC, hD, hz3, Nat.ModEq.refl]

theorem LadderState.Congr.iterate (h : L.Congr M) {t : Nat} (hbit : L.scalar.testBit t = M.scalar.testBit t) :
    (L.iterate t).Congr (M.iterate t) := by
  have hstep := (h.swapped (L.swap ^^ L.scalar.testBit t)).addDouble
  rw [LadderState.iterate, LadderState.iterate, ← hbit, ← h.swap]
  exact ⟨hstep.x1, hstep.x2, hstep.z2, hstep.x3, hstep.z3, rfl⟩

/-- The iterations for bits n - 1 down to 0 read no other scalar bit. -/
theorem LadderState.Congr.ladderLoop (h : L.Congr M) {n : Nat}
    (hbits : ∀ t < n, L.scalar.testBit t = M.scalar.testBit t) : (ladderLoop n L).Congr (ladderLoop n M) := by
  induction n generalizing L M with
  | zero => exact h
  | succ n ih => exact ih (h.iterate (hbits n n.lt_succ_self)) fun t ht => hbits t (Nat.lt_succ_of_lt ht)

theorem LadderState.Congr.encoded_eq (h : L.Congr M) : L.encoded = M.encoded :=
  congrArg (leBytes 32) (fMul_congr h.x2 (congrArg (· % p255) (fInv_congr h.z2)))

end

/-- The result is a function of scalar bits 254 to 0 and of the point modulo p255. -/
theorem runLadder_encoded_congr {k k' u u' : Nat} (hk : k % 2 ^ 255 = k' % 2 ^ 255) (hu : u ≡ u' [MOD p255]) :
    (runLadder k u).encoded = (runLadder k' u').encoded := by
  have hlow {t : Nat} (ht : t < 255) (n : Nat) : (n % 2 ^ 255).testBit t = n.testBit t := by
    rw [Nat.testBit_mod_two_pow, decide_eq_true ht, Bool.true_and]
  have hbits : ∀ t < 255, k.testBit t = k'.testBit t := fun t ht => by rw [← hlow ht, hk, hlow ht]
  have hloop := LadderState.Congr.ladderLoop (n := 255)
    (L := ⟨u, k, 1, 0, u, 1, 0, false⟩) (M := ⟨u', k', 1, 0, u', 1, 0, false⟩) ⟨hu, rfl, rfl, hu, rfl, rfl⟩ hbits
  rw [runLadder, runLadder, hloop.swap]
  exact (hloop.swapped _).encoded_eq

/-! ### The command (44_x25519.md R348) -/

theorem State.preCheck_x25519_eq_none (clamp : Bool) (s : State) :
    s.preCheck (.x25519 clamp) = none ↔ inRange s.params (rangeAt s.x.dst 32) = true ∧
      inRange s.params (rangeAt s.x.src 32) = true ∧ inRange s.params (rangeAt s.x.key 32) = true := by
  simp [s.preCheck_eq_none, sequenceOk, lengthOk, rangesOk, overlapOk, outputRange, inputRanges]

/-- X25519's operands are memory's bytes. -/
theorem State.Undisturbed.x25519_out {clamp : Bool} {s : State} (h : s.Undisturbed (.x25519 clamp)) :
    (bodyOf (.x25519 clamp) s).out =
      x25519Bytes clamp (s.mem.bytes s.x.key.toNat 32) (s.mem.bytes s.x.src.toNat 32) := by
  simp only [bodyOf, x25519Body]
  rw [h.readOperand, h.readOperand]
  · rfl
  all_goals simp [accessedRanges, readRanges]

/-- DIAG is the parameter's value for the CLAMP bit and the output (44_x25519.md R350). -/
theorem bodyOf_x25519_diag (clamp : Bool) (s : State) : (bodyOf (.x25519 clamp) s).diag =
    decide ((clamp, (bodyOf (.x25519 clamp) s).out) ∈ s.params.diagOn) :=
  List.contains_eq_mem _ _

end Sys2Proof.Machine
end

section
/-! PROOFS. The obligations about X25519 (44_x25519.md R344 to R350). -/

namespace Sys2Proof.Proofs

open Sys2Proof.Machine

/-- Settles O38: the hypotheses are the command's checks, so it finishes its body, whose output is the ladder's result. -/
theorem x25519Result : Obligations.X25519Result := by
  intro clamp s hm h hsrc hdst hkey k u L
  have hx := h.exec_eq_finish ((s.preCheck_x25519_eq_none clamp).2 ⟨hdst, hsrc, hkey⟩)
  have hbytes := h.exec_ok_bytes hm hx rfl
  refine ⟨_, hx, hbytes.trans h.x25519_out, exec_memoryKeptOutside hm hx, ?_, rfl, State.finish_keepsRegisters _ _ s⟩
  have hdiag := bodyOf_x25519_diag clamp s
  rw [← hbytes] at hdiag
  exact hdiag ▸ State.finish_completesWith (.x25519 clamp) _ s

/-- Settles O50: byte by byte, the masks of R344 at bytes 0 and 31. -/
theorem scalarClamping : Obligations.ScalarClamping :=
  fun _ hk => ⟨leNat_clampScalar_testBit hk, rfl⟩

/-- Settles O51: the ladder reads its point through field operations only. -/
theorem pointBit255AndNonCanonicalIgnored : Obligations.PointBit255AndNonCanonicalIgnored :=
  fun _ _ _ _ huv => runLadder_encoded_congr rfl huv

/-- Settles O52: the ladder starts at scalar bit 254. -/
theorem rawScalarBit255Ignored : Obligations.RawScalarBit255Ignored :=
  fun _ _ _ hk => runLadder_encoded_congr hk rfl

/-- Settles O53: the exponent chain computes the power, and the 32 bytes hold a number below p255. -/
theorem ladderResultIsCanonical : Obligations.LadderResultIsCanonical := by
  intro L
  refine ⟨?_, L.leNat_encoded_lt, ?_, fun h => LadderState.encoded_of_dvd (Nat.dvd_of_mod_eq_zero h)⟩
  · rw [L.encoded_eq, fInv_eq]
  · have hbit : (leNat L.encoded).testBit 255 = false :=
      Nat.testBit_eq_false_of_lt (L.leNat_encoded_lt.trans (by decide))
    rwa [leNat_testBit] at hbit

end Sys2Proof.Proofs
end

section
/-! PROOFS. A host access in the step of a completion (60_exceptions.md R405, 40_command.md R174): the access is taken
first, and the engine's step starts from the state it leaves. -/

namespace Sys2Proof.Machine

/-- With a command in flight, the engine moves on from what the access left. -/
theorem step_accessThenEngine_busy {s t : State} {a : HostAction} {ts : List Turn} (hp : s.phase = .busy)
    (h : s.turns = .accessThenEngine a :: ts) (ha : (s.rest ts).act a = .next t) : step s = engineStep t := by
  have hp' : (s.rest ts).phase = .busy := hp
  simp only [step, h, actThenEngine, ha, hp']

/-- An access that leaves no command in flight is all that happens in the step: nothing completes. -/
theorem step_accessThenEngine_aborted {s t : State} {a : HostAction} {ts : List Turn} (hp : s.phase = .busy)
    (h : s.turns = .accessThenEngine a :: ts) (ha : (s.rest ts).act a = .next t) (ht : t.phase = .idle) :
    step s = .next t :=
  (step_accessThenEngine_busy hp h ha).trans (engineStep_idle ht)

/-- The engine moves on from what a register write left. -/
theorem step_writeRegisterThenEngine {s t : State} {r : Reg} {v : Word} {ts : List Turn} (hp : s.phase = .busy)
    (hl : s.resetLine = false) (h : s.turns = .accessThenEngine (.regWrite (s.params.base + r.offset) 4 v) :: ts)
    (hw : (s.rest ts).writeReg r v = t) : step s = engineStep { t with response := .written } :=
  step_accessThenEngine_busy hp h (hw ▸ State.act_writeRegister (s := s.rest ts) hl r v)

/-- Both resets leave the block as `resetBlock` does, but for the reset input and the answer (70_reset_and_hazards.md
R450, R452). -/
theorem State.act_reset {s : State} {a : HostAction} (hl : s.resetLine = false)
    (ha : a = .resetAssert ∨ ∃ v, a = .regWrite (s.params.base + Reg.ctrl.offset) 4 v ∧ v.getLsbD 1 = true) :
    ∃ l r, s.act a = .next { s.resetBlock with resetLine := l, response := r } := by
  rcases ha with rfl | ⟨v, rfl, hv⟩
  · exact ⟨true, s.response, rfl⟩
  · have hw : s.writeReg .ctrl v = s.resetBlock := State.writeCtrl_reset hv
    exact ⟨s.resetBlock.resetLine, .written, hw ▸ State.act_writeRegister hl .ctrl v⟩

end Sys2Proof.Machine
end

section
/-! PROOFS. The obligation about a host access in the step of a completion (60_exceptions.md R405). -/

namespace Sys2Proof.Proofs

open Sys2Proof.Machine

/-- Settles O21: a STATUS or CMD write leaves the command in flight, and the engine completes it after the write; a reset
leaves none. -/
theorem sameStepAccessPrecedesCompletion : Obligations.SameStepAccessPrecedesCompletion := by
  intro s a ts hp hl hts
  refine ⟨?_, fun ha => ?_, ?_⟩
  · rintro v rfl
    have hstep := step_writeRegisterThenEngine (r := .status) hp hl hts rfl
    obtain ⟨t, ht, -, hidle, hdone⟩ :=
      engineStep_completes (s := { (s.rest ts).writeStatus v with response := .written }) hp
    exact ⟨t, hstep.trans ht, hdone, hidle⟩
  · obtain ⟨l, r, hact⟩ := State.act_reset (s := s.rest ts) hl ha
    have hstep := step_accessThenEngine_aborted hp hts hact rfl
    exact ⟨hstep.trans hact.symm, _, hstep, rfl, rfl⟩
  · rintro w rfl
    have hstep := step_writeRegisterThenEngine (r := .cmd) hp hl hts (State.writeCmd_busy (s := s.rest ts) hp)
    obtain ⟨t, ht, ⟨-, -, hovr, hcmd, -⟩, hidle, -⟩ :=
      engineStep_completes (s := { s with turns := ts, response := .written, cmdOvr := true }) hp
    exact ⟨hstep, t, hstep.trans ht, hovr, hcmd, hidle⟩

end Sys2Proof.Proofs
end

section
/-! PROOFS. What each reset does, and what it makes of memory while a command is in flight (70_reset_and_hazards.md
R450, R452, R453). -/

namespace Sys2Proof.Machine

theorem State.ctrlWord_ie (s : State) : s.ctrlWord.getLsbD 0 = s.ie := by
  simp only [State.ctrlWord, BitVec.getLsbD_append]
  simp

/-- The block answers no access while reset is asserted, of whatever form (70_reset_and_hazards.md R450). -/
theorem State.busRead_silent {s : State} (hl : s.resetLine = true) (addr bytes : Nat) :
    s.busRead addr bytes = { s with response := .silent } :=
  if_pos hl

theorem State.busWrite_silent {s : State} (hl : s.resetLine = true) (addr bytes : Nat) (v : Word) :
    s.busWrite addr bytes v = { s with response := .silent } :=
  if_pos hl

/-- An illegal word in flight has no output range, so its abort touches no memory (70_reset_and_hazards.md R453). -/
theorem State.memoryAfterReset_illegal {s : State} (hp : s.phase = .busy) (hd : decode s.cmdword = none) :
    s.memoryAfterReset = s.mem := by
  unfold State.memoryAfterReset
  rw [hp, hd]

/-- The abort of a legal word frees the existing bytes of its output range (70_reset_and_hazards.md R453). -/
theorem State.memoryAfterReset_read_legal {s : State} {i : Instr} (hm : s.mem.wf) (hp : s.phase = .busy)
    (hd : decode s.cmdword = some i) (b : Nat) :
    s.memoryAfterReset.read b =
      if inside (outputRange i s.x) b = true ∧ b < 2 ^ s.params.addrW then Config.freeByte s.draw .aborted b
      else s.mem.read b := by
  have hf : s.inFlight = some i := by
    unfold State.inFlight
    rw [hp, hd]
  rw [State.memoryAfterReset_read hm, hf]

end Sys2Proof.Machine
end

section
/-! PROOFS. The obligations about resets (70_reset_and_hazards.md R450, R452, R453). -/

namespace Sys2Proof.Proofs

open Sys2Proof.Machine

/-- Settles O18: both resets leave `State.resetBlock`, whose registers are the reset values and whose memory is that of
the abort. -/
theorem resetAbortsCommandInFlight : Obligations.ResetAbortsCommandInFlight := by
  intro s a v hm hp hl hv ha
  obtain ⟨l, r, hact⟩ := State.act_reset hl (ha.imp_right fun h => ⟨v, h, hv⟩)
  refine ⟨_, hact, engineStep_idle rfl, rfl, rfl, rfl, rfl, rfl, rfl, State.memoryAfterReset_illegal hp,
    fun i hd => ?_⟩
  have hread := State.memoryAfterReset_read_legal hm hp hd
  exact ⟨fun b hout => (hread b).trans (if_neg fun h => hout ((inside_iff _ _).1 h.1)),
    fun b hin hb => (hread b).trans (if_pos ⟨hin, hb⟩)⟩

/-- Settles O9: with SRST set the write is `State.resetBlock`, and so is the reset input but for its level, which is
`false` on both sides by `hl`. -/
theorem ctrlWriteSoftReset : Obligations.CtrlWriteSoftReset := by
  refine ⟨fun s v ts hl hts => ⟨fun hv => ?_, fun hv => ?_⟩, fun s => ⟨s.ctrlWord_srst, s.ctrlWord_ie⟩⟩
  · refine ⟨_, _, step_wr_of_eq hl hts (State.writeCtrl_reset hv), rfl, ?_, rfl⟩
    rw [← hl]
    rfl
  · exact step_wr_of_eq hl hts (State.writeCtrl_enable hv)

/-- Settles O19: an access finds the line asserted first; after the release the block is idle, so a CMD write issues. -/
theorem assertedResetAnswersNothing : Obligations.AssertedResetAnswersNothing := by
  refine ⟨fun s addr bytes v hl => ⟨?_, ?_⟩, fun s w => ?_⟩
  · exact congrArg Host.Outcome.next (State.busRead_silent hl addr bytes)
  · exact congrArg Host.Outcome.next (State.busWrite_silent hl addr bytes v)
  · exact ⟨_, _, _, rfl, rfl, rfl, State.act_writeRegister rfl .cmd w, rfl, rfl⟩

end Sys2Proof.Proofs
end
